-- ==== Sys2Proof/Word.lean ====
section
/-! DEFINITION. The word types of the block: a byte of the USB wire and of packet memory, and the
16 significant bits of a peripheral register (00_scope.md R9, R10; 10_state.md R24). -/

namespace Sys2Proof

/-- A byte (u8) of 00_scope.md R7, R12. -/
abbrev Byte := BitVec 8

/-- A 16-bit value (u16): a register, a SETUP field, a halfword of the buffer-descriptor table. -/
abbrev Half := BitVec 16

end Sys2Proof
end

