-- ==== Sys2Proof/Config.lean ====
section
/-! DEFINITION. What is fixed before `Enable` and never changed by a step: the static configuration
(00_scope.md R7) and the named parameters (R8; 93_implementation_defined.md I19), together with the free values the spec leaves open. -/

namespace Sys2Proof

/-- A transfer direction as seen from the host (00_scope.md R16): In is the transmit half of a slot,
Out the receive half. -/
inductive Dir where
  | dirIn
  | dirOut
  deriving DecidableEq, Repr, Inhabited

/-- The type of a declared endpoint (R7); Control is endpoint 0's alone. -/
inductive TransferType where
  | bulk
  | interrupt
  | isochronous
  deriving DecidableEq, Repr, Inhabited

/-- `Endpoint` of R7. -/
structure Endpoint where
  number    : BitVec 4
  dir       : Dir
  epType    : TransferType
  mps       : Half
  bInterval : Byte
  deriving DecidableEq, Repr, Inhabited

/-- `Interface` of R7. -/
structure Interface where
  bInterfaceNumber  : Byte
  bAlternateSetting : Byte
  ifClass           : Byte
  ifSubClass        : Byte
  ifProtocol        : Byte
  classBlob         : List Byte
  endpoints         : List Endpoint
  deriving DecidableEq, Repr, Inhabited

/-- `Configuration` of R7: one static configuration, in declaration order. -/
structure Configuration where
  bConfigurationValue : Byte
  bmAttributes        : Byte
  bMaxPower           : Byte
  interfaces          : List Interface
  reportBlob          : Option (List Byte)
  deriving DecidableEq, Repr, Inhabited

/-- The sizes of R8 that 93_implementation_defined.md I19 makes parameters (log entry 18). -/
structure Sizes where
  /-- `SCRATCH_CAP`. -/
  scratchCap : Nat
  /-- `NUM_EP_SLOTS - 1`, the last slot: the register map has room for n = 0..7 (R20, R24). -/
  lastSlot   : Fin 8
  /-- `PMA_SIZE`, at most 65536: an ADDR halfword names every offset (R38). -/
  pmaSize    : Fin 65537
  deriving DecidableEq, Repr, Inhabited

/-- The values of R8. -/
def Sizes.ofR8 : Sizes where
  scratchCap := 64
  lastSlot := 7
  pmaSize := 512

/-- `Config` of R7: the device identity and its configurations; with it the sizes of R8 that its checks
compare it with. -/
structure StaticConfig where
  bcdUSB      : Half
  devClass    : Byte
  devSubClass : Byte
  devProtocol : Byte
  mps0        : Byte
  idVendor    : Half
  idProduct   : Half
  bcdDevice   : Half
  configs     : List Configuration
  sizes       : Sizes
  deriving DecidableEq, Repr, Inhabited

/-- `SCRATCH_CAP` (R8). -/
def StaticConfig.scratchCap (cfg : StaticConfig) : Nat := cfg.sizes.scratchCap

/-- `NUM_EP_SLOTS` (R8). -/
def StaticConfig.numEpSlots (cfg : StaticConfig) : Nat := cfg.sizes.lastSlot.val + 1

/-- `PMA_SIZE` (R8). -/
def StaticConfig.pmaSize (cfg : StaticConfig) : Nat := cfg.sizes.pmaSize.val

/-- The OPEN parameters of R8 that are plain values. -/
structure Params where
  /-- `HAS_PULLUP` (R41, R241). -/
  hasPullup            : Bool
  /-- `SETCONFIG_FALLTHROUGH` (R183). -/
  setConfigFallthrough : Bool
  /-- `RESET_CLEARS_PENDING` (R242). -/
  resetClearsPending   : Bool
  /-- `USB_BASE`: only offsets from it matter (R61). -/
  usbBase              : BitVec 32
  /-- `PMA_BASE`: packet memory is addressed by offset (R62). -/
  pmaBase              : BitVec 32
  deriving DecidableEq, Repr, Inhabited

/-- `BDT_BASE` (R8): the offset of the buffer-descriptor table, the value written to BTABLE. -/
def bdtBase : Half := 0x0000#16

/-- `CNTR_BASELINE` (R25, R110): CTRM and RESETM only. -/
def cntrBaseline : Half := 0x8400#16

/-- `DADDR_DEFAULT` (R110): EF = 1, ADD = 0. -/
def daddrDefault : Half := 0x0080#16

/-- Endpoint status (R33), the same for STAT_RX and STAT_TX. -/
inductive Stat where
  | disabled
  | stall
  | nak
  | valid
  deriving DecidableEq, Repr, Inhabited

/-- The registers of R24. -/
inductive Reg where
  | epr (n : Fin 8)
  | cntr
  | istr
  | fnr
  | daddr
  | btable
  deriving DecidableEq, Repr, Inhabited

/-- One write an endpoint handler makes (42_dispatch.md R155). The first four kinds can lie in the
footprint of `EXT_HANDLER(n, d)`; a packet-memory halfword may; any other register never does. -/
inductive HandlerWrite where
  /-- `EPR[n].CTR_TX` (In) or `CTR_RX` (Out). -/
  | ctr (v : Bool)
  /-- `EPR[n].STAT_TX` (In) or `STAT_RX` (Out). -/
  | stat (v : Stat)
  /-- `COUNT_TX(n)` (In) or bits 9:0 of `COUNT_RX(n)` (Out). -/
  | count (c : BitVec 10)
  /-- One byte of packet memory. -/
  | byte (off : Nat) (v : Byte)
  /-- One halfword of packet memory. -/
  | half (off : Nat) (v : Half)
  /-- A whole register. -/
  | reg (r : Reg) (v : Half)
  deriving DecidableEq, Repr, Inhabited

/-- The slots and the capacities of one buffer-descriptor entry as BM_ALLOCATE computes them
(41_buffer_manager.md R131). -/
structure SlotAlloc where
  addrTx      : Nat
  txCap       : Nat
  addrRx      : Nat
  countRxInit : Half
  deriving DecidableEq, Repr, Inhabited

/-- The result of BM_ALLOCATE (R131): one entry for each slot 0..maxSlot, and the offset after the
last buffer. -/
structure Allocation where
  maxSlot : Nat
  entries : List SlotAlloc
  endOff  : Nat
  deriving DecidableEq, Repr, Inhabited

/-- The configuration refusals of 60_exceptions.md R298. -/
inductive ConfigError where
  | pmaOverflow
  | scratchOverflow
  | responseExceedsMps0
  | duplicateEndpoint
  | endpointNumber
  | mpsRange
  | fieldRange
  deriving DecidableEq, Repr, Inhabited

/-- The code column of R298. -/
def ConfigError.code : ConfigError → Nat
  | .pmaOverflow => 16
  | .scratchOverflow => 17
  | .responseExceedsMps0 => 18
  | .duplicateEndpoint => 19
  | .endpointNumber => 20
  | .mpsRange => 21
  | .fieldRange => 22

/-! ### Free values

Each is a constant without a body: nothing can be proved of its value. -/

/-- The value of a packet-memory byte that nothing has written (R37, R46: "any value"). -/
opaque Config.powerOnByte : Nat → Byte

/-- The byte after an odd-length buffer write (20_memory.md R67: "may take any value"). -/
opaque Config.padByte : Nat → Byte

/-- A draw of `EP_ID_CHOICE` (R28), as a position in the pending set. -/
opaque Config.epIdPick : Nat → Nat

/-- A member of `EXT_HANDLER`'s reference relation (R155), before it is cut to the footprint. -/
opaque Config.handlerWrites : Nat → List HandlerWrite

/-- The contents of FNR (R32: "any value"). -/
opaque Config.frameNumber : Nat → Half

/-! ### The example device -/

/-- EX1 of 95_test_vectors.md, the device of the source's scenario. -/
def ex1 : StaticConfig where
  bcdUSB := 0x0200#16
  devClass := 0#8
  devSubClass := 0#8
  devProtocol := 0#8
  mps0 := 64#8
  idVendor := 0x1234#16
  idProduct := 0x5678#16
  bcdDevice := 0x0100#16
  sizes := .ofR8
  configs :=
    [{ bConfigurationValue := 1#8
       bmAttributes := 0x80#8
       bMaxPower := 0x32#8
       reportBlob := some [0x05#8, 0x01#8, 0x09#8, 0x06#8, 0xA1#8, 0x01#8, 0xC0#8]
       interfaces :=
         [{ bInterfaceNumber := 0#8
            bAlternateSetting := 0#8
            ifClass := 0x03#8
            ifSubClass := 0#8
            ifProtocol := 0#8
            classBlob := []
            endpoints :=
              [{ number := 1#4, dir := .dirIn, epType := .interrupt, mps := 8#16,
                 bInterval := 10#8 }] }] }]

/-- The parameters EX1 is given with (95_test_vectors.md), and the bus addresses of R8. -/
def ex1Params : Params where
  hasPullup := true
  setConfigFallthrough := false
  resetClearsPending := false
  usbBase := 0x40005C00#32
  pmaBase := 0x40006000#32

end Sys2Proof
end

