-- ==== Sys2Proof/Syntax.lean ====
section
/-! DEFINITION. The operations of the block, one constructor for each row of spec/opcode_table.json
(30_encoding.md R111), and the inputs they are read from. -/

namespace Sys2Proof

/-- The operations. A SETUP32 row keeps every field of the 8-byte SETUP packet that its row does not
fix (R91, R93); an ISTR16 row keeps DIR and EP_ID (R27); a TOKEN row keeps address, endpoint number
and data (R105); an ENTRY row keeps the arguments its rule gives it. -/
inductive Instr where
  -- SETUP32
  | getStatus (bmRequestType : Byte) (wValue wIndex wLength : Half)
  | setAddress (bmRequestType : Byte) (wValue wIndex wLength : Half)
  | getDescriptorDevice (bmRequestType descIndex : Byte) (wIndex wLength : Half)
  | getDescriptorConfiguration (bmRequestType descIndex : Byte) (wIndex wLength : Half)
  | getDescriptorReport (bmRequestType descIndex : Byte) (wIndex wLength : Half)
  | getDescriptorOther (bmRequestType descType descIndex : Byte) (wIndex wLength : Half)
  | setConfiguration (bmRequestType : Byte) (wValue wIndex wLength : Half)
  | otherRequest (bmRequestType bRequest : Byte) (wValue wIndex wLength : Half)
  -- ISTR16
  | evBusReset
  | evCtrEp0 (dirBit : BitVec 1)
  | evCtrEpn (epId : BitVec 4) (dirBit : BitVec 1)
  -- EPR0_16
  | evEp0Setup
  | evEp0Out
  | evEp0Tx
  -- TOKEN
  | busSetup (addr : BitVec 7) (ep : BitVec 4) (data : List Byte)
  | busOut (addr : BitVec 7) (ep : BitVec 4) (data : List Byte)
  | busIn (addr : BitVec 7) (ep : BitVec 4)
  | busReset
  -- ENTRY
  | enable
  | handler
  | reset
  | ep0Reset
  | configReset (c : Configuration)
  | ackInterrupt
  | dispatch
  | extHandler (n : BitVec 4) (d : Dir)
  | bmAllocate
  | bmInit
  | deviceDescriptorBytes
  | composeConfig (c : Configuration)
  | send (bytes : List Byte) (wLength : Half)
  | stallTx
  deriving DecidableEq, Repr

/-- One step of an agent, as the schedule offers it: the trace syntax of R108. `enable` is the call of
`Enable` from start-up code, `irq` the interrupt controller's offer of one `Handler` invocation, `bus`
one transaction of the bus agent, as bytes. -/
inductive Input where
  | enable
  | irq
  | bus (bytes : List Byte)
  deriving DecidableEq, Repr, Inhabited

/-- What the block decodes (30_encoding.md, opening): a SETUP packet, an ISTR event word, an EPR[0]
event word, or an input of the schedule. -/
inductive Code where
  | setup (packet : List Byte)
  | istr (w : Half)
  | epr0 (w : Half)
  | input (x : Input)
  deriving DecidableEq, Repr, Inhabited

/-- Why the decoder rejects a code. -/
inductive DecodeError where
  /-- A SETUP packet that has not exactly 8 bytes (R91). -/
  | setupPacketLength (n : Nat)
  /-- An ISTR word with neither RESET nor CTR set: no row of R104 applies. -/
  | noIstrEvent
  /-- An EPR[0] word with neither CTR_RX nor CTR_TX set: no row of R104 applies. -/
  | noEpr0Event
  /-- A bus transaction without its first byte. -/
  | emptyTransaction
  /-- A first byte that is the PID of a data packet or a handshake of R105, which starts no
  transaction. -/
  | notAToken (b : Byte)
  /-- A first byte that is no PID of R105. -/
  | unknownPid (b : Byte)
  /-- A token without its address or endpoint byte. -/
  | truncatedToken
  /-- An address byte above 127 (R9: 7 bits). -/
  | addressRange (b : Byte)
  /-- An endpoint byte above 15 (R9: 4 bits). -/
  | endpointRange (b : Byte)
  /-- A SETUP data packet that has not exactly 8 bytes (R267 (1)). -/
  | setupDataLength (n : Nat)
  /-- An OUT data packet of more than 1023 bytes (R267 (2)). -/
  | outDataLength (n : Nat)
  /-- Bytes after an IN token or a bus reset. -/
  | trailingBytes
  deriving DecidableEq, Repr, Inhabited

end Sys2Proof
end

