-- ==== Sys2Proof/WellFormed.lean ====
section
/-! DEFINITION. Which operations are well formed: the operand ranges the spec gives. -/

namespace Sys2Proof

/-- Every endpoint the configuration declares, in declaration order. -/
def Configuration.endpoints (c : Configuration) : List Endpoint :=
  c.interfaces.flatMap Interface.endpoints

/-- An endpoint number that the register map has a place for: 1 .. 7 (10_state.md R24). A number from
NUM_EP_SLOTS on is refused when it is used (60_exceptions.md R298 code 20). -/
def Endpoint.numberOk (e : Endpoint) : Bool :=
  e.number.toNat != 0 && decide (e.number.toNat < 8)

/-- The counts of a configuration fit their one-byte fields (44_descriptor_composer.md R221). -/
def Configuration.countsOk (c : Configuration) : Bool :=
  decide (c.interfaces.length ≤ 255) && c.interfaces.all (fun i => decide (i.endpoints.length ≤ 255))

/-- The operand ranges of each operation.
GET_DESCRIPTOR_OTHER and OTHER_REQUEST apply only where no more specific row does (R96, R182, R184);
EV_CTR_EPN has EP_ID ≠ 0 (R104); a SETUP carries 8 bytes and an OUT at most 1023 (R267);
CONFIG_RESET and EXT_HANDLER name slots of the register map (R24, R155); a response fits one packet of
the largest MPS0 (R132, R171). -/
def Instr.wf : Instr → Bool
  | .getStatus _ _ _ _ => true
  | .setAddress _ _ _ _ => true
  | .getDescriptorDevice _ _ _ _ => true
  | .getDescriptorConfiguration _ _ _ _ => true
  | .getDescriptorReport _ _ _ _ => true
  | .getDescriptorOther _ descType _ _ _ =>
      descType != 0x01#8 && descType != 0x02#8 && descType != 0x22#8
  | .setConfiguration _ _ _ _ => true
  | .otherRequest _ bRequest _ _ _ =>
      bRequest != 0x00#8 && bRequest != 0x05#8 && bRequest != 0x06#8 && bRequest != 0x09#8
  | .evBusReset => true
  | .evCtrEp0 _ => true
  | .evCtrEpn epId _ => epId != 0#4
  | .evEp0Setup => true
  | .evEp0Out => true
  | .evEp0Tx => true
  | .busSetup _ _ data => data.length == 8
  | .busOut _ _ data => decide (data.length ≤ 1023)
  | .busIn _ _ => true
  | .busReset => true
  | .enable => true
  | .handler => true
  | .reset => true
  | .ep0Reset => true
  | .configReset c => c.endpoints.all Endpoint.numberOk
  | .ackInterrupt => true
  | .dispatch => true
  | .extHandler n _ => n.toNat != 0 && decide (n.toNat < 8)
  | .bmAllocate => true
  | .bmInit => true
  | .deviceDescriptorBytes => true
  | .composeConfig c => c.countsOk
  | .send bytes _ => decide (bytes.length ≤ 64)
  | .stallTx => true

/-- The operation is well formed. -/
abbrev WellFormed (i : Instr) : Prop := i.wf = true

end Sys2Proof
end

