-- ==== Sys2Proof/Decode.lean ====
section
/-! DEFINITION. The decoder, total on any code and rejecting by name, and after it the encoder. Both
are written from the tables of 30_encoding.md. -/

namespace Sys2Proof

/-! ### Byte assembly (00_scope.md R10) -/

/-- `u16le(b0, b1) = b0 | (b1 << 8)`. -/
def u16le (b0 b1 : Byte) : Half := b1 ++ b0

/-- `le16(v) = [v[7:0], v[15:8]]`. -/
def le16 (v : Half) : List Byte := [v.extractLsb' 0 8, v.extractLsb' 8 8]

/-! ### The SETUP packet (R91, R93, R96) -/

/-- The fields of the SETUP packet (R91). -/
structure SetupPacket where
  bmRequestType : Byte
  bRequest      : Byte
  wValue        : Half
  wIndex        : Half
  wLength       : Half
  deriving DecidableEq, Repr, Inhabited

/-- `wValue[15:8]` (R97). -/
def SetupPacket.descType (p : SetupPacket) : Byte := p.wValue.extractLsb' 8 8

/-- `wValue[7:0]` (R97). -/
def SetupPacket.descIndex (p : SetupPacket) : Byte := p.wValue.extractLsb' 0 8

/-- The assembly table of R91, from the bytes `p[0] .. p[7]`. -/
def setupPacketOf (p : List Byte) : SetupPacket where
  bmRequestType := p.getD 0 0#8
  bRequest := p.getD 1 0#8
  wValue := u16le (p.getD 2 0#8) (p.getD 3 0#8)
  wIndex := u16le (p.getD 4 0#8) (p.getD 5 0#8)
  wLength := u16le (p.getD 6 0#8) (p.getD 7 0#8)

/-- The SETUP32 decode key (R93): `u16le(p[0], p[1]) | u16le(p[2], p[3]) << 16`. -/
def setupKey (p : List Byte) : BitVec 32 :=
  u16le (p.getD 2 0#8) (p.getD 3 0#8) ++ u16le (p.getD 0 0#8) (p.getD 1 0#8)

/-- The request operations a SETUP packet selects (R96). -/
inductive Request where
  | getStatus
  | setAddress
  | getDescriptorDevice
  | getDescriptorConfiguration
  | getDescriptorReport
  | getDescriptorOther
  | setConfiguration
  | otherRequest
  deriving DecidableEq, Repr, Inhabited

/-- `decodeRequest(k)` (R96): total on every 32-bit key. -/
def decodeRequest (k : BitVec 32) : Request :=
  let bRequest := k.extractLsb' 8 8
  let descType := k.extractLsb' 24 8
  if bRequest = 0x00#8 then .getStatus
  else if bRequest = 0x05#8 then .setAddress
  else if bRequest = 0x06#8 then
    if descType = 0x01#8 then .getDescriptorDevice
    else if descType = 0x02#8 then .getDescriptorConfiguration
    else if descType = 0x22#8 then .getDescriptorReport
    else .getDescriptorOther
  else if bRequest = 0x09#8 then .setConfiguration
  else .otherRequest

/-- The operation with the operands its packet gives it (R107). -/
def requestInstr (r : Request) (p : SetupPacket) : Instr :=
  match r with
  | .getStatus => .getStatus p.bmRequestType p.wValue p.wIndex p.wLength
  | .setAddress => .setAddress p.bmRequestType p.wValue p.wIndex p.wLength
  | .getDescriptorDevice => .getDescriptorDevice p.bmRequestType p.descIndex p.wIndex p.wLength
  | .getDescriptorConfiguration =>
      .getDescriptorConfiguration p.bmRequestType p.descIndex p.wIndex p.wLength
  | .getDescriptorReport => .getDescriptorReport p.bmRequestType p.descIndex p.wIndex p.wLength
  | .getDescriptorOther =>
      .getDescriptorOther p.bmRequestType p.descType p.descIndex p.wIndex p.wLength
  | .setConfiguration => .setConfiguration p.bmRequestType p.wValue p.wIndex p.wLength
  | .otherRequest => .otherRequest p.bmRequestType p.bRequest p.wValue p.wIndex p.wLength

/-- The operation a SETUP packet encodes (R93, R96). -/
def decodeSetup (p : List Byte) : Except DecodeError Instr :=
  if p.length = 8 then .ok (requestInstr (decodeRequest (setupKey p)) (setupPacketOf p))
  else .error (.setupPacketLength p.length)

/-! ### Event words (R104) -/

/-- The ISTR rows that apply to a word, in the order `Handler` tests them (R104, R245). -/
def istrRows (w : Half) : List Instr :=
  (if w.getLsbD 10 then [.evBusReset] else []) ++
  (if w.getLsbD 15 then
    (if w.extractLsb' 0 4 = 0#4 then [.evCtrEp0 (w.extractLsb' 4 1)]
     else [.evCtrEpn (w.extractLsb' 0 4) (w.extractLsb' 4 1)])
   else [])

/-- The EPR[0] rows that apply to a word, in the order `Ep0Handler` tests them (R104, R173). -/
def epr0Rows (w : Half) : List Instr :=
  (if w.getLsbD 15 then (if w.getLsbD 11 then [.evEp0Setup] else [.evEp0Out]) else []) ++
  (if w.getLsbD 7 then [.evEp0Tx] else [])

/-- The first ISTR row that applies. -/
def decodeIstr (w : Half) : Except DecodeError Instr :=
  match istrRows w with
  | i :: _ => .ok i
  | [] => .error .noIstrEvent

/-- The first EPR[0] row that applies. -/
def decodeEpr0 (w : Half) : Except DecodeError Instr :=
  match epr0Rows w with
  | i :: _ => .ok i
  | [] => .error .noEpr0Event

/-! ### Bus transactions (R105)

A transaction is the token's PID byte, one byte of address, one byte of endpoint number, and the bytes
of the data packet, without the data packet's own PID, which the toggle alone decides (R36, R105); a bus reset, which has no packet, is the single byte 0x00, which is no PID.
DESIGN CHOICE (log entry 11). -/

def pidSetup : Byte := 0x2D#8
def pidOut : Byte := 0xE1#8
def pidIn : Byte := 0x69#8
def noPid : Byte := 0x00#8

/-- The PIDs of the packets that follow a token (R105). -/
def pidData0 : Byte := 0xC3#8
def pidData1 : Byte := 0x4B#8
def pidAck : Byte := 0xD2#8
def pidNak : Byte := 0x5A#8
def pidStall : Byte := 0x1E#8

/-- The PIDs of R105 that start no transaction: data packets and handshakes. -/
def followingPids : List Byte := [pidData0, pidData1, pidAck, pidNak, pidStall]

/-- The address and endpoint number of a token, and the bytes after them. -/
def decodeToken : List Byte → Except DecodeError (BitVec 7 × BitVec 4 × List Byte)
  | a :: e :: data =>
      if 128 ≤ a.toNat then .error (.addressRange a)
      else if 16 ≤ e.toNat then .error (.endpointRange e)
      else .ok (a.setWidth 7, e.setWidth 4, data)
  | _ => .error .truncatedToken

/-- The transaction that a first byte and the bytes after it encode. -/
def decodeBus : List Byte → Except DecodeError Instr
  | [] => .error .emptyTransaction
  | pid :: rest =>
      if pid = noPid then
        if rest = [] then .ok .busReset else .error .trailingBytes
      else if pid = pidSetup then
        match decodeToken rest with
        | .error e => .error e
        | .ok (a, ep, data) =>
            if data.length = 8 then .ok (.busSetup a ep data)
            else .error (.setupDataLength data.length)
      else if pid = pidOut then
        match decodeToken rest with
        | .error e => .error e
        | .ok (a, ep, data) =>
            if data.length ≤ 1023 then .ok (.busOut a ep data)
            else .error (.outDataLength data.length)
      else if pid = pidIn then
        match decodeToken rest with
        | .error e => .error e
        | .ok (a, ep, data) => if data = [] then .ok (.busIn a ep) else .error .trailingBytes
      else if followingPids.contains pid then .error (.notAToken pid)
      else .error (.unknownPid pid)

/-- The operation an input of the schedule asks for. -/
def decodeInput : Input → Except DecodeError Instr
  | .enable => .ok .enable
  | .irq => .ok .handler
  | .bus bytes => decodeBus bytes

/-- The decoder. -/
def decode : Code → Except DecodeError Instr
  | .setup p => decodeSetup p
  | .istr w => decodeIstr w
  | .epr0 w => decodeEpr0 w
  | .input x => decodeInput x

/-! ### The encoder -/

/-- The 8 bytes of a SETUP packet (R91). -/
def setupBytes (bmRequestType bRequest : Byte) (wValue wIndex wLength : Half) : List Byte :=
  [bmRequestType, bRequest] ++ le16 wValue ++ le16 wIndex ++ le16 wLength

/-- The first three bytes of a token. -/
def tokenBytes (pid : Byte) (a : BitVec 7) (ep : BitVec 4) : List Byte :=
  [pid, a.setWidth 8, ep.setWidth 8]

/-- The ISTR word with CTR = 1 that reports a slot and a direction (R27, R28). -/
def ctrWord (epId : BitVec 4) (dirBit : BitVec 1) : Half :=
  0x8000#16 ||| (dirBit.setWidth 16 <<< 4) ||| epId.setWidth 16

/-- The code of an operation. An ENTRY row has no bit pattern (R111): only the two entry points that
an input calls have one here. -/
def encode : Instr → Option Code
  | .getStatus t v x l => some (.setup (setupBytes t 0x00#8 v x l))
  | .setAddress t v x l => some (.setup (setupBytes t 0x05#8 v x l))
  | .getDescriptorDevice t di x l => some (.setup (setupBytes t 0x06#8 (u16le di 0x01#8) x l))
  | .getDescriptorConfiguration t di x l =>
      some (.setup (setupBytes t 0x06#8 (u16le di 0x02#8) x l))
  | .getDescriptorReport t di x l => some (.setup (setupBytes t 0x06#8 (u16le di 0x22#8) x l))
  | .getDescriptorOther t dt di x l => some (.setup (setupBytes t 0x06#8 (u16le di dt) x l))
  | .setConfiguration t v x l => some (.setup (setupBytes t 0x09#8 v x l))
  | .otherRequest t r v x l => some (.setup (setupBytes t r v x l))
  | .evBusReset => some (.istr 0x0400#16)
  | .evCtrEp0 d => some (.istr (ctrWord 0#4 d))
  | .evCtrEpn n d => some (.istr (ctrWord n d))
  | .evEp0Setup => some (.epr0 0x8800#16)
  | .evEp0Out => some (.epr0 0x8000#16)
  | .evEp0Tx => some (.epr0 0x0080#16)
  | .busSetup a ep data => some (.input (.bus (tokenBytes pidSetup a ep ++ data)))
  | .busOut a ep data => some (.input (.bus (tokenBytes pidOut a ep ++ data)))
  | .busIn a ep => some (.input (.bus (tokenBytes pidIn a ep)))
  | .busReset => some (.input (.bus [noPid]))
  | .enable => some (.input .enable)
  | .handler => some (.input .irq)
  | .reset => none
  | .ep0Reset => none
  | .configReset _ => none
  | .ackInterrupt => none
  | .dispatch => none
  | .extHandler _ _ => none
  | .bmAllocate => none
  | .bmInit => none
  | .deviceDescriptorBytes => none
  | .composeConfig _ => none
  | .send _ _ => none
  | .stallTx => none

/-! ### Words of the opcode table

A row's word has 32 bits (SETUP32), 16 bits (ISTR16 or EPR0_16) or 8 bits (TOKEN). A 16-bit word is
read as an ISTR word where only CTR, RESET, DIR and EP_ID are set, and one of CTR and RESET is;
otherwise as an EPR[0] word. DESIGN CHOICE (log entry 12). -/

/-- Only fields an event of ISTR uses are set: bits 15, 10, 4 and 3:0. -/
def isIstrWord (w : Half) : Bool :=
  (w &&& 0x7BE0#16) == 0#16 && (w.getLsbD 15 || w.getLsbD 10)

/-- The SETUP packet whose first four bytes are the key, and whose last four are 0. -/
def setupOfKey (w : Nat) : List Byte :=
  [BitVec.ofNat 8 w, BitVec.ofNat 8 (w / 256), BitVec.ofNat 8 (w / 65536),
   BitVec.ofNat 8 (w / 16777216), 0#8, 0#8, 0#8, 0#8]

/-- The transaction whose first byte is given and whose other bytes are 0: address 0, endpoint 0, and
8 data bytes for a SETUP, none for an OUT. -/
def busOfPid (pid : Byte) : List Byte :=
  if pid = pidSetup then pid :: List.replicate 10 0#8
  else if pid = pidOut then [pid, 0#8, 0#8]
  else if pid = pidIn then [pid, 0#8, 0#8]
  else [pid]

/-- The code a word of the opcode table stands for. -/
def codeOfTableWord (nbits w : Nat) : Option Code :=
  if nbits = 32 then some (.setup (setupOfKey w))
  else if nbits = 16 then
    let h := BitVec.ofNat 16 w
    some (if isIstrWord h then .istr h else .epr0 h)
  else if nbits = 8 then some (.input (.bus (busOfPid (BitVec.ofNat 8 w))))
  else none

/-- The operation the decoder reads from a word of the opcode table. -/
def decodeTableWord (nbits w : Nat) : Option Instr :=
  match codeOfTableWord nbits w with
  | none => none
  | some c => (decode c).toOption

end Sys2Proof
end

