-- ==== Sys2Proof/Machine/State.lean ====
section
/-! DEFINITION. The state of the block as plain data (10_state.md R20, 46_bus_environment.md R270), its
faults and refusals, and its value at power-on (R46). -/

namespace Sys2Proof.Machine

/-- The operations that can raise F_UNMODELLED, by the name the fault records (60_exceptions.md
R291): the primitives of 00_scope.md R12 when they are run inside another operation record that
operation. -/
inductive Operation where
  | enable
  | extHandler
  | send
  | evEp0Setup
  | busSetup
  | busOut
  | busIn
  deriving DecidableEq, Repr, Inhabited

/-- The fault codes of 60_exceptions.md R291 with the information each records. The meanings raise a
fault by recording it in `State.fault` (R293), which is a next state; `step` answers `.fault` nowhere
(log entry 3). -/
inductive Fault where
  /-- Code 1, raised by DISPATCH for a slot number no declared endpoint has (R292). Safe: the spec's
  own fault. -/
  | dispatchUnregistered (n : BitVec 4) (dirBit : BitVec 1)
  /-- Code 2, raised by DISPATCH for a declared number whose reported direction is not declared
  (R294). Safe: the spec's own fault. -/
  | dispatchDirection (n : BitVec 4) (dirBit : BitVec 1)
  /-- Code 3, raised by any operation in a state the spec gives no meaning: a second Enable (R241),
  an EXT_HANDLER write outside its footprint (R155), a misaligned or out-of-range packet-memory
  access (R68). Safe: the spec's own fault. -/
  | unmodelled (op : Operation)
  deriving DecidableEq, Repr

/-- The code column of R291. -/
def Fault.code : Fault → Nat
  | .dispatchUnregistered _ _ => 1
  | .dispatchDirection _ _ => 2
  | .unmodelled _ => 3

/-- Why a step has no meaning. -/
inductive Refusal where
  /-- Raised by an arm of `exec` for an instruction that has no meaning yet. Safe. -/
  | notModelled (mnemonic : String)
  /-- Raised by `step`, ENABLE, BM_ALLOCATE, BM_INIT, RESET, CONFIG_RESET,
  DEVICE_DESCRIPTOR_BYTES and COMPOSE_CONFIG for a static configuration that fails a check of 60_exceptions.md R298, with every failing code: "A
  configuration that fails any of them has no run". Safe. -/
  | configRefused (codes : List ConfigError)
  /-- Raised by `step` for bus bytes that are no transaction of R105 and R267. Safe. -/
  | undecodable (e : DecodeError)
  /-- Raised by BUS_SETUP and BUS_OUT for data that breaks a host duty (R267 (1), (2); I7 "refuse:
  those runs are outside the model"). Safe. -/
  | hostDuty
  deriving DecidableEq, Repr

/-- The device's answer to a transaction (46_bus_environment.md R270). -/
inductive Response where
  | ack
  | nak
  | stall
  | data (bytes : List Byte)
  | noResponse
  deriving DecidableEq, Repr, Inhabited

/-- One entry of the history H (R263 to R266, R270). -/
inductive Observation where
  | setup (addr : BitVec 7) (ep : BitVec 4) (data : List Byte) (r : Response)
  | out (addr : BitVec 7) (ep : BitVec 4) (data : List Byte) (r : Response)
  | inToken (addr : BitVec 7) (ep : BitVec 4) (r : Response)
  | busReset
  deriving DecidableEq, Repr, Inhabited

/-- The value a compile-time function returned (log entry 14). -/
inductive OpResult where
  | none
  | bytes (bs : List Byte)
  | allocation (a : Allocation)
  deriving DecidableEq, Repr, Inhabited

/-- The state. The first group is the record of 10_state.md R20 and the history of R270; the second
holds the arguments of the step relation, which no step changes (00_scope.md R7, R8; log entry 1); the
third is the model's own (log entries 2, 5, 6, 7, 14). -/
structure State where
  cntr    : Half
  /-- The stored bits 14:8 of ISTR (R27); CTR, DIR and EP_ID are derived (R28). -/
  istr    : Half
  daddr   : Half
  btable  : Half
  epr     : Vector Half 8
  /-- Packet memory: the bytes written so far, in canonical form (log entry 4). -/
  pma     : List Host.Cell
  pending : Half
  irqEn   : Bool
  pullup  : Bool
  enabled : Bool
  fault   : Option Fault
  hist    : List Observation
  cfg     : StaticConfig
  params  : Params
  /-- The agent steps that come next, first first. -/
  inputs       : List Input
  /-- The environment's choices for the byte after an odd buffer write (R67). -/
  padDraws     : List Byte
  /-- The environment's choices of `EP_ID_CHOICE` (R28), as positions in the pending set. -/
  epIdDraws    : List Nat
  /-- The environment's choices of an `EXT_HANDLER` member (R155). -/
  handlerDraws : List (List HandlerWrite)
  /-- How many free values of Config have been used. -/
  drawCount    : Nat
  result       : OpResult
  deriving DecidableEq, Repr

/-- The power-on column of R46 (R320) for a configuration and its parameters. Packet memory is
unspecified: nothing is listed. -/
def State.powerOn (cfg : StaticConfig) (params : Params) : State where
  cntr := 0x0003#16
  istr := 0x0000#16
  daddr := 0x0000#16
  btable := 0x0000#16
  epr := Vector.replicate 8 0x0000#16
  pma := []
  pending := 0x0000#16
  irqEn := false
  pullup := !params.hasPullup
  enabled := false
  fault := none
  hist := []
  cfg := cfg
  params := params
  inputs := []
  padDraws := []
  epIdDraws := []
  handlerDraws := []
  drawCount := 0
  result := .none

/-- The machine right after power-on, with the example device EX1 (log entry 1). -/
def State.reset : State := State.powerOn ex1 ex1Params

end Sys2Proof.Machine
end

