-- ==== Sys2Proof/Machine/Flags.lean ====
section
/-! DEFINITION. The fields of the registers (10_state.md R25 to R36) and the flags computed from them
(R28, R45, 60_exceptions.md R296). `R.F` reads a field, `R.F <- v` writes it and leaves every other
field (00_scope.md R11). -/

namespace Sys2Proof.Machine

/-! ### Fields of a 16-bit word -/

/-- `v[hi:lo]` with `len = hi - lo + 1` (R10). -/
def field (w : Half) (lo len : Nat) : BitVec len := w.extractLsb' lo len

/-- The word with ones in the `len` bits from `lo`. -/
def fieldMask (lo len : Nat) : Half := (BitVec.allOnes len).setWidth 16 <<< lo

/-- The field write of R11. -/
def withField (w : Half) (lo : Nat) {len : Nat} (v : BitVec len) : Half :=
  (w &&& ~~~(fieldMask lo len)) ||| (v.setWidth 16 <<< lo)

/-! ### Status and type encodings -/

/-- The status encoding of R33. -/
def Stat.bits : Stat → BitVec 2
  | .disabled => 0b00#2
  | .stall => 0b01#2
  | .nak => 0b10#2
  | .valid => 0b11#2

/-- The status a two-bit field reads as (R33). -/
def Stat.ofBits (b : BitVec 2) : Stat :=
  if b = 0b00#2 then .disabled
  else if b = 0b01#2 then .stall
  else if b = 0b10#2 then .nak
  else .valid

/-- `EP_TYPE = CONTROL` (R34). -/
def epTypeControl : BitVec 2 := 0b01#2

/-- `epType(e.type)`: the EP_TYPE encoding of a declared endpoint (R34, 45_device_controller.md
R244). -/
def epTypeBits : TransferType → BitVec 2
  | .bulk => 0b00#2
  | .isochronous => 0b10#2
  | .interrupt => 0b11#2

/-! ### EPR[n] (R33) -/

def Epr.ctrRx (w : Half) : Bool := w.getLsbD 15
def Epr.dtogRx (w : Half) : Bool := w.getLsbD 14
def Epr.statRx (w : Half) : Stat := Stat.ofBits (field w 12 2)
def Epr.setupFlag (w : Half) : Bool := w.getLsbD 11
def Epr.epType (w : Half) : BitVec 2 := field w 9 2
def Epr.epKind (w : Half) : Bool := w.getLsbD 8
def Epr.ctrTx (w : Half) : Bool := w.getLsbD 7
def Epr.dtogTx (w : Half) : Bool := w.getLsbD 6
def Epr.statTx (w : Half) : Stat := Stat.ofBits (field w 4 2)
def Epr.ea (w : Half) : BitVec 4 := field w 0 4

def Epr.withCtrRx (w : Half) (v : Bool) : Half := withField w 15 (BitVec.ofBool v)
def Epr.withStatRx (w : Half) (v : Stat) : Half := withField w 12 (Stat.bits v)
def Epr.withSetup (w : Half) (v : Bool) : Half := withField w 11 (BitVec.ofBool v)
def Epr.withEpType (w : Half) (v : BitVec 2) : Half := withField w 9 v
def Epr.withEpKind (w : Half) (v : Bool) : Half := withField w 8 (BitVec.ofBool v)
def Epr.withCtrTx (w : Half) (v : Bool) : Half := withField w 7 (BitVec.ofBool v)
def Epr.withStatTx (w : Half) (v : Stat) : Half := withField w 4 (Stat.bits v)
def Epr.withEa (w : Half) (v : BitVec 4) : Half := withField w 0 v

/-- What the peripheral makes of a 16-bit write to EPR[n], by the "hardware write kind" column of R33:
bits 15 and 7 are rc_w0, bits 14:12 and 6:4 toggle where a 1 is written, bit 11 is read-only, the
others take the value. Given for reference (R11, D39): the block's rules write fields. -/
def Epr.hwWrite (old w : Half) : Half :=
  (old &&& w &&& 0x8080#16) ||| ((old ^^^ w) &&& 0x7070#16) ||| (old &&& 0x0800#16)
    ||| (w &&& 0x070F#16)

/-- The word the Register Access Layer writes so that EPR[n] becomes `new`, as far as the write kinds
allow (R33). -/
def Epr.hwWordFor (old new : Half) : Half :=
  (new &&& 0x8080#16) ||| ((old ^^^ new) &&& 0x7070#16) ||| (new &&& 0x070F#16)

/-! ### CNTR (R25) -/

def Cntr.ctrm (w : Half) : Bool := w.getLsbD 15
def Cntr.pmaovrm (w : Half) : Bool := w.getLsbD 14
def Cntr.errm (w : Half) : Bool := w.getLsbD 13
def Cntr.wkupm (w : Half) : Bool := w.getLsbD 12
def Cntr.suspm (w : Half) : Bool := w.getLsbD 11
def Cntr.resetm (w : Half) : Bool := w.getLsbD 10
def Cntr.sofm (w : Half) : Bool := w.getLsbD 9
def Cntr.esofm (w : Half) : Bool := w.getLsbD 8
def Cntr.resume (w : Half) : Bool := w.getLsbD 4
def Cntr.fsusp (w : Half) : Bool := w.getLsbD 3
def Cntr.lpMode (w : Half) : Bool := w.getLsbD 2
def Cntr.pdwn (w : Half) : Bool := w.getLsbD 1
def Cntr.fres (w : Half) : Bool := w.getLsbD 0

/-! ### DADDR (R30) -/

def Daddr.ef (w : Half) : Bool := w.getLsbD 7
def Daddr.add (w : Half) : BitVec 7 := field w 0 7

/-- `0x0080 | zext_16(a)`: EF = 1 and the address (43_control_transfer.md R186). -/
def Daddr.enabledAt (a : BitVec 7) : Half := 0x0080#16 ||| a.setWidth 16

/-! ### ISTR (R27 to R29) -/

/-- The stored, rc_w0 bits 14:8. -/
def Istr.storedMask : Half := 0x7F00#16

/-- A write to ISTR: every stored bit is rc_w0, so a 0 clears it and a 1 leaves it; the derived bits
are not stored (R27, R29). -/
def Istr.write (stored w : Half) : Half := stored &&& w &&& Istr.storedMask

/-- `ISTR.RESET`, bit 10. -/
def Istr.resetFlag (w : Half) : Bool := w.getLsbD 10

/-- `ISTR.RESET <- 1` (46_bus_environment.md R266). -/
def Istr.withReset (w : Half) : Half := withField w 10 1#1

/-- `ISTR.CTR`, bit 15 of the read view. -/
def Istr.ctr (w : Half) : Bool := w.getLsbD 15

/-- `ISTR.DIR`, bit 4 of the read view. -/
def Istr.dir (w : Half) : BitVec 1 := field w 4 1

/-- `ISTR.EP_ID`, bits 3:0 of the read view. -/
def Istr.epId (w : Half) : BitVec 4 := field w 0 4

/-! ### The slots -/

/-- The slots of the register map in rising order (R24). -/
def allSlots : List (Fin 8) := [0, 1, 2, 3, 4, 5, 6, 7]

/-- Slot `n` exists: n < NUM_EP_SLOTS (R33). -/
def hasSlot (cfg : StaticConfig) (n : Fin 8) : Bool := decide (n.val < cfg.numEpSlots)

/-- `EPR[n]`. The place of a slot that does not exist is read by nothing (log entry 18). -/
def State.eprAt (s : State) (n : Fin 8) : Half := s.epr.get n

/-- `EPR[n] <- w`. -/
def State.setEpr (s : State) (n : Fin 8) (w : Half) : State :=
  { s with epr := s.epr.set n w }

/-- A completion flag of the slot is set (R28, R35). -/
def Epr.completion (w : Half) : Bool := Epr.ctrRx w || Epr.ctrTx w

/-- `pendingSet(s)` of R28, in rising order. -/
def State.pendingSet (s : State) : List (Fin 8) :=
  allSlots.filter (fun n => hasSlot s.cfg n && Epr.completion (s.eprAt n))

/-- The draw that answers the next `EP_ID_CHOICE`: the environment's, or a free value once those are
used up (log entry 5). -/
def State.epIdDraw (s : State) : Nat :=
  match s.epIdDraws with
  | k :: _ => k
  | [] => Config.epIdPick s.drawCount

/-- `EP_ID_CHOICE(pendingSet(s))` (R28): a draw from a set of two or more, the member of a set of one,
0 of the empty set. -/
def State.epIdChoice (s : State) : Fin 8 :=
  match s.pendingSet with
  | [] => 0
  | [n] => n
  | m :: ms => (m :: ms).getD (s.epIdDraw % (m :: ms).length) 0

/-- `ISTR.CTR` (R28). -/
def State.istrCtr (s : State) : Bool := !s.pendingSet.isEmpty

/-- `ISTR.EP_ID` (R28). -/
def State.istrEpId (s : State) : BitVec 4 := BitVec.ofNat 4 s.epIdChoice.val

/-- `ISTR.DIR` (R28): 1 where the reported slot has a receive completion, 0 where nothing is
pending. -/
def State.istrDir (s : State) : BitVec 1 :=
  if s.istrCtr then BitVec.ofBool (Epr.ctrRx (s.eprAt s.epIdChoice)) else 0#1

/-- The read view of ISTR: the stored bits with CTR, DIR and EP_ID (R27, R28). -/
def State.istrView (s : State) : Half :=
  (s.istr &&& Istr.storedMask) |||
    (if s.istrCtr then
      0x8000#16 ||| (s.istrDir.setWidth 16 <<< 4) ||| s.istrEpId.setWidth 16
     else 0#16)

/-! ### Flags of the whole machine -/

/-- The pull-up line: constantly asserted where there is none (R41). -/
def State.pullupLine (s : State) : Bool := if s.params.hasPullup then s.pullup else true

/-- `attached(s)` (46_bus_environment.md R261). -/
def State.attached (s : State) : Bool :=
  s.enabled && s.pullupLine && !Cntr.pdwn s.cntr && !Cntr.fres s.cntr

/-- `line(s)`, the level of the interrupt line (60_exceptions.md R296). -/
def State.line (s : State) : Bool :=
  (Cntr.ctrm s.cntr && s.istrCtr) || (Cntr.resetm s.cntr && Istr.resetFlag s.istr)

/-- When a `Handler` step is enabled (45_device_controller.md R247). -/
def State.handlerEnabled (s : State) : Bool :=
  s.enabled && s.irqEn && s.fault.isNone && s.line

/-- The states of the Control Transfer State Machine (R23). -/
inductive Phase where
  | idle
  | setupReceived
  | statusStagePending
  deriving DecidableEq, Repr, Inhabited

/-- `phase(s)` (R23), for observation only: no operation reads it. -/
def State.phase (s : State) : Phase :=
  if Epr.ctrRx (s.eprAt 0) && Epr.setupFlag (s.eprAt 0) then .setupReceived
  else if Epr.statTx (s.eprAt 0) = .valid ∨ s.pending ≠ 0#16 then .statusStagePending
  else .idle

/-! ### Reads of the register space (R24, R61) -/

/-- The offset of a register from USB_BASE (R24). -/
def Reg.offset : Reg → Nat
  | .epr n => 4 * n.val
  | .cntr => 0x40
  | .istr => 0x44
  | .fnr => 0x48
  | .daddr => 0x4C
  | .btable => 0x50

/-- The bus address of a register (R24, R8). -/
def State.regAddr (s : State) (r : Reg) : BitVec 32 := s.params.usbBase + BitVec.ofNat 32 (Reg.offset r)

/-- The value a register reads as; reserved bits read 0 (R24 to R33). A read has no side effect (R70).
FNR is not held: it reads as a free value (R32, log entry 9). -/
def State.readReg (s : State) : Reg → Half
  | .epr n => s.eprAt n
  | .cntr => s.cntr &&& 0xFF1F#16
  | .istr => s.istrView
  | .fnr => Config.frameNumber s.drawCount
  | .daddr => s.daddr &&& 0x00FF#16
  | .btable => s.btable &&& 0xFFF8#16

end Sys2Proof.Machine
end

