-- ==== Sys2Proof/Machine/Ops.lean ====
section
/-! DEFINITION. The shared operations: packet memory (00_scope.md R12, 20_memory.md R67, R68), the
environment's draws, raising a fault (60_exceptions.md R293), and the field writes that several
operations make. -/

namespace Sys2Proof.Machine

/-! ### How an operation ends -/

/-- Why an operation was left before its end: a fault was raised, with the state it leaves (R293), or
the run has no meaning. -/
inductive Stop where
  | raised (s : State)
  | refused (r : Refusal)
  deriving DecidableEq, Repr

/-- A value computed by an operation, or the reason it was left. -/
abbrev Flow (α : Type) := Except Stop α

/-- The rest of an operation, run where the part before it was not left (R293: a fault "abandons the
rest of the operation"). -/
def Flow.andThen {α β : Type} (x : Flow α) (f : α → Flow β) : Flow β :=
  match x with
  | .ok a => f a
  | .error e => .error e

/-- `fault <- some (code, info)`: a fault is set once and never cleared (10_state.md R42, R293). -/
def State.recordFault (f : Fault) (s : State) : State :=
  match s.fault with
  | none => { s with fault := some f }
  | some _ => s

/-- `raise Fault(code, info)` (R293): the fault is recorded, the rest of the operation is abandoned,
and what the operation did before stays. -/
def raise {α : Type} (f : Fault) (s : State) : Flow α := .error (.raised (s.recordFault f))

/-- `refuse Config(code)` (R13, R298), with every failing code. -/
def refuseConfig {α : Type} (codes : List ConfigError) : Flow α :=
  .error (.refused (.configRefused codes))

/-- The outcome of an operation run as a step. A raised fault is a next state, with the fault in it
(R293, log entry 3). -/
def Flow.outcome : Flow State → Host.Outcome State Fault Refusal
  | .ok s => .next s
  | .error (.raised s) => .next s
  | .error (.refused r) => .refused r

/-! ### Packet memory

A list of (offset, byte) pairs, offsets rising. An offset that is not listed has been written by
nothing since power-on, and its byte is a free value (R37, log entry 4). -/

/-- The canonical form of a packet memory of `size` bytes: offsets strictly rising and inside it. -/
def Memory.wf (size : Nat) : List Host.Cell → Bool
  | [] => true
  | [c] => decide (c.1 < size)
  | c :: d :: m => decide (c.1 < d.1) && Memory.wf size (d :: m)

/-- Packet memory, of PMA_SIZE bytes (R8, R37), is in canonical form. -/
abbrev State.Canonical (s : State) : Prop := Memory.wf s.cfg.pmaSize s.pma = true

/-- The byte listed at an offset. -/
def Memory.lookup : List Host.Cell → Nat → Option Byte
  | [], _ => none
  | c :: m, a => if c.1 = a then some c.2 else Memory.lookup m a

/-- The memory with the byte at one offset replaced. -/
def Memory.write : List Host.Cell → Nat → Byte → List Host.Cell
  | [], a, b => [(a, b)]
  | c :: m, a, b =>
      if a < c.1 then (a, b) :: c :: m
      else if a = c.1 then (a, b) :: m
      else c :: Memory.write m a b

/-- The memory with consecutive bytes replaced. -/
def Memory.writeBytes : List Host.Cell → Nat → List Byte → List Host.Cell
  | m, _, [] => m
  | m, a, b :: bs => Memory.writeBytes (Memory.write m a b) (a + 1) bs

/-- What an offset that nothing has written reads as: the power-on content, any value (R37). -/
def Memory.unlisted (a : Nat) : Byte := Config.powerOnByte a

/-- One byte of packet memory. A read has no side effect (R70). -/
def State.readByte (s : State) (a : Nat) : Byte := (Memory.lookup s.pma a).getD (Memory.unlisted a)

/-- The `n` bytes from an offset. -/
def State.readBytes (s : State) : Nat → Nat → List Byte
  | _, 0 => []
  | a, n + 1 => s.readByte a :: s.readBytes (a + 1) n

/-- The halfword at an offset, low byte first (R64, R65). -/
def State.readHalf (s : State) (a : Nat) : Half := u16le (s.readByte a) (s.readByte (a + 1))

/-- The state with consecutive bytes of packet memory replaced. -/
def State.writeBytes (s : State) (a : Nat) (bs : List Byte) : State :=
  { s with pma := Memory.writeBytes s.pma a bs }

/-- The state with a halfword of packet memory replaced, low byte first (R12, R64). -/
def State.writeHalf (s : State) (a : Nat) (v : Half) : State := s.writeBytes a (le16 v)

/-- `n` bytes from an even offset lie in packet memory; no bytes always do (R12, R68). -/
def State.accessOk (s : State) (a n : Nat) : Bool :=
  n == 0 || (a % 2 == 0 && decide (a + n ≤ s.cfg.pmaSize))

/-- `MemRead(off, n)` of a buffer (R12); a misaligned or out-of-range one faults (R68). -/
def memRead (op : Operation) (a n : Nat) (s : State) : Flow (List Byte) :=
  if s.accessOk a n then .ok (s.readBytes a n) else raise (.unmodelled op) s

/-- `MemRead16(off)` (R12, R68). -/
def memRead16 (op : Operation) (a : Nat) (s : State) : Flow Half :=
  if s.accessOk a 2 then .ok (s.readHalf a) else raise (.unmodelled op) s

/-- `MemWrite16(off, v)` (R12, R68). -/
def memWrite16 (op : Operation) (a : Nat) (v : Half) (s : State) : Flow State :=
  if s.accessOk a 2 then .ok (s.writeHalf a v) else raise (.unmodelled op) s

/-- The byte the environment draws for the offset after an odd buffer write, and the state with that
draw used up (R67, log entry 7). -/
def State.takePad (s : State) : Byte × State :=
  match s.padDraws with
  | b :: bs => (b, { s with padDraws := bs })
  | [] => (Config.padByte s.drawCount, { s with drawCount := s.drawCount + 1 })

/-- The bytes of a buffer write that lies in packet memory: exactly the list, and after a list of odd
length one byte of any value, where packet memory has one there (R67). -/
def State.writeBuffer (s : State) (a : Nat) (bs : List Byte) : State :=
  if bs.length % 2 = 0 ∨ s.cfg.pmaSize ≤ a + bs.length then s.writeBytes a bs
  else (s.writeBytes a bs).takePad.2.writeBytes (a + bs.length) [(s.writeBytes a bs).takePad.1]

/-- `MemWrite(off, bytes)` to a buffer (R12, R67); a misaligned or out-of-range one faults and writes
nothing (R68). -/
def memWrite (op : Operation) (a : Nat) (bs : List Byte) (s : State) : Flow State :=
  if s.accessOk a bs.length then .ok (s.writeBuffer a bs) else raise (.unmodelled op) s

/-! ### The other draws -/

/-- The state after DISPATCH has read EP_ID: a draw that had a choice to make is used up (R28, log
entry 5). -/
def State.takeEpId (s : State) : State :=
  match s.pendingSet with
  | [] => s
  | [_] => s
  | _ :: _ :: _ =>
    match s.epIdDraws with
    | _ :: ks => { s with epIdDraws := ks }
    | [] => { s with drawCount := s.drawCount + 1 }

/-! ### Register writes -/

/-- `EPR[n]` changed by a function of its old value. -/
def State.modifyEpr (s : State) (n : Fin 8) (f : Half → Half) : State := s.setEpr n (f (s.eprAt n))

/-- `stall_tx()` (43_control_transfer.md R172). -/
def State.stallTx (s : State) : State := s.modifyEpr 0 (fun w => Epr.withStatTx w .stall)

/-- `EPR[0].STAT_RX <- VALID`, the re-arm of R174, R185, R186. -/
def State.rearmRx (s : State) : State := s.modifyEpr 0 (fun w => Epr.withStatRx w .valid)

/-- `EPR[0].CTR_RX <- 0`. -/
def State.clearCtrRx0 (s : State) : State := s.modifyEpr 0 (fun w => Epr.withCtrRx w false)

/-- `EPR[0].CTR_TX <- 0`. -/
def State.clearCtrTx0 (s : State) : State := s.modifyEpr 0 (fun w => Epr.withCtrTx w false)

/-- `ISTR <- v` (R29). -/
def State.writeIstr (s : State) (v : Half) : State := { s with istr := Istr.write s.istr v }

/-- `H <- H ++ [o]` (R270). -/
def State.observe (s : State) (o : Observation) : State := { s with hist := s.hist ++ [o] }

end Sys2Proof.Machine
end

