-- ==== Sys2Proof/Machine/Operands.lean ====
section
/-! DEFINITION. The operands the operations name: entries of the buffer-descriptor table (10_state.md
R38, R39), the slot a token reaches (46_bus_environment.md R261, R262), the registered set (42_dispatch.md
R150) and the direction of a reported completion (R156). -/

namespace Sys2Proof.Machine

/-! ### Buffer-descriptor entries (R38) -/

/-- The table's offset: BTABLE[15:3] << 3 (R31, R38). -/
def State.tableBase (s : State) : Nat := (s.btable &&& 0xFFF8#16).toNat

/-- `bdt(n) = BTABLE + 8n` (R38). -/
def State.bdt (s : State) (n : Nat) : Nat := s.tableBase + 8 * n

/-- `ADDR_TX(n)`. -/
def addrTx (op : Operation) (n : Nat) (s : State) : Flow Nat :=
  Flow.andThen (memRead16 op (s.bdt n) s) fun v => .ok v.toNat

/-- `COUNT_TX(n)[9:0]`. -/
def countTx (op : Operation) (n : Nat) (s : State) : Flow Nat :=
  Flow.andThen (memRead16 op (s.bdt n + 2) s) fun v => .ok (field v 0 10).toNat

/-- `ADDR_RX(n)`. -/
def addrRx (op : Operation) (n : Nat) (s : State) : Flow Nat :=
  Flow.andThen (memRead16 op (s.bdt n + 4) s) fun v => .ok v.toNat

/-- The capacity that the size field of a COUNT_RX value gives (R39): BL_SIZE is bit 15, NUM_BLOCK
bits 14:10. -/
def rxCapOf (v : Half) : Nat :=
  if v.getLsbD 15 then 32 * ((field v 10 5).toNat + 1) else 2 * (field v 10 5).toNat

/-- `rxCap(n)` (R39). -/
def rxCap (op : Operation) (n : Nat) (s : State) : Flow Nat :=
  Flow.andThen (memRead16 op (s.bdt n + 6) s) fun v => .ok (rxCapOf v)

/-- `COUNT_RX(n)[9:0] <- k`: the size field stays (R39). -/
def setCountRx (op : Operation) (n : Nat) (k : BitVec 10) (s : State) : Flow State :=
  Flow.andThen (memRead16 op (s.bdt n + 6) s) fun v =>
    memWrite16 op (s.bdt n + 6) (withField v 0 k) s

/-- `COUNT_TX(n) <- k` with the reserved bits 15:10 zero (R38). -/
def setCountTx (op : Operation) (n : Nat) (k : BitVec 10) (s : State) : Flow State :=
  memWrite16 op (s.bdt n + 2) (k.setWidth 16) s

/-! ### Tokens -/

/-- A token with this address is for this device (R261). -/
def State.forThisDevice (s : State) (a : BitVec 7) : Bool :=
  s.attached && Daddr.ef s.daddr && (a == Daddr.add s.daddr)

/-- The half of a slot that a transaction of a direction uses: In transmits, Out receives (R16). -/
def halfStat (d : Dir) (w : Half) : Stat :=
  match d with
  | .dirIn => Epr.statTx w
  | .dirOut => Epr.statRx w

/-- A slot answers an endpoint number in a half (R262). -/
def State.answers (s : State) (ep : BitVec 4) (d : Dir) (n : Fin 8) : Bool :=
  hasSlot s.cfg n && Epr.ea (s.eprAt n) == ep && halfStat d (s.eprAt n) != .disabled

/-- `slot(ep, h)`: the least slot that answers the endpoint number in that half (R262). -/
def State.slotFor (s : State) (ep : BitVec 4) (d : Dir) : Option (Fin 8) :=
  allSlots.find? (s.answers ep d)

/-! ### The registered set (R150) -/

/-- Every endpoint that some configuration declares, in declaration order (R131, R150). -/
def declaredEndpoints (cfg : StaticConfig) : List Endpoint :=
  cfg.configs.flatMap Configuration.endpoints

/-- `(n, d) ∈ REG` (R150). -/
def registered (cfg : StaticConfig) (n : BitVec 4) (d : Dir) : Bool :=
  n == 0#4 || (declaredEndpoints cfg).any (fun e => e.number == n && e.dir == d)

/-- `n ∈ REGNUM` (R150). -/
def registeredNumber (cfg : StaticConfig) (n : BitVec 4) : Bool :=
  registered cfg n .dirIn || registered cfg n .dirOut

/-- The direction a reported completion is dispatched as: DIR = 1 is Out (R152, R156). -/
def dirOfBit (dirBit : BitVec 1) : Dir := if dirBit = 1#1 then .dirOut else .dirIn

/-- The slot of a number: slot number equals endpoint number, below NUM_EP_SLOTS (R16). -/
def slotOfNumber (cfg : StaticConfig) (n : BitVec 4) : Option (Fin 8) :=
  if h : n.toNat < cfg.numEpSlots then
    some ⟨n.toNat, Nat.lt_of_lt_of_le h (Nat.succ_le_of_lt cfg.sizes.lastSlot.isLt)⟩
  else none

end Sys2Proof.Machine
end

