-- ==== Sys2Proof/Machine/Composer.lean ====
section
/-! DEFINITION. The Descriptor Composer (44_descriptor_composer.md): pure functions of the static
configuration (R210, R218). -/

namespace Sys2Proof.Machine

/-- A count in a one-byte field (R221). -/
def countByte (n : Nat) : Byte := BitVec.ofNat 8 n

/-- DeviceDescriptorBytes (R211): the 18 bytes of the layout of 30_encoding.md R98. -/
def deviceDescriptor (cfg : StaticConfig) : List Byte :=
  [0x12#8, 0x01#8] ++ le16 cfg.bcdUSB ++
  [cfg.devClass, cfg.devSubClass, cfg.devProtocol, cfg.mps0] ++
  le16 cfg.idVendor ++ le16 cfg.idProduct ++ le16 cfg.bcdDevice ++
  [0x00#8, 0x00#8, 0x00#8] ++ [countByte cfg.configs.length]

/-- `typeCode` (R102). -/
def typeCode : TransferType → Byte
  | .isochronous => 0x01#8
  | .bulk => 0x02#8
  | .interrupt => 0x03#8

/-- bEndpointAddress (R102). -/
def endpointAddress (e : Endpoint) : Byte :=
  e.number.setWidth 8 ||| (match e.dir with | .dirIn => 0x80#8 | .dirOut => 0x00#8)

/-- `epRecord(e)` (R215). -/
def epRecord (e : Endpoint) : List Byte :=
  [0x07#8, 0x05#8, endpointAddress e, typeCode e.epType] ++ le16 e.mps ++ [e.bInterval]

/-- `ifaceRecord(i)` (R214). -/
def ifaceRecord (i : Interface) : List Byte :=
  [0x09#8, 0x04#8, i.bInterfaceNumber, i.bAlternateSetting, countByte i.endpoints.length,
   i.ifClass, i.ifSubClass, i.ifProtocol, 0x00#8]

/-- The records of one interface: its record, its class blob, its endpoints (R212, R217). -/
def ifaceBytes (i : Interface) : List Byte :=
  ifaceRecord i ++ i.classBlob ++ i.endpoints.flatMap epRecord

/-- `body(c)` (R212). -/
def configBody (c : Configuration) : List Byte := c.interfaces.flatMap ifaceBytes

/-- `total(c)` (R212, R216). -/
def configTotal (c : Configuration) : Nat := 9 + (configBody c).length

/-- `headerRecord(c, t)` (R213). -/
def headerRecord (c : Configuration) (t : Nat) : List Byte :=
  [0x09#8, 0x02#8] ++ le16 (BitVec.ofNat 16 t) ++
  [countByte c.interfaces.length, c.bConfigurationValue, 0x00#8, c.bmAttributes, c.bMaxPower]

/-- `ComposeConfig(c)` (R212). -/
def composeConfig (c : Configuration) : List Byte := headerRecord c (configTotal c) ++ configBody c

/-- `reportSource(Config)` (R220): the report blob of the first configuration that has one. -/
def reportSource (cfg : StaticConfig) : Option (List Byte) :=
  cfg.configs.findSome? Configuration.reportBlob

end Sys2Proof.Machine
end

