-- ==== Sys2Proof/Machine/BufferManager.lean ====
section
/-! DEFINITION. The Endpoint Buffer Manager (41_buffer_manager.md), and the configuration checks of
60_exceptions.md R298 that stand before `Enable`. -/

namespace Sys2Proof.Machine

/-! ### Sizes (R132) -/

/-- `even(m)`. -/
def evenSize (m : Nat) : Nat := m + m % 2

/-- `rxSize(m)`. -/
def rxSize (m : Nat) : Nat := if m ≤ 62 then evenSize m else 32 * ((m + 31) / 32)

/-- `rxCountInit(m)`. -/
def rxCountInit (m : Nat) : Half :=
  if m ≤ 62 then BitVec.ofNat 16 (evenSize m / 2) <<< 10
  else 0x8000#16 ||| (BitVec.ofNat 16 (rxSize m / 32 - 1) <<< 10)

/-! ### BM_ALLOCATE (R131) -/

/-- `maxSlot`. -/
def maxSlot (cfg : StaticConfig) : Nat :=
  (declaredEndpoints cfg).foldr (fun e m => max e.number.toNat m) 0

/-- A slot without a buffer. -/
def SlotAlloc.empty : SlotAlloc where
  addrTx := 0
  txCap := 0
  addrRx := 0
  countRxInit := 0#16

/-- The transmit buffer of a slot is placed at an offset. -/
def placeTx (off m : Nat) (a : SlotAlloc) : SlotAlloc := { a with addrTx := off, txCap := evenSize m }

/-- The receive buffer of a slot is placed at an offset. -/
def placeRx (off m : Nat) (a : SlotAlloc) : SlotAlloc :=
  { a with addrRx := off, countRxInit := rxCountInit m }

/-- The size of a declared endpoint's buffer. -/
def bufferSize (e : Endpoint) : Nat :=
  match e.dir with
  | .dirIn => evenSize e.mps.toNat
  | .dirOut => rxSize e.mps.toNat

/-- The buffer of a declared endpoint is placed at an offset. -/
def placeEndpoint (off : Nat) (e : Endpoint) (entries : List SlotAlloc) : List SlotAlloc :=
  match e.dir with
  | .dirIn => entries.modify e.number.toNat (placeTx off e.mps.toNat)
  | .dirOut => entries.modify e.number.toNat (placeRx off e.mps.toNat)

/-- The loop over the declared endpoints: the entries and the offset after the last buffer. -/
def placeEndpoints : List Endpoint → Nat → List SlotAlloc → List SlotAlloc × Nat
  | [], off, entries => (entries, off)
  | e :: es, off, entries => placeEndpoints es (off + bufferSize e) (placeEndpoint off e entries)

/-- The first offset after the table. -/
def afterTable (cfg : StaticConfig) : Nat := bdtBase.toNat + 8 * (maxSlot cfg + 1)

/-- The entries with endpoint 0's two buffers placed. -/
def ep0Entries (cfg : StaticConfig) : List SlotAlloc :=
  (List.replicate (maxSlot cfg + 1) SlotAlloc.empty).modify 0 fun a =>
    placeRx (afterTable cfg + evenSize cfg.mps0.toNat) cfg.mps0.toNat
      (placeTx (afterTable cfg) cfg.mps0.toNat a)

/-- The allocation of R131, before its refusals. -/
def allocation (cfg : StaticConfig) : Allocation :=
  let r := placeEndpoints (declaredEndpoints cfg)
    (afterTable cfg + evenSize cfg.mps0.toNat + rxSize cfg.mps0.toNat) (ep0Entries cfg)
  { maxSlot := maxSlot cfg, entries := r.1, endOff := r.2 }

/-- The entry of a slot. -/
def slotAlloc (cfg : StaticConfig) (n : Nat) : SlotAlloc :=
  (allocation cfg).entries.getD n SlotAlloc.empty

/-! ### The checks (60_exceptions.md R298) -/

/-- `CFG_PMA_OVERFLOW`. -/
def pmaOverflows (cfg : StaticConfig) : Bool := decide (cfg.pmaSize < (allocation cfg).endOff)

/-- `CFG_SCRATCH_OVERFLOW` (R219). -/
def scratchOverflows (cfg : StaticConfig) : Bool :=
  cfg.configs.any fun c => decide (cfg.scratchCap < configTotal c)

/-- `CFG_RESPONSE_EXCEEDS_MPS0`: the device descriptor, a configuration descriptor or the report blob
does not fit one packet. -/
def responseExceedsMps0 (cfg : StaticConfig) : Bool :=
  decide (cfg.mps0.toNat < 18) ||
  (cfg.configs.any fun c => decide (cfg.mps0.toNat < configTotal c)) ||
  (match reportSource cfg with
   | some blob => decide (cfg.mps0.toNat < blob.length)
   | none => false)

/-- Two declared endpoints that may not stand together: the same (number, dir), or one number in both
directions with different types. -/
def endpointsClash (e f : Endpoint) : Bool :=
  e.number == f.number && (e.dir == f.dir || e.epType != f.epType)

/-- Some two endpoints of the list clash. -/
def anyClash : List Endpoint → Bool
  | [] => false
  | e :: es => es.any (endpointsClash e) || anyClash es

/-- `CFG_DUPLICATE_ENDPOINT`. -/
def duplicateEndpoint (cfg : StaticConfig) : Bool := anyClash (declaredEndpoints cfg)

/-- `CFG_ENDPOINT_NUMBER`. -/
def badEndpointNumber (cfg : StaticConfig) : Bool :=
  (declaredEndpoints cfg).any fun e => e.number.toNat == 0 || decide (cfg.numEpSlots ≤ e.number.toNat)

/-- The legal packet sizes of a declared endpoint (R132). -/
def mpsLegal (e : Endpoint) : Bool :=
  match e.epType with
  | .isochronous => decide (1 ≤ e.mps.toNat ∧ e.mps.toNat ≤ 1023)
  | .bulk => decide (1 ≤ e.mps.toNat ∧ e.mps.toNat ≤ 64)
  | .interrupt => decide (1 ≤ e.mps.toNat ∧ e.mps.toNat ≤ 64)

/-- The legal values of MPS0 (R132). -/
def mps0Legal (m : Nat) : Bool := m == 8 || m == 16 || m == 32 || m == 64

/-- `CFG_MPS_RANGE`. -/
def mpsOutOfRange (cfg : StaticConfig) : Bool :=
  !mps0Legal cfg.mps0.toNat || (declaredEndpoints cfg).any fun e => !mpsLegal e

/-- `CFG_FIELD_RANGE` (R221). -/
def fieldOutOfRange (cfg : StaticConfig) : Bool :=
  decide (255 < cfg.configs.length) ||
  cfg.configs.any fun c =>
    decide (255 < c.interfaces.length) ||
    c.interfaces.any fun i => decide (255 < i.endpoints.length)

/-- A code where its check fails. -/
def codeIf (b : Bool) (e : ConfigError) : List ConfigError := if b then [e] else []

/-- Every failing code of R298: "a model reports the set of them". -/
def configErrors (cfg : StaticConfig) : List ConfigError :=
  codeIf (pmaOverflows cfg) .pmaOverflow ++
  codeIf (scratchOverflows cfg) .scratchOverflow ++
  codeIf (responseExceedsMps0 cfg) .responseExceedsMps0 ++
  codeIf (duplicateEndpoint cfg) .duplicateEndpoint ++
  codeIf (badEndpointNumber cfg) .endpointNumber ++
  codeIf (mpsOutOfRange cfg) .mpsRange ++
  codeIf (fieldOutOfRange cfg) .fieldRange

/-- The configuration passes every check. -/
abbrev Accepted (cfg : StaticConfig) : Prop := configErrors cfg = []

/-- The refusals of BM_ALLOCATE itself (R131, R132). -/
def allocateErrors (cfg : StaticConfig) : List ConfigError :=
  codeIf (pmaOverflows cfg) .pmaOverflow ++ codeIf (mpsOutOfRange cfg) .mpsRange

/-- BM_ALLOCATE (R131). -/
def bmAllocate (cfg : StaticConfig) : Flow Allocation :=
  match allocateErrors cfg with
  | [] => .ok (allocation cfg)
  | c :: cs => refuseConfig (c :: cs)

/-! ### BM_INIT (R133) -/

/-- The four halfwords of one entry. -/
def State.writeEntry (s : State) (n : Nat) (a : SlotAlloc) : State :=
  (((s.writeHalf (bdtBase.toNat + 8 * n) (BitVec.ofNat 16 a.addrTx)).writeHalf
      (bdtBase.toNat + 8 * n + 2) 0x0000#16).writeHalf
      (bdtBase.toNat + 8 * n + 4) (BitVec.ofNat 16 a.addrRx)).writeHalf
      (bdtBase.toNat + 8 * n + 6) a.countRxInit

/-- The entries from slot `n` on. -/
def State.writeEntries (s : State) : Nat → List SlotAlloc → State
  | _, [] => s
  | n, a :: as => (s.writeEntry n a).writeEntries (n + 1) as

/-- BM_INIT (R133): the allocation is written into the buffer-descriptor table. -/
def bmInit (s : State) : Flow State :=
  Flow.andThen (bmAllocate s.cfg) fun a => .ok (s.writeEntries 0 a.entries)

/-! ### The operations -/

/-- BM_ALLOCATE: a compile-time function, whose result is kept in `result` (log entry 14). -/
def execBmAllocate (s : State) : Host.Outcome State Fault Refusal :=
  (Flow.andThen (bmAllocate s.cfg) fun a => .ok { s with result := .allocation a }).outcome

/-- BM_INIT. -/
def execBmInit (s : State) : Host.Outcome State Fault Refusal := (bmInit s).outcome

/-- The codes the device descriptor is refused with: its configuration count does not fit a byte (R211,
R221). -/
def descriptorErrors (cfg : StaticConfig) : List ConfigError :=
  codeIf (decide (255 < cfg.configs.length)) .fieldRange

/-- DEVICE_DESCRIPTOR_BYTES (44_descriptor_composer.md R211): a pure function, whose result is kept in
`result` (log entry 14); refused for a count that does not fit (log entry 20). -/
def execDeviceDescriptorBytes (s : State) : Host.Outcome State Fault Refusal :=
  match descriptorErrors s.cfg with
  | [] => .next { s with result := .bytes (deviceDescriptor s.cfg) }
  | e :: es => .refused (.configRefused (e :: es))

/-- The codes a composed configuration descriptor is refused with (R212). -/
def composeErrors (cfg : StaticConfig) (c : Configuration) : List ConfigError :=
  codeIf (decide (cfg.scratchCap < configTotal c)) .scratchOverflow ++
  codeIf (decide (cfg.mps0.toNat < configTotal c)) .responseExceedsMps0

/-- COMPOSE_CONFIG (R212): a pure function, whose result is kept in `result` (log entry 14). -/
def execComposeConfig (c : Configuration) (s : State) : Host.Outcome State Fault Refusal :=
  match composeErrors s.cfg c with
  | [] => .next { s with result := .bytes (composeConfig c) }
  | e :: es => .refused (.configRefused (e :: es))

end Sys2Proof.Machine
end

