-- ==== Sys2Proof/Machine/Control.lean ====
section
/-! DEFINITION. The Control Transfer State Machine on endpoint 0 (43_control_transfer.md): its two
primitives, the standard requests, and the endpoint-0 events. -/

namespace Sys2Proof.Machine

/-! ### Primitives -/

/-- `send(bytes, L)` (R171): the clamped response, COUNT_TX(0), then STAT_TX. -/
def send (bytes : List Byte) (wLength : Half) (s : State) : Flow State :=
  let n := min wLength.toNat bytes.length
  Flow.andThen (addrTx .send 0 s) fun a =>
  Flow.andThen (memWrite .send a (bytes.take n) s) fun s1 =>
  Flow.andThen (memWrite16 .send (bdtBase.toNat + 2) (BitVec.ofNat 16 n) s1) fun s2 =>
  .ok (s2.modifyEpr 0 (fun w => Epr.withStatTx w .valid))

/-! ### Standard requests -/

/-- GET_STATUS (R176). -/
def getStatus (wLength : Half) (s : State) : Flow State := send [0x00#8, 0x00#8] wLength s

/-- SET_ADDRESS (R177): DADDR is not written. -/
def setAddress (wValue wLength : Half) (s : State) : Flow State :=
  send [] wLength { s with pending := wValue }

/-- GET_DESCRIPTOR_DEVICE (R179). -/
def getDescriptorDevice (wLength : Half) (s : State) : Flow State :=
  send (deviceDescriptor s.cfg) wLength s

/-- GET_DESCRIPTOR_CONFIGURATION (R180). -/
def getDescriptorConfiguration (descIndex : Byte) (wLength : Half) (s : State) : Flow State :=
  match s.cfg.configs[descIndex.toNat]? with
  | some c => send (composeConfig c) wLength s
  | none => .ok s.stallTx

/-- GET_DESCRIPTOR_REPORT (R181). -/
def getDescriptorReport (wLength : Half) (s : State) : Flow State :=
  match reportSource s.cfg with
  | some blob => send blob wLength s
  | none => .ok s.stallTx

/-- SET_CONFIGURATION (R183). -/
def setConfiguration (wLength : Half) (s : State) : Flow State :=
  Flow.andThen (send [] wLength s) fun s1 =>
    .ok (if s1.params.setConfigFallthrough then s1.stallTx else s1)

/-- The request a SETUP packet selects, run (R174). -/
def runRequest (r : Request) (p : SetupPacket) (s : State) : Flow State :=
  match r with
  | .getStatus => getStatus p.wLength s
  | .setAddress => setAddress p.wValue p.wLength s
  | .getDescriptorDevice => getDescriptorDevice p.wLength s
  | .getDescriptorConfiguration => getDescriptorConfiguration p.descIndex p.wLength s
  | .getDescriptorReport => getDescriptorReport p.wLength s
  | .getDescriptorOther => .ok s.stallTx
  | .setConfiguration => setConfiguration p.wLength s
  | .otherRequest => .ok s.stallTx

/-! ### Endpoint-0 events -/

/-- `SetupStage()` (R174): the packet is read, CTR_RX cleared, the request run, receive re-armed. -/
def setupStage (s : State) : Flow State :=
  Flow.andThen (addrRx .evEp0Setup 0 s) fun a =>
  Flow.andThen (memRead .evEp0Setup a 8 s) fun p =>
  Flow.andThen (runRequest (decodeRequest (setupKey p)) (setupPacketOf p) s.clearCtrRx0) fun s1 =>
  .ok s1.rearmRx

/-- `OutStage()` (R185). -/
def outStage (s : State) : State := s.clearCtrRx0.rearmRx

/-- The address commit of R186, where an address is pending. -/
def State.commitAddress (s : State) : State :=
  if s.pending = 0#16 then s
  else { s with daddr := Daddr.enabledAt (field s.pending 0 7), pending := 0#16 }

/-- `TxStage()` (R186). -/
def txStage (s : State) : State := s.clearCtrTx0.commitAddress.rearmRx

/-- The receive side of `Ep0Handler()` (R173). -/
def ep0Receive (s : State) : Flow State :=
  if Epr.ctrRx (s.eprAt 0) then
    if Epr.setupFlag (s.eprAt 0) then setupStage s else .ok (outStage s)
  else .ok s

/-- `Ep0Handler()` (R173): the receive side, then the transmit side, each flag read live. -/
def ep0Handler (s : State) : Flow State :=
  Flow.andThen (ep0Receive s) fun s1 =>
    .ok (if Epr.ctrTx (s1.eprAt 0) then txStage s1 else s1)

/-! ### The operations -/

/-- GET_STATUS. -/
def execGetStatus (_bmRequestType : Byte) (_wValue _wIndex wLength : Half) (s : State) :
    Host.Outcome State Fault Refusal := (getStatus wLength s).outcome

/-- SET_ADDRESS. -/
def execSetAddress (_bmRequestType : Byte) (wValue _wIndex wLength : Half) (s : State) :
    Host.Outcome State Fault Refusal := (setAddress wValue wLength s).outcome

/-- GET_DESCRIPTOR_DEVICE. -/
def execGetDescriptorDevice (_bmRequestType _descIndex : Byte) (_wIndex wLength : Half) (s : State) :
    Host.Outcome State Fault Refusal := (getDescriptorDevice wLength s).outcome

/-- GET_DESCRIPTOR_CONFIGURATION. -/
def execGetDescriptorConfiguration (_bmRequestType descIndex : Byte) (_wIndex wLength : Half)
    (s : State) : Host.Outcome State Fault Refusal :=
  (getDescriptorConfiguration descIndex wLength s).outcome

/-- GET_DESCRIPTOR_REPORT. -/
def execGetDescriptorReport (_bmRequestType _descIndex : Byte) (_wIndex wLength : Half) (s : State) :
    Host.Outcome State Fault Refusal := (getDescriptorReport wLength s).outcome

/-- GET_DESCRIPTOR_OTHER (R182). -/
def execGetDescriptorOther (_bmRequestType _descType _descIndex : Byte) (_wIndex _wLength : Half)
    (s : State) : Host.Outcome State Fault Refusal := .next s.stallTx

/-- SET_CONFIGURATION. -/
def execSetConfiguration (_bmRequestType : Byte) (_wValue _wIndex wLength : Half) (s : State) :
    Host.Outcome State Fault Refusal := (setConfiguration wLength s).outcome

/-- OTHER_REQUEST (R184). -/
def execOtherRequest (_bmRequestType _bRequest : Byte) (_wValue _wIndex _wLength : Half) (s : State) :
    Host.Outcome State Fault Refusal := .next s.stallTx

/-- EV_CTR_EP0 (R173): `Ep0Handler()`, which reads the flags live and ignores DIR (R152). -/
def execEvCtrEp0 (_dirBit : BitVec 1) (s : State) : Host.Outcome State Fault Refusal :=
  (ep0Handler s).outcome

/-- EV_EP0_SETUP (R174). -/
def execEvEp0Setup (s : State) : Host.Outcome State Fault Refusal := (setupStage s).outcome

/-- EV_EP0_OUT (R185). -/
def execEvEp0Out (s : State) : Host.Outcome State Fault Refusal := .next (outStage s)

/-- EV_EP0_TX (R186). -/
def execEvEp0Tx (s : State) : Host.Outcome State Fault Refusal := .next (txStage s)

/-- SEND (R171). -/
def execSend (bytes : List Byte) (wLength : Half) (s : State) : Host.Outcome State Fault Refusal :=
  (send bytes wLength s).outcome

/-- STALL_TX (R172). -/
def execStallTx (s : State) : Host.Outcome State Fault Refusal := .next s.stallTx

end Sys2Proof.Machine
end

