-- ==== Sys2Proof/Machine/EndpointDispatch.lean ====
section
/-! DEFINITION. The Endpoint Dispatch Table (42_dispatch.md): DISPATCH, and the open handler of a
non-zero endpoint on its footprint. -/

namespace Sys2Proof.Machine

/-! ### EXT_HANDLER (R155) -/

/-- What `EXT_HANDLER(n, d)` may change: two fields of EPR[n], the count halfword at `countAt`, and
the `cap` bytes from `base` that lie in packet memory, whose size is `limit`. -/
structure Footprint where
  slot    : Fin 8
  dir     : Dir
  countAt : Nat
  base    : Nat
  cap     : Nat
  limit   : Nat
  deriving DecidableEq, Repr

/-- The footprint of a slot and a direction (R155). -/
def footprint (n : Fin 8) (d : Dir) (s : State) : Flow Footprint :=
  match d with
  | .dirIn =>
    Flow.andThen (addrTx .extHandler n.val s) fun a =>
    Flow.andThen (countTx .extHandler n.val s) fun _ =>
    .ok { slot := n, dir := d, countAt := s.bdt n.val + 2, base := a,
          cap := (slotAlloc s.cfg n.val).txCap, limit := s.cfg.pmaSize }
  | .dirOut =>
    Flow.andThen (addrRx .extHandler n.val s) fun a =>
    Flow.andThen (rxCap .extHandler n.val s) fun c =>
    .ok { slot := n, dir := d, countAt := s.bdt n.val + 6, base := a, cap := c,
          limit := s.cfg.pmaSize }

/-- The offsets of the footprint's buffer. -/
def Footprint.covers (fp : Footprint) (a : Nat) : Bool :=
  decide (fp.base ≤ a ∧ a < fp.base + fp.cap ∧ a < fp.limit)

/-- The write lies in the footprint.
R155 gives EXT_HANDLER as a relation on states and no form for its single writes. DESIGN CHOICE (log entry
6): the two fields of EPR[n] and the count are written by `ctr`, `stat` and `count` alone; a raw byte or
halfword at the count's offset, and a whole-register write of EPR[n], even one that changes only those
fields, are taken as outside the footprint. -/
def Footprint.admits (fp : Footprint) : HandlerWrite → Bool
  | .ctr _ => true
  | .stat _ => true
  | .count _ => true
  | .byte off _ => fp.covers off
  | .half off _ => off % 2 == 0 && fp.covers off && fp.covers (off + 1)
  | .reg _ _ => false

/-- The effect of one write of the footprint. -/
def handlerWrite (fp : Footprint) (w : HandlerWrite) (s : State) : State :=
  match w with
  | .ctr v =>
    match fp.dir with
    | .dirIn => s.modifyEpr fp.slot (fun r => Epr.withCtrTx r v)
    | .dirOut => s.modifyEpr fp.slot (fun r => Epr.withCtrRx r v)
  | .stat v =>
    match fp.dir with
    | .dirIn => s.modifyEpr fp.slot (fun r => Epr.withStatTx r v)
    | .dirOut => s.modifyEpr fp.slot (fun r => Epr.withStatRx r v)
  | .count c =>
    match fp.dir with
    | .dirIn => s.writeHalf fp.countAt (c.setWidth 16)
    | .dirOut => s.writeHalf fp.countAt (withField (s.readHalf fp.countAt) 0 c)
  | .byte off v => s.writeBytes off [v]
  | .half off v => s.writeHalf off v
  | .reg _ _ => s

/-- The writes of a handler in order; the first one outside the footprint faults (R155, R291). -/
def handlerWrites (fp : Footprint) : List HandlerWrite → State → Flow State
  | [], s => .ok s
  | w :: ws, s =>
    if fp.admits w then handlerWrites fp ws (handlerWrite fp w s)
    else raise (.unmodelled .extHandler) s

/-- The effect of those of some writes that lie in the footprint. -/
def admittedWrites (fp : Footprint) : List HandlerWrite → State → State
  | [], s => s
  | w :: ws, s => admittedWrites fp ws (if fp.admits w then handlerWrite fp w s else s)

/-- The member of the reference relation that a call takes: the environment's, or once those are used
up a free value, cut to the footprint (R155, log entry 6). -/
def extHandlerOn (fp : Footprint) (s : State) : Flow State :=
  match s.handlerDraws with
  | ws :: rest => handlerWrites fp ws { s with handlerDraws := rest }
  | [] =>
    .ok (admittedWrites fp (Config.handlerWrites s.drawCount) { s with drawCount := s.drawCount + 1 })

/-- `EXT_HANDLER(n, d)` (R155). A pair that is not in the table has no handler (R151, log entry 16). -/
def extHandler (n : BitVec 4) (d : Dir) (s : State) : Flow State :=
  if n = 0#4 ∨ registered s.cfg n d = false then raise (.unmodelled .extHandler) s
  else
    match slotOfNumber s.cfg n with
    | none => raise (.unmodelled .extHandler) s
    | some i => Flow.andThen (footprint i d s) fun fp => extHandlerOn fp s

/-! ### DISPATCH (R152) -/

/-- DISPATCH of a reported slot and direction. -/
def dispatchTo (n : BitVec 4) (dirBit : BitVec 1) (s : State) : Flow State :=
  if n = 0#4 then ep0Handler s
  else if registeredNumber s.cfg n = false then raise (.dispatchUnregistered n dirBit) s
  else if registered s.cfg n (dirOfBit dirBit) = false then raise (.dispatchDirection n dirBit) s
  else extHandler n (dirOfBit dirBit) s

/-- DISPATCH: EP_ID and DIR are read once, when it starts. -/
def dispatch (s : State) : Flow State := dispatchTo s.istrEpId s.istrDir s.takeEpId

/-! ### The operations -/

/-- EV_CTR_EPN (R152, R104): the dispatch of the slot and direction that the event word reports. -/
def execEvCtrEpn (epId : BitVec 4) (dirBit : BitVec 1) (s : State) :
    Host.Outcome State Fault Refusal := (dispatchTo epId dirBit s).outcome

/-- DISPATCH. -/
def execDispatch (s : State) : Host.Outcome State Fault Refusal := (dispatch s).outcome

/-- EXT_HANDLER. -/
def execExtHandler (n : BitVec 4) (d : Dir) (s : State) : Host.Outcome State Fault Refusal :=
  (extHandler n d s).outcome

end Sys2Proof.Machine
end

