-- ==== Sys2Proof/Machine/Controller.lean ====
section
/-! DEFINITION. The Device Controller (45_device_controller.md): `Enable`, `Reset` with the endpoint
resets, and `Handler`. -/

namespace Sys2Proof.Machine

/-! ### The endpoint resets -/

/-- EP0_RESET (R243): EPR[0] becomes 0x3220. -/
def ep0Reset (s : State) : State :=
  s.setEpr 0 (Epr.withStatTx (Epr.withStatRx (Epr.withEpType 0x0000#16 epTypeControl) .valid) .nak)

/-- What CONFIG_RESET writes to the slot of one declared endpoint (R244). -/
def endpointResetWord (e : Endpoint) (w : Half) : Half :=
  let w1 := Epr.withEpKind (Epr.withEpType (Epr.withEa w e.number) (epTypeBits e.epType)) false
  match e.dir with
  | .dirIn => Epr.withStatTx (Epr.withCtrTx w1 false) .nak
  | .dirOut => Epr.withStatRx (Epr.withCtrRx w1 false) .valid

/-- The reset of the endpoints of a list, in order. A number without a slot is refused with the code
of R298. -/
def endpointsReset : List Endpoint → State → Flow State
  | [], s => .ok s
  | e :: es, s =>
    match slotOfNumber s.cfg e.number with
    | some n => endpointsReset es (s.modifyEpr n (endpointResetWord e))
    | none => refuseConfig [.endpointNumber]

/-- CONFIG_RESET(c) (R244). -/
def configReset (c : Configuration) (s : State) : Flow State := endpointsReset c.endpoints s

/-- The reset of every declared configuration, in declaration order (R242). -/
def configsReset : List Configuration → State → Flow State
  | [], s => .ok s
  | c :: cs, s => Flow.andThen (configReset c s) (configsReset cs)

/-! ### Reset, Enable, Handler -/

/-- The register writes `Reset()` ends with (R242). -/
def State.readdress (s : State) : State :=
  { s with
    btable := bdtBase
    daddr := daddrDefault
    pending := if s.params.resetClearsPending then 0x0000#16 else s.pending }

/-- `Reset()` (R242). -/
def resetOp (s : State) : Flow State :=
  let s1 := ep0Reset { s.writeIstr 0x0000#16 with cntr := cntrBaseline }
  Flow.andThen (configsReset s.cfg.configs s1) fun s2 => .ok s2.readdress

/-- `PeripheralClockEnable()`: an external collaborator without modelled state (R241, R306). -/
def peripheralClockEnable (s : State) : State := s

/-- `AckInterrupt()`: no modelled state changes (R246). -/
def ackInterrupt (s : State) : State := s

/-- The register writes of `Enable()` after BM_INIT (R241). -/
def State.startUp (s : State) : State :=
  { s.writeIstr 0x0000#16 with
    cntr := cntrBaseline
    pullup := if s.params.hasPullup then true else s.pullup
    irqEn := true
    enabled := true }

/-- `Enable()` (R241). A refused configuration has no `Enable`; a second call is F_UNMODELLED. -/
def enableOp (s : State) : Flow State :=
  match configErrors s.cfg with
  | c :: cs => refuseConfig (c :: cs)
  | [] =>
    if s.enabled then raise (.unmodelled .enable) s
    else Flow.andThen (bmInit (peripheralClockEnable s)) fun s1 => .ok s1.startUp

/-- The reset test of `Handler()`, made first (R245). -/
def handlerReset (s : State) : Flow State :=
  if Istr.resetFlag s.istr then resetOp s else .ok s

/-- The transfer-complete test of `Handler()`, made on ISTR as it then reads (R245). -/
def handlerComplete (s : State) : Flow State := if s.istrCtr then dispatch s else .ok s

/-- `Handler()` (R245). -/
def handlerOp (s : State) : Flow State :=
  Flow.andThen (handlerReset s) fun s1 =>
  Flow.andThen (handlerComplete s1) fun s2 =>
  .ok (ackInterrupt s2)

/-! ### The operations -/

/-- ENABLE. -/
def execEnable (s : State) : Host.Outcome State Fault Refusal := (enableOp s).outcome

/-- HANDLER. -/
def execHandler (s : State) : Host.Outcome State Fault Refusal := (handlerOp s).outcome

/-- RESET. -/
def execReset (s : State) : Host.Outcome State Fault Refusal := (resetOp s).outcome

/-- EV_BUS_RESET (R242, R104): the event runs `Reset()`. -/
def execEvBusReset (s : State) : Host.Outcome State Fault Refusal := (resetOp s).outcome

/-- EP0_RESET. -/
def execEp0Reset (s : State) : Host.Outcome State Fault Refusal := .next (ep0Reset s)

/-- CONFIG_RESET. -/
def execConfigReset (c : Configuration) (s : State) : Host.Outcome State Fault Refusal :=
  (configReset c s).outcome

/-- ACK_INTERRUPT. -/
def execAckInterrupt (s : State) : Host.Outcome State Fault Refusal := .next (ackInterrupt s)

end Sys2Proof.Machine
end

