-- ==== Sys2Proof/Machine/Bus.lean ====
section
/-! DEFINITION. The bus agent (46_bus_environment.md): the host and the peripheral's serial interface
engine, one transaction or one bus reset a step. -/

namespace Sys2Proof.Machine

/-! ### SETUP (R263) -/

/-- The slot that accepts a SETUP: the one that answers the endpoint number in its receive half, if it
is a CONTROL slot and the token is for this device. -/
def State.setupSlot (s : State) (a : BitVec 7) (ep : BitVec 4) : Option (Fin 8) :=
  if s.forThisDevice a then
    (s.slotFor ep .dirOut).filter (fun n => Epr.epType (s.eprAt n) == epTypeControl)
  else none

/-- The register fields a SETUP sets. -/
def setupWord (w : Half) : Half :=
  Epr.withStatTx (Epr.withStatRx (Epr.withCtrRx (Epr.withSetup w true) true) .nak) .nak

/-- BUS_SETUP(a, ep, data). -/
def busSetup (a : BitVec 7) (ep : BitVec 4) (data : List Byte) (s : State) : Flow State :=
  match s.setupSlot a ep with
  | none => .ok (s.observe (.setup a ep data .noResponse))
  | some n =>
    Flow.andThen (addrRx .busSetup n.val s) fun off =>
    Flow.andThen (memWrite .busSetup off data s) fun s1 =>
    Flow.andThen (setCountRx .busSetup n.val 8#10 s1) fun s2 =>
    .ok ((s2.modifyEpr n setupWord).observe (.setup a ep data .ack))

/-! ### OUT (R264) -/

/-- The slot that a token for this device reaches. -/
def State.tokenSlot (s : State) (a : BitVec 7) (ep : BitVec 4) (d : Dir) : Option (Fin 8) :=
  if s.forThisDevice a then s.slotFor ep d else none

/-- The register fields an accepted OUT sets. -/
def outWord (w : Half) : Half :=
  Epr.withStatRx (Epr.withCtrRx (Epr.withSetup w false) true) .nak

/-- An OUT to a slot whose receive half is VALID. -/
def busOutValid (a : BitVec 7) (ep : BitVec 4) (data : List Byte) (n : Fin 8) (s : State) :
    Flow State :=
  Flow.andThen (rxCap .busOut n.val s) fun cap =>
    if data.length ≤ cap then
      Flow.andThen (addrRx .busOut n.val s) fun off =>
      Flow.andThen (memWrite .busOut off data s) fun s1 =>
      Flow.andThen (setCountRx .busOut n.val (BitVec.ofNat 10 data.length) s1) fun s2 =>
      .ok ((s2.modifyEpr n outWord).observe (.out a ep data .ack))
    else .ok (s.observe (.out a ep data .noResponse))

/-- BUS_OUT(a, ep, data). -/
def busOut (a : BitVec 7) (ep : BitVec 4) (data : List Byte) (s : State) : Flow State :=
  match s.tokenSlot a ep .dirOut with
  | none => .ok (s.observe (.out a ep data .noResponse))
  | some n =>
    match Epr.statRx (s.eprAt n) with
    | .disabled => .ok (s.observe (.out a ep data .noResponse))
    | .stall => .ok (s.observe (.out a ep data .stall))
    | .nak => .ok (s.observe (.out a ep data .nak))
    | .valid => busOutValid a ep data n s

/-! ### IN (R265) -/

/-- The register fields a completed IN sets. -/
def inWord (w : Half) : Half := Epr.withStatTx (Epr.withCtrTx w true) .nak

/-- An IN to a slot whose transmit half is VALID. -/
def busInValid (a : BitVec 7) (ep : BitVec 4) (n : Fin 8) (s : State) : Flow State :=
  Flow.andThen (countTx .busIn n.val s) fun c =>
  Flow.andThen (addrTx .busIn n.val s) fun off =>
  Flow.andThen (memRead .busIn off c s) fun bytes =>
  .ok ((s.modifyEpr n inWord).observe (.inToken a ep (.data bytes)))

/-- BUS_IN(a, ep). -/
def busIn (a : BitVec 7) (ep : BitVec 4) (s : State) : Flow State :=
  match s.tokenSlot a ep .dirIn with
  | none => .ok (s.observe (.inToken a ep .noResponse))
  | some n =>
    match Epr.statTx (s.eprAt n) with
    | .disabled => .ok (s.observe (.inToken a ep .noResponse))
    | .stall => .ok (s.observe (.inToken a ep .stall))
    | .nak => .ok (s.observe (.inToken a ep .nak))
    | .valid => busInValid a ep n s

/-! ### The packets of a transaction (R105)

For observation only, as the history is: each packet with the PIDs it can have. The data toggle is not
modelled (R36, log entry 10), so a data packet has either PID, but for a SETUP's, which is DATA0 (R263). -/

/-- The PIDs of a data packet. -/
def dataPids : List Byte := [pidData0, pidData1]

/-- The packet the device answers with, if it answers. -/
def Response.packets : Response → List (List Byte)
  | .ack => [[pidAck]]
  | .nak => [[pidNak]]
  | .stall => [[pidStall]]
  | .data _ => [dataPids]
  | .noResponse => []

/-- The host's handshake: it acknowledges every data packet it receives (R267 (3)). -/
def Response.hostHandshake : Response → List (List Byte)
  | .data _ => [[pidAck]]
  | _ => []

/-- The packets on the bus, in order; a bus reset is signalling and has none. -/
def Observation.packets : Observation → List (List Byte)
  | .setup _ _ _ r => [[pidSetup], [pidData0]] ++ r.packets
  | .out _ _ _ r => [[pidOut], dataPids] ++ r.packets
  | .inToken _ _ r => [[pidIn]] ++ r.packets ++ r.hostHandshake
  | .busReset => []

/-! ### Bus reset (R266) -/

/-- BUS_RESET; without attachment the host resets nothing (R266 precondition, R269). -/
def busReset (s : State) : State :=
  if s.attached then
    { s with
      istr := Istr.withReset s.istr
      daddr := 0x0000#16
      epr := Vector.replicate 8 0x0000#16
      hist := s.hist ++ [.busReset] }
  else s

/-! ### The operations -/

/-- BUS_SETUP. Data that is not 8 bytes breaks a host duty (R267 (1)). -/
def execBusSetup (addr : BitVec 7) (ep : BitVec 4) (data : List Byte) (s : State) :
    Host.Outcome State Fault Refusal :=
  if data.length = 8 then (busSetup addr ep data s).outcome else .refused .hostDuty

/-- BUS_OUT. Data of more than 1023 bytes breaks a host duty (R267 (2)). -/
def execBusOut (addr : BitVec 7) (ep : BitVec 4) (data : List Byte) (s : State) :
    Host.Outcome State Fault Refusal :=
  if data.length ≤ 1023 then (busOut addr ep data s).outcome else .refused .hostDuty

/-- BUS_IN. -/
def execBusIn (addr : BitVec 7) (ep : BitVec 4) (s : State) : Host.Outcome State Fault Refusal :=
  (busIn addr ep s).outcome

/-- BUS_RESET. -/
def execBusReset (s : State) : Host.Outcome State Fault Refusal := .next (busReset s)

end Sys2Proof.Machine
end

