-- ==== Sys2Proof/Machine/Fetch.lean ====
section
/-! DEFINITION. Which operation the next step runs (00_scope.md R14, 45_device_controller.md R247,
46_bus_environment.md R269, 60_exceptions.md R293), and how a word of the opcode table is put where a
step reads it (log entry 13). -/

namespace Sys2Proof.Machine

/-! ### The schedule -/

/-- The agent that the input asks for may move: `Enable` and `Handler` only while no fault is recorded
(R293), `Handler` only by R247, the bus only while attached (R269). -/
def State.inputEnabled (s : State) : Input → Bool
  | .enable => s.fault.isNone
  | .irq => s.handlerEnabled
  | .bus _ => s.attached

/-- The state with an input used up. -/
def State.withInputs (s : State) (xs : List Input) : State := { s with inputs := xs }

/-- What the next step does. -/
inductive Action where
  /-- An agent's operation runs from this state. -/
  | run (i : Instr) (s : State)
  /-- No agent moves. -/
  | idle (s : State)
  /-- The run has no meaning. -/
  | refuse (r : Refusal)
  deriving DecidableEq, Repr

/-- With nothing scheduled, the interrupt line alone moves the block (R247: an enabled `Handler` step
is eventually taken). -/
def State.unscheduled (s : State) : Action :=
  if s.handlerEnabled then .run .handler s else .idle s

/-- The next step: a refused configuration has no run (R298, R321); an input whose agent is not enabled
is not taken; an enabled one is decoded. -/
def State.nextAction (s : State) : Action :=
  match configErrors s.cfg with
  | c :: cs => .refuse (.configRefused (c :: cs))
  | [] =>
    match s.inputs with
    | [] => s.unscheduled
    | x :: xs =>
      if s.inputEnabled x then
        match decodeInput x with
        | .ok i => .run i (s.withInputs xs)
        | .error e => .refuse (.undecodable e)
      else .idle (s.withInputs xs)

/-! ### Placing a word of the opcode table

A step reads a SETUP packet from endpoint 0's receive buffer, an event word from the registers, and a
token from the schedule. Each word is put there, with what the step needs to get to it: the block
enabled with its buffer-descriptor table, no fault, and the interrupt or the token next. -/

/-- The state in which the bus and the interrupt reach the block: after `Enable`, without a fault. -/
def State.readyForEvents (s : State) : State :=
  { s.writeEntries 0 (allocation s.cfg).entries with
    cntr := cntrBaseline
    btable := bdtBase
    pullup := true
    irqEn := true
    enabled := true
    fault := none }

/-- The completion flags of one slot are clear. -/
def State.clearCompletion (s : State) (n : Fin 8) : State :=
  s.modifyEpr n (fun w => Epr.withCtrTx (Epr.withCtrRx w false) false)

/-- No completion is pending on any slot, and no bus reset. -/
def State.withoutEvents (s : State) : State :=
  allSlots.foldl State.clearCompletion { s with istr := s.istr &&& 0xFBFF#16 }

/-- The interrupt is next. -/
def State.interruptNext (s : State) : State := s.withInputs (.irq :: s.inputs)

/-- The bytes of a SETUP packet stand in endpoint 0's receive buffer (R263). -/
def State.placePacket (s : State) (p : List Byte) : State :=
  s.writeBytes (slotAlloc s.cfg 0).addrRx p

/-- A SETUP packet has just been received (R263). -/
def State.placeSetup (s : State) (p : List Byte) : State :=
  (((s.readyForEvents.withoutEvents).placePacket p).setEpr 0 0xAA20#16).interruptNext

/-- The registers read as the ISTR word: RESET in the stored bits, and where CTR is set, the completion
flag of slot EP_ID that DIR tells (R28). -/
def State.placeIstr (s : State) (w : Half) : State :=
  let s1 := s.readyForEvents.withoutEvents
  let s2 := { s1 with istr := s1.istr ||| (w &&& 0x0400#16) }
  let s3 :=
    if Istr.ctr w then
      match slotOfNumber s.cfg (Istr.epId w) with
      | some n =>
        s2.modifyEpr n (fun r =>
          if Istr.dir w = 1#1 then Epr.withCtrRx r true else Epr.withCtrTx r true)
      | none => s2
    else s2
  s3.interruptNext

/-- EPR[0] reads as the word; the receive buffer holds a packet of zeros, for a word with SETUP. -/
def State.placeEpr0 (s : State) (w : Half) : State :=
  (((s.readyForEvents.withoutEvents).placePacket (List.replicate 8 0#8)).setEpr 0 w).interruptNext

/-- The input is next, and its agent may move. -/
def State.placeInput (s : State) (x : Input) : State :=
  s.readyForEvents.withInputs (x :: s.inputs)

/-- A code is put where the next step reads it. -/
def State.placeCode (s : State) : Code → State
  | .setup p => s.placeSetup p
  | .istr w => s.placeIstr w
  | .epr0 w => s.placeEpr0 w
  | .input x => s.placeInput x

/-- A word of the opcode table is put where the next step reads it. -/
def State.placeTableWord (s : State) (nbits w : Nat) : State :=
  match codeOfTableWord nbits w with
  | some c => s.placeCode c
  | none => s

end Sys2Proof.Machine
end

