-- ==== Sys2Proof/Machine/Dispatch.lean ====
section
/-! DEFINITION. The dispatch of an operation to its meaning, one arm for each constructor. -/

namespace Sys2Proof.Machine

def exec (i : Instr) (s : State) : Host.Outcome State Fault Refusal :=
  match i with
  | .getStatus bmRequestType wValue wIndex wLength => Sys2Proof.Machine.execGetStatus bmRequestType wValue wIndex wLength s
  | .setAddress bmRequestType wValue wIndex wLength => Sys2Proof.Machine.execSetAddress bmRequestType wValue wIndex wLength s
  | .getDescriptorDevice bmRequestType descIndex wIndex wLength => Sys2Proof.Machine.execGetDescriptorDevice bmRequestType descIndex wIndex wLength s
  | .getDescriptorConfiguration bmRequestType descIndex wIndex wLength => Sys2Proof.Machine.execGetDescriptorConfiguration bmRequestType descIndex wIndex wLength s
  | .getDescriptorReport bmRequestType descIndex wIndex wLength => Sys2Proof.Machine.execGetDescriptorReport bmRequestType descIndex wIndex wLength s
  | .getDescriptorOther bmRequestType descType descIndex wIndex wLength => Sys2Proof.Machine.execGetDescriptorOther bmRequestType descType descIndex wIndex wLength s
  | .setConfiguration bmRequestType wValue wIndex wLength => Sys2Proof.Machine.execSetConfiguration bmRequestType wValue wIndex wLength s
  | .otherRequest bmRequestType bRequest wValue wIndex wLength => Sys2Proof.Machine.execOtherRequest bmRequestType bRequest wValue wIndex wLength s
  | .evBusReset => Sys2Proof.Machine.execEvBusReset s
  | .evCtrEp0 dirBit => Sys2Proof.Machine.execEvCtrEp0 dirBit s
  | .evCtrEpn epId dirBit => Sys2Proof.Machine.execEvCtrEpn epId dirBit s
  | .evEp0Setup => Sys2Proof.Machine.execEvEp0Setup s
  | .evEp0Out => Sys2Proof.Machine.execEvEp0Out s
  | .evEp0Tx => Sys2Proof.Machine.execEvEp0Tx s
  | .busSetup addr ep data => Sys2Proof.Machine.execBusSetup addr ep data s
  | .busOut addr ep data => Sys2Proof.Machine.execBusOut addr ep data s
  | .busIn addr ep => Sys2Proof.Machine.execBusIn addr ep s
  | .busReset => Sys2Proof.Machine.execBusReset s
  | .enable => Sys2Proof.Machine.execEnable s
  | .handler => Sys2Proof.Machine.execHandler s
  | .reset => Sys2Proof.Machine.execReset s
  | .ep0Reset => Sys2Proof.Machine.execEp0Reset s
  | .configReset c => Sys2Proof.Machine.execConfigReset c s
  | .ackInterrupt => Sys2Proof.Machine.execAckInterrupt s
  | .dispatch => Sys2Proof.Machine.execDispatch s
  | .extHandler n d => Sys2Proof.Machine.execExtHandler n d s
  | .bmAllocate => Sys2Proof.Machine.execBmAllocate s
  | .bmInit => Sys2Proof.Machine.execBmInit s
  | .deviceDescriptorBytes => Sys2Proof.Machine.execDeviceDescriptorBytes s
  | .composeConfig c => Sys2Proof.Machine.execComposeConfig c s
  | .send bytes wLength => Sys2Proof.Machine.execSend bytes wLength s
  | .stallTx => Sys2Proof.Machine.execStallTx s

end Sys2Proof.Machine
end

