-- ==== Sys2Proof/Machine/Step.lean ====
section
/-! DEFINITION. One step of the machine, and where a word of the opcode table is read from. -/

namespace Sys2Proof.Machine

/-- One step: the next agent's operation (00_scope.md R14, R15). -/
def step (s : State) : Host.Outcome State Fault Refusal :=
  match s.nextAction with
  | .run i t => exec i t
  | .idle t => .next t
  | .refuse r => .refused r

/-- The state in which the very next step runs the operation of a word of the opcode table (log entry
13). -/
def State.withFetchWord (s : State) (nbits w : Nat) : State := s.placeTableWord nbits w

end Sys2Proof.Machine
end

