-- ==== Sys2Proof/Safety.lean ====
section
/-! DEFINITION. The terms the statements use: frames (what an operation leaves unchanged), what a staged
response is, when endpoint 0's buffers can be used, and the invariant that every step keeps. -/

namespace Sys2Proof.Machine

/-! ### Frames -/

/-- `t` is `s` but for packet memory and the draws of pad bytes. -/
def SameButMemory (s t : State) : Prop :=
  { t with pma := s.pma, padDraws := s.padDraws, drawCount := s.drawCount } = s

/-- `t` is `s` but for packet memory, the endpoint registers and the draws of pad bytes. -/
def SameButMemoryAndEpr (s t : State) : Prop :=
  { t with epr := s.epr, pma := s.pma, padDraws := s.padDraws, drawCount := s.drawCount } = s

/-- `t` is `s` but for packet memory, the endpoint registers, the history and the draws of pad bytes. -/
def SameButBus (s t : State) : Prop :=
  { t with epr := s.epr, pma := s.pma, hist := s.hist, padDraws := s.padDraws,
           drawCount := s.drawCount } = s

/-- `t` is `s` but for packet memory, the endpoint registers and the draws of an endpoint handler. -/
def SameButHandler (s t : State) : Prop :=
  { t with epr := s.epr, pma := s.pma, handlerDraws := s.handlerDraws, drawCount := s.drawCount } = s

/-- `t` is `s` but for the endpoint registers. -/
def SameButEpr (s t : State) : Prop := { t with epr := s.epr } = s

/-- The offset lies in the `n` bytes from `a`. -/
def InRange (x a n : Nat) : Prop := a ≤ x ∧ x < a + n

/-- Every byte of packet memory outside two ranges reads as before. -/
def BytesSameOutside (s t : State) (a n b m : Nat) : Prop :=
  ∀ x, ¬ InRange x a n → ¬ InRange x b m → t.readByte x = s.readByte x

/-- Every byte of packet memory reads as before. -/
def BytesSame (s t : State) : Prop := ∀ x, t.readByte x = s.readByte x

/-- Every slot but one reads as before. -/
def SlotsSameBut (s t : State) (n : Fin 8) : Prop := ∀ m, m ≠ n → t.eprAt m = s.eprAt m

/-! ### Endpoint 0's buffers -/

/-- ADDR_TX(0), as the table in packet memory gives it. -/
def State.txAddr0 (s : State) : Nat := (s.readHalf (s.bdt 0)).toNat

/-- ADDR_RX(0), as the table in packet memory gives it. -/
def State.rxAddr0 (s : State) : Nat := (s.readHalf (s.bdt 0 + 4)).toNat

/-- A response of `k` bytes can be written to endpoint 0's transmit buffer: ADDR_TX(0) and COUNT_TX(0) lie in
packet memory, the buffer is even and in packet memory, and it does not cover COUNT_TX(0). -/
structure Ep0TxReady (s : State) (k : Nat) : Prop where
  entry : s.accessOk (s.bdt 0) 2 = true
  count : s.accessOk (bdtBase.toNat + 2) 2 = true
  buffer : s.accessOk s.txAddr0 k = true
  apart : bdtBase.toNat + 4 ≤ s.txAddr0

/-- The SETUP packet in endpoint 0's receive buffer can be read. -/
structure Ep0RxReady (s : State) : Prop where
  entry : s.accessOk (s.bdt 0 + 4) 2 = true
  buffer : s.accessOk s.rxAddr0 8 = true

/-- How many bytes `send(bytes, L)` stages (R171). -/
def stagedLength (bytes : List Byte) (wLength : Half) : Nat := min wLength.toNat bytes.length

/-- `t` is `s` after `send(bytes, L)` (R171): exactly the first `min(L, len)` bytes stand in the
transmit buffer, COUNT_TX(0) is their number, STAT_TX is VALID. Of packet memory only those bytes, the
byte after an odd number of them (R67) and the two bytes of COUNT_TX(0) may differ; of the registers
only EPR[0].STAT_TX. -/
structure Staged (s t : State) (bytes : List Byte) (wLength : Half) : Prop where
  count : t.readHalf (bdtBase.toNat + 2) = BitVec.ofNat 16 (stagedLength bytes wLength)
  buffer : t.readBytes s.txAddr0 (stagedLength bytes wLength) =
    bytes.take (stagedLength bytes wLength)
  slot : t.eprAt 0 = Epr.withStatTx (s.eprAt 0) .valid
  slots : SlotsSameBut s t 0
  memory : BytesSameOutside s t s.txAddr0
    (stagedLength bytes wLength + stagedLength bytes wLength % 2) (bdtBase.toNat + 2) 2
  rest : SameButMemoryAndEpr s t

/-- `t` is `s` after `stall_tx()` (R172). -/
def Stalled (s t : State) : Prop :=
  t.eprAt 0 = Epr.withStatTx (s.eprAt 0) .stall ∧ SlotsSameBut s t 0 ∧ SameButEpr s t

/-! ### The invariant -/

/-- The completion flag of a slot in one direction (R33). -/
def halfCompletion (d : Dir) (w : Half) : Bool :=
  match d with
  | .dirIn => Epr.ctrTx w
  | .dirOut => Epr.ctrRx w

/-- A half of a slot that no endpoint declares is DISABLED and reports no completion (R244, R154). -/
def SlotsRegistered (s : State) : Prop :=
  ∀ (n : Fin 8) (d : Dir), registered s.cfg (BitVec.ofNat 4 n.val) d = false →
    halfStat d (s.eprAt n) = .disabled ∧ halfCompletion d (s.eprAt n) = false

/-- The buffer-descriptor table holds the addresses and the sizes that BM_INIT wrote (R133). -/
def TableIntact (s : State) : Prop :=
  ∀ n, n ≤ maxSlot s.cfg →
    s.readHalf (bdtBase.toNat + 8 * n) = BitVec.ofNat 16 (slotAlloc s.cfg n).addrTx ∧
    s.readHalf (bdtBase.toNat + 8 * n + 4) = BitVec.ofNat 16 (slotAlloc s.cfg n).addrRx ∧
    field (s.readHalf (bdtBase.toNat + 8 * n + 6)) 10 6 = field (slotAlloc s.cfg n).countRxInit 10 6

/-- What every step keeps: packet memory is canonical; BTABLE names the table; the reserved and derived
bits are not stored; after `Enable` the table is as BM_INIT wrote it and the block stays powered,
attached and with its interrupt enabled; undeclared halves are silent; only slot 0 is a CONTROL slot. -/
structure Inv (s : State) : Prop where
  memory : s.Canonical
  base : s.btable = bdtBase
  reserved : s.istr &&& ~~~Istr.storedMask = 0#16 ∧ s.daddr &&& 0xFF00#16 = 0#16
  table : s.enabled = true → TableIntact s
  powered : s.enabled = true → s.cntr = cntrBaseline ∧ s.irqEn = true ∧ s.pullupLine = true
  slots : SlotsRegistered s
  control : ∀ n : Fin 8, Epr.epType (s.eprAt n) = epTypeControl → n = 0

/-- The block after `Enable`, in a state that a run can reach as far as `Inv` tells. -/
structure Ready (s : State) : Prop where
  accepted : Accepted s.cfg
  inv : Inv s
  enabled : s.enabled = true

/-! ### A device that waits for the next control transfer -/

/-- The block is ready and answers address `a`, no event is pending, no fault is recorded, and endpoint
0 accepts a SETUP. -/
structure WaitingAt (s : State) (a : BitVec 7) : Prop where
  ready : Ready s
  noFault : s.fault = none
  noReset : Istr.resetFlag s.istr = false
  noEvent : s.pendingSet = []
  daddr : s.daddr = Daddr.enabledAt a
  ea : Epr.ea (s.eprAt 0) = 0#4
  type : Epr.epType (s.eprAt 0) = epTypeControl
  rx : Epr.statRx (s.eprAt 0) ≠ .disabled
  tx : Epr.statTx (s.eprAt 0) ≠ .disabled

/-! ### Responses -/

/-- The bytes a request is answered with, `none` where it is stalled (43_control_transfer.md R176 to
R184, without the fall-through of R183). -/
def response (cfg : StaticConfig) : Instr → Option (List Byte)
  | .getStatus _ _ _ _ => some [0x00#8, 0x00#8]
  | .setAddress _ _ _ _ => some []
  | .getDescriptorDevice _ _ _ _ => some (deviceDescriptor cfg)
  | .getDescriptorConfiguration _ i _ _ => cfg.configs[i.toNat]?.map composeConfig
  | .getDescriptorReport _ _ _ _ => reportSource cfg
  | .setConfiguration _ _ _ _ => some []
  | _ => none

/-- What the host's IN observes after the response to a packet of requested length `L`. -/
def hostSees (r : Option (List Byte)) (wLength : Half) : Response :=
  match r with
  | some bytes => .data (bytes.take wLength.toNat)
  | none => .stall

/-! ### Buffers -/

/-- The offset ranges that an allocation assigns: the table, endpoint 0's two buffers, and one buffer
for each declared endpoint (41_buffer_manager.md R131). -/
def assignedRanges (cfg : StaticConfig) (a : Allocation) : List (Nat × Nat) :=
  [(bdtBase.toNat, 8 * (a.maxSlot + 1)),
   ((a.entries.getD 0 SlotAlloc.empty).addrTx, (a.entries.getD 0 SlotAlloc.empty).txCap),
   ((a.entries.getD 0 SlotAlloc.empty).addrRx, rxCapOf (a.entries.getD 0 SlotAlloc.empty).countRxInit)] ++
  (declaredEndpoints cfg).map fun e =>
    match e.dir with
    | .dirIn => ((a.entries.getD e.number.toNat SlotAlloc.empty).addrTx,
        (a.entries.getD e.number.toNat SlotAlloc.empty).txCap)
    | .dirOut => ((a.entries.getD e.number.toNat SlotAlloc.empty).addrRx,
        rxCapOf (a.entries.getD e.number.toNat SlotAlloc.empty).countRxInit)

/-- Two ranges of offsets have no offset in common. -/
def Apart (r q : Nat × Nat) : Prop := ∀ x, ¬ (InRange x r.1 r.2 ∧ InRange x q.1 q.2)

/-! ### Endpoint handlers -/

/-- The receive or transmit fields of a half of a slot that a handler may change are `c` and `st`; every
other field is as in `w` (42_dispatch.md R155). -/
def halfWord (d : Dir) (w : Half) (c : Bool) (st : Stat) : Half :=
  match d with
  | .dirIn => Epr.withStatTx (Epr.withCtrTx w c) st
  | .dirOut => Epr.withStatRx (Epr.withCtrRx w c) st

/-- The buffer of the footprint does not reach the count halfword. -/
def Footprint.Separate (fp : Footprint) : Prop :=
  ∀ x, fp.covers x = true → ¬ InRange x fp.countAt 2

/-- `t` is `s` after a handler of the footprint: it changed only the two fields of the slot's half, the
count and the buffer, and the draws that told it how (R155). -/
structure HandlerFrame (fp : Footprint) (s t : State) : Prop where
  half : ∃ c st, t.eprAt fp.slot = halfWord fp.dir (s.eprAt fp.slot) c st
  slots : SlotsSameBut s t fp.slot
  bytes : ∀ x, fp.covers x = false → ¬ InRange x fp.countAt 2 → t.readByte x = s.readByte x
  size : fp.dir = .dirOut → field (t.readHalf fp.countAt) 10 6 = field (s.readHalf fp.countAt) 10 6
  rest : SameButHandler s t

/-- Every write that the environment has drawn for the next handler lies in the footprint. -/
def DrawsAdmitted (fp : Footprint) (s : State) : Prop :=
  ∀ ws ∈ s.handlerDraws.head?, ∀ w ∈ ws, fp.admits w = true

/-! ### Steps and runs of several steps -/

/-- A transaction or a bus reset, with the operand ranges of R267. -/
inductive BusInstr : Instr → Prop where
  | setup (a ep data) (h : data.length = 8) : BusInstr (.busSetup a ep data)
  | out (a ep data) (h : data.length ≤ 1023) : BusInstr (.busOut a ep data)
  | inToken (a ep) : BusInstr (.busIn a ep)
  | reset : BusInstr .busReset

/-- `n` steps lead from `s` to `t`. -/
def Leads : Nat → State → State → Prop
  | 0, s, t => s = t
  | n + 1, s, t => ∃ u, step s = .next u ∧ Leads n u t

end Sys2Proof.Machine
end

