-- ==== Sys2Proof/Certificates/Slice0/Obligations.lean ====
section
/-! DEFINITION. The statements for the provers. Each formalises the rules its docstring names. -/

open Sys2Proof Sys2Proof.Machine

/-! ### Encoding (30_encoding.md) -/

/-- Words written out from R91, R93, R104 and R105, one or more for each encoded family, decode to the
operation they stand for. -/
def Obligations.SpecWordsDecode : Prop :=
  decode (.setup [0x80#8, 0x06#8, 0x00#8, 0x01#8, 0x00#8, 0x00#8, 0x40#8, 0x00#8]) =
    .ok (.getDescriptorDevice 0x80#8 0x00#8 0x0000#16 0x0040#16) ∧
  decode (.setup [0x81#8, 0x06#8, 0x00#8, 0x22#8, 0x00#8, 0x00#8, 0xFF#8, 0x00#8]) =
    .ok (.getDescriptorReport 0x81#8 0x00#8 0x0000#16 0x00FF#16) ∧
  decode (.setup [0x00#8, 0x05#8, 0x05#8, 0x00#8, 0x00#8, 0x00#8, 0x00#8, 0x00#8]) =
    .ok (.setAddress 0x00#8 0x0005#16 0x0000#16 0x0000#16) ∧
  decode (.setup [0x80#8, 0x06#8, 0x09#8, 0x03#8, 0x04#8, 0x12#8, 0x00#8, 0x01#8]) =
    .ok (.getDescriptorOther 0x80#8 0x03#8 0x09#8 0x1204#16 0x0100#16) ∧
  decode (.istr 0x8011#16) = .ok (.evCtrEpn 0x1#4 1#1) ∧
  decode (.istr 0x8010#16) = .ok (.evCtrEp0 1#1) ∧
  decode (.istr 0x8410#16) = .ok .evBusReset ∧
  decode (.epr0 0xAA20#16) = .ok .evEp0Setup ∧
  decode (.epr0 0xA220#16) = .ok .evEp0Out ∧
  decode (.epr0 0x3AA0#16) = .ok .evEp0Tx ∧
  decode (.input (.bus [0x69#8, 0x05#8, 0x01#8])) = .ok (.busIn 5#7 1#4) ∧
  decode (.input (.bus [0xE1#8, 0x00#8, 0x01#8, 0xAA#8, 0xBB#8])) =
    .ok (.busOut 0#7 1#4 [0xAA#8, 0xBB#8])

/-- R93, R96: the decode of a key agrees with the match and the mask of every SETUP32 row, the two
fallback rows applying only where no earlier row does. -/
def Obligations.RequestDecodeFollowsTheTable : Prop :=
  ∀ k : BitVec 32,
    (decodeRequest k = .getStatus ↔ k &&& 0x0000FF00#32 = 0x00000000#32) ∧
    (decodeRequest k = .setAddress ↔ k &&& 0x0000FF00#32 = 0x00000500#32) ∧
    (decodeRequest k = .getDescriptorDevice ↔ k &&& 0xFF00FF00#32 = 0x01000600#32) ∧
    (decodeRequest k = .getDescriptorConfiguration ↔ k &&& 0xFF00FF00#32 = 0x02000600#32) ∧
    (decodeRequest k = .getDescriptorReport ↔ k &&& 0xFF00FF00#32 = 0x22000600#32) ∧
    (decodeRequest k = .getDescriptorOther ↔ k &&& 0x0000FF00#32 = 0x00000600#32 ∧
      k &&& 0xFF00FF00#32 ≠ 0x01000600#32 ∧ k &&& 0xFF00FF00#32 ≠ 0x02000600#32 ∧
      k &&& 0xFF00FF00#32 ≠ 0x22000600#32) ∧
    (decodeRequest k = .setConfiguration ↔ k &&& 0x0000FF00#32 = 0x00000900#32) ∧
    (decodeRequest k = .otherRequest ↔ k &&& 0x0000FF00#32 ≠ 0x00000000#32 ∧
      k &&& 0x0000FF00#32 ≠ 0x00000500#32 ∧ k &&& 0x0000FF00#32 ≠ 0x00000600#32 ∧
      k &&& 0x0000FF00#32 ≠ 0x00000900#32)

/-- Decode and encode agree: every well-formed operation that has a code is decoded from it, with every
operand. -/
def Obligations.DecodeOfEncode : Prop :=
  ∀ (i : Instr) (c : Code), WellFormed i → encode i = some c → decode c = .ok i

/-- The decoder gives only well-formed operations, and a SETUP packet or an input that decodes is the code
of what it decodes to: no bit of it is dropped. -/
def Obligations.EncodeOfDecode : Prop :=
  (∀ (c : Code) (i : Instr), decode c = .ok i → WellFormed i) ∧
  (∀ (p : List Byte) (i : Instr), decode (.setup p) = .ok i → encode i = some (.setup p)) ∧
  (∀ (x : Input) (i : Instr), decode (.input x) = .ok i → encode i = some (.input x))

/-! ### Registers (10_state.md) -/

/-- R320, R46: every piece of state at power-on, for any configuration and parameters; every byte of packet
memory has its free value (I3, log entry 4); the invariant of `StepKeepsInv` holds there. -/
def Obligations.PowerOnState : Prop :=
  ∀ (cfg : StaticConfig) (params : Params),
    let s := State.powerOn cfg params
    s.cntr = 0x0003#16 ∧ s.istr = 0x0000#16 ∧ s.daddr = 0x0000#16 ∧ s.btable = 0x0000#16 ∧
    (∀ n, s.eprAt n = 0x0000#16) ∧ s.pending = 0x0000#16 ∧ s.irqEn = false ∧ s.enabled = false ∧
    s.fault = none ∧ s.hist = [] ∧
    (params.hasPullup = true → s.pullupLine = false) ∧ (params.hasPullup = false → s.pullupLine = true) ∧
    (∀ x, s.readByte x = Config.powerOnByte x) ∧ Inv s

/-- R28: the read view of ISTR reports a member of the pending set, a slot n < NUM_EP_SLOTS, and its CTR_RX
flag, any member can be the one reported, and with nothing pending CTR, EP_ID and DIR read 0. -/
def Obligations.IstrViewReportsPendingSlots : Prop :=
  ∀ s : State,
    (Istr.ctr s.istrView = true ↔ ∃ n : Fin 8, n.val < s.cfg.numEpSlots ∧
      (Epr.ctrRx (s.eprAt n) = true ∨ Epr.ctrTx (s.eprAt n) = true)) ∧
    (Istr.ctr s.istrView = true → ∃ n : Fin 8, n.val < s.cfg.numEpSlots ∧
      (Epr.ctrRx (s.eprAt n) = true ∨ Epr.ctrTx (s.eprAt n) = true) ∧
      Istr.epId s.istrView = BitVec.ofNat 4 n.val ∧
      Istr.dir s.istrView = BitVec.ofBool (Epr.ctrRx (s.eprAt n))) ∧
    (∀ n : Fin 8, n.val < s.cfg.numEpSlots →
      Epr.ctrRx (s.eprAt n) = true ∨ Epr.ctrTx (s.eprAt n) = true →
      ∃ k, Istr.epId ({ s with epIdDraws := [k] }).istrView = BitVec.ofNat 4 n.val) ∧
    (Istr.ctr s.istrView = false → Istr.epId s.istrView = 0#4 ∧ Istr.dir s.istrView = 0#1)

/-- R33, R11: with the hardware write kinds, the word the Register Access Layer writes makes EPR[n] become
`new`, for every `new` that sets no completion flag and keeps SETUP. -/
def Obligations.EprFieldWritesAreRealisable : Prop :=
  ∀ old new : Half,
    (Epr.ctrRx new = true → Epr.ctrRx old = true) → (Epr.ctrTx new = true → Epr.ctrTx old = true) →
    Epr.setupFlag new = Epr.setupFlag old →
    Epr.hwWrite old (Epr.hwWordFor old new) = new

/-! ### A step -/

/-- A step runs the scheduled operation: where the configuration is accepted, the next input's agent may
move and the input decodes, a step is that operation with the input used up (R14; the schedule is the
model's, log entry 2). -/
def Obligations.StepRunsTheScheduledOperation : Prop :=
  ∀ (s : State) (x : Input) (xs : List Input) (i : Instr),
    Accepted s.cfg → s.inputs = x :: xs → s.inputEnabled x = true → decode (.input x) = .ok i →
    step s = exec i (s.withInputs xs)

/-- A step whose next input's agent may not move changes nothing but the schedule; with no input a step
is a Handler call where R247 allows one, and changes nothing otherwise. The model's choice, log entry
2. -/
def Obligations.StepWithoutAnEnabledInput : Prop :=
  ∀ s : State, Accepted s.cfg →
    (∀ x xs, s.inputs = x :: xs → s.inputEnabled x = false → step s = .next (s.withInputs xs)) ∧
    (s.inputs = [] → s.handlerEnabled = true → step s = exec .handler s) ∧
    (s.inputs = [] → s.handlerEnabled = false → step s = .next s)

/-- When each agent may move: Handler by R247, the bus while attached by R269. -/
def Obligations.WhenAgentsMayMove : Prop :=
  ∀ s : State,
    (s.inputEnabled .irq = true ↔ s.enabled = true ∧ s.irqEn = true ∧ s.fault = none ∧
      ((Cntr.ctrm s.cntr = true ∧ Istr.ctr s.istrView = true) ∨
       (Cntr.resetm s.cntr = true ∧ Istr.resetFlag s.istrView = true))) ∧
    (∀ bs, s.inputEnabled (.bus bs) = true ↔ s.enabled = true ∧ s.pullupLine = true ∧
      Cntr.pdwn s.cntr = false ∧ Cntr.fres s.cntr = false)

/-- R298, R321: a configuration that fails a check has no run, and each refusal code applies exactly where
its check fails, for any SCRATCH_CAP, NUM_EP_SLOTS and PMA_SIZE (R8, I19; log entry 18). That the report blob of the third code is the one `reportSource` serves is the model's
reading (log entry 15). -/
def Obligations.ConfigurationRefusals : Prop :=
  (∀ s : State, ¬ Accepted s.cfg → step s = .refused (.configRefused (configErrors s.cfg))) ∧
  [ConfigError.pmaOverflow, .scratchOverflow, .responseExceedsMps0, .duplicateEndpoint, .endpointNumber,
    .mpsRange, .fieldRange].map ConfigError.code = [16, 17, 18, 19, 20, 21, 22] ∧
  ∀ cfg : StaticConfig,
    (.pmaOverflow ∈ configErrors cfg ↔ cfg.pmaSize < (allocation cfg).endOff) ∧
    (.scratchOverflow ∈ configErrors cfg ↔ ∃ c ∈ cfg.configs, cfg.scratchCap < configTotal c) ∧
    (.responseExceedsMps0 ∈ configErrors cfg ↔ cfg.mps0.toNat < 18 ∨
      (∃ c ∈ cfg.configs, cfg.mps0.toNat < configTotal c) ∨
      (∃ b, reportSource cfg = some b ∧ cfg.mps0.toNat < b.length)) ∧
    (.duplicateEndpoint ∈ configErrors cfg ↔
      ∃ (j k : Nat) (e f : Endpoint), j < k ∧ (declaredEndpoints cfg)[j]? = some e ∧
        (declaredEndpoints cfg)[k]? = some f ∧
        e.number = f.number ∧ (e.dir = f.dir ∨ e.epType ≠ f.epType)) ∧
    (.endpointNumber ∈ configErrors cfg ↔
      ∃ e ∈ declaredEndpoints cfg, e.number = 0#4 ∨ cfg.numEpSlots ≤ e.number.toNat) ∧
    (.mpsRange ∈ configErrors cfg ↔
      cfg.mps0.toNat ∉ [8, 16, 32, 64] ∨
      ∃ e ∈ declaredEndpoints cfg, e.mps.toNat = 0 ∨
        (e.epType = .isochronous ∧ 1023 < e.mps.toNat) ∨
        (e.epType ≠ .isochronous ∧ 64 < e.mps.toNat)) ∧
    (.fieldRange ∈ configErrors cfg ↔
      255 < cfg.configs.length ∨ ∃ c ∈ cfg.configs,
        255 < c.interfaces.length ∨ ∃ i ∈ c.interfaces, 255 < i.endpoints.length)

/-! ### Standard requests (43_control_transfer.md) -/

/-- R171: SEND stages the first min(L, len) bytes, their number in COUNT_TX(0), and STAT_TX = VALID; with
`Staged`'s frame. -/
def Obligations.SendStages : Prop :=
  ∀ (bytes : List Byte) (wLength : Half) (s : State),
    Ep0TxReady s (stagedLength bytes wLength) →
    ∃ t, exec (.send bytes wLength) s = .next t ∧ Staged s t bytes wLength

/-- R68, R291: a response whose buffer is misaligned or outside packet memory raises F_UNMODELLED, and
nothing of it is written. -/
def Obligations.SendOutsideMemoryFaults : Prop :=
  ∀ (bytes : List Byte) (wLength : Half) (s : State),
    s.accessOk (s.bdt 0) 2 = true → s.accessOk s.txAddr0 (stagedLength bytes wLength) = false →
    s.fault = none →
    exec (.send bytes wLength) s = .next { s with fault := some (.unmodelled .send) }

/-- R176, R171: GET_STATUS stages two zero bytes, whatever the request type, value and index. -/
def Obligations.GetStatusStagesZeros : Prop :=
  ∀ (bmRequestType : Byte) (wValue wIndex wLength : Half) (s : State),
    Ep0TxReady s (min wLength.toNat 2) →
    ∃ t, exec (.getStatus bmRequestType wValue wIndex wLength) s = .next t ∧
      Staged s t [0x00#8, 0x00#8] wLength

/-- R177: SET_ADDRESS stores all of wValue in `pending`, stages a zero-length acknowledgment and leaves
DADDR. -/
def Obligations.SetAddressDefersTheAddress : Prop :=
  ∀ (bmRequestType : Byte) (wValue wIndex wLength : Half) (s : State),
    Ep0TxReady s 0 →
    ∃ t, exec (.setAddress bmRequestType wValue wIndex wLength) s = .next t ∧
      t.pending = wValue ∧ t.daddr = s.daddr ∧
      Staged { s with pending := wValue } t [] wLength

/-- R179, R97: GET_DESCRIPTOR_DEVICE stages the device descriptor, whatever the descriptor index. -/
def Obligations.GetDescriptorDeviceStages : Prop :=
  ∀ (bmRequestType descIndex : Byte) (wIndex wLength : Half) (s : State),
    Ep0TxReady s (min wLength.toNat 18) →
    ∃ t, exec (.getDescriptorDevice bmRequestType descIndex wIndex wLength) s = .next t ∧
      Staged s t (deviceDescriptor s.cfg) wLength

/-- R180: GET_DESCRIPTOR_CONFIGURATION stages the configuration that the index selects, and stalls for an
index with no configuration. -/
def Obligations.GetDescriptorConfigurationStages : Prop :=
  ∀ (bmRequestType descIndex : Byte) (wIndex wLength : Half) (s : State),
    (∀ c, s.cfg.configs[descIndex.toNat]? = some c →
      Ep0TxReady s (min wLength.toNat (configTotal c)) →
      ∃ t, exec (.getDescriptorConfiguration bmRequestType descIndex wIndex wLength) s = .next t ∧
        Staged s t (composeConfig c) wLength) ∧
    (s.cfg.configs.length ≤ descIndex.toNat →
      ∃ t, exec (.getDescriptorConfiguration bmRequestType descIndex wIndex wLength) s = .next t ∧
        Stalled s t)

/-- R181, R220: GET_DESCRIPTOR_REPORT stages the report blob of the first configuration that has one, and
stalls where none has. -/
def Obligations.GetDescriptorReportStages : Prop :=
  ∀ (bmRequestType descIndex : Byte) (wIndex wLength : Half) (s : State),
    (∀ before c after blob, s.cfg.configs = before ++ c :: after →
      (∀ b ∈ before, b.reportBlob = none) → c.reportBlob = some blob →
      Ep0TxReady s (min wLength.toNat blob.length) →
      ∃ t, exec (.getDescriptorReport bmRequestType descIndex wIndex wLength) s = .next t ∧
        Staged s t blob wLength) ∧
    ((∀ c ∈ s.cfg.configs, c.reportBlob = none) →
      ∃ t, exec (.getDescriptorReport bmRequestType descIndex wIndex wLength) s = .next t ∧
        Stalled s t)

/-- R183: SET_CONFIGURATION is acknowledged with a zero-length response, whatever wValue is; with
SETCONFIG_FALLTHROUGH it ends stalled after that. -/
def Obligations.SetConfigurationAcknowledges : Prop :=
  ∀ (bmRequestType : Byte) (wValue wIndex wLength : Half) (s : State),
    Ep0TxReady s 0 →
    ∃ u t, Staged s u [] wLength ∧
      exec (.setConfiguration bmRequestType wValue wIndex wLength) s = .next t ∧
      (s.params.setConfigFallthrough = false → t = u) ∧
      (s.params.setConfigFallthrough = true → Stalled u t)

/-- R172, R182, R184: an unsupported descriptor type, any other request and STALL_TX set STAT_TX to STALL
and change nothing else, whatever their operands. -/
def Obligations.StallingRequestsOnlyStall : Prop :=
  ∀ (bmRequestType b descIndex : Byte) (wValue wIndex wLength : Half) (s : State),
    ∃ t, Stalled s t ∧
      exec (.getDescriptorOther bmRequestType b descIndex wIndex wLength) s = .next t ∧
      exec (.otherRequest bmRequestType b wValue wIndex wLength) s = .next t ∧
      exec .stallTx s = .next t

/-- R187, R171, R291: in a ready block no request, SETUP or OUT transaction raises a fault, and a request
writes at most the transmit buffer that the allocation gives endpoint 0, and COUNT_TX(0): the buffer is
never overrun. (An IN of a slot whose COUNT_TX a handler set beyond packet memory is the model's exception,
log entry 22.) -/
def Obligations.ReadyBlockNeverOverruns : Prop :=
  ∀ s : State, Ready s →
    (∀ (p : List Byte) (i : Instr), decode (.setup p) = .ok i →
      ∃ t, exec i s = .next t ∧ t.fault = s.fault ∧
        (∀ bytes, response s.cfg i = some bytes → bytes.length ≤ (slotAlloc s.cfg 0).txCap) ∧
        BytesSameOutside s t (slotAlloc s.cfg 0).addrTx (slotAlloc s.cfg 0).txCap
          (bdtBase.toNat + 2) 2) ∧
    (∀ (a : BitVec 7) (ep : BitVec 4) (data : List Byte),
      (data.length = 8 → ∃ t, exec (.busSetup a ep data) s = .next t ∧ t.fault = s.fault) ∧
      (data.length ≤ 1023 → ∃ t, exec (.busOut a ep data) s = .next t ∧ t.fault = s.fault))

/-! ### Endpoint-0 events -/

/-- R174: EV_EP0_SETUP reads the 8 bytes of endpoint 0's receive buffer, clears CTR_RX, runs the request
they decode to, and re-arms receive, where the request raises no fault. -/
def Obligations.SetupStageRunsTheRequest : Prop :=
  ∀ (s t : State) (i : Instr), Ep0RxReady s → s.fault = none →
    decode (.setup (s.readBytes s.rxAddr0 8)) = .ok i →
    exec i s.clearCtrRx0 = .next t → t.fault = none →
    exec .evEp0Setup s = .next t.rearmRx

/-- R175, R79: in a ready block EV_EP0_SETUP completes; STAT_TX is then VALID or STALL, STAT_RX is VALID,
CTR_RX is clear, the other fields of EPR[0] and every other slot are unchanged, and no byte of the
receive buffer is written. -/
def Obligations.SetupStageCompletes : Prop :=
  ∀ s : State, Ready s →
    ∃ t st, exec .evEp0Setup s = .next t ∧ t.fault = s.fault ∧ (st = Stat.valid ∨ st = Stat.stall) ∧
      t.eprAt 0 = Epr.withStatRx (Epr.withStatTx (Epr.withCtrRx (s.eprAt 0) false) st) .valid ∧
      SlotsSameBut s t 0 ∧
      t.daddr = s.daddr ∧ t.cntr = s.cntr ∧ t.istr = s.istr ∧ t.btable = s.btable ∧ t.hist = s.hist ∧
      BytesSameOutside s t (slotAlloc s.cfg 0).addrTx (slotAlloc s.cfg 0).txCap (bdtBase.toNat + 2) 2 ∧
      (∀ x, InRange x (slotAlloc s.cfg 0).addrRx (rxCapOf (slotAlloc s.cfg 0).countRxInit) →
        t.readByte x = s.readByte x)

/-- R185: EV_EP0_OUT clears CTR_RX and re-arms receive, and changes nothing else: the data is discarded
and `pending` is not touched. -/
def Obligations.OutStageRearms : Prop :=
  ∀ s : State, ∃ t, exec .evEp0Out s = .next t ∧
    t.eprAt 0 = Epr.withStatRx (Epr.withCtrRx (s.eprAt 0) false) .valid ∧
    SlotsSameBut s t 0 ∧ SameButEpr s t ∧ BytesSame s t

/-- R186: EV_EP0_TX clears CTR_TX, commits a pending address and clears `pending`, re-arms receive, and
changes nothing else. -/
def Obligations.TxStageCommitsTheAddress : Prop :=
  ∀ s : State, ∃ t, exec .evEp0Tx s = .next t ∧
    t.eprAt 0 = Epr.withStatRx (Epr.withCtrTx (s.eprAt 0) false) .valid ∧
    SlotsSameBut s t 0 ∧ BytesSame s t ∧
    (s.pending ≠ 0#16 →
      t.daddr = 0x0080#16 ||| (s.pending.extractLsb' 0 7).setWidth 16 ∧ t.pending = 0#16) ∧
    (s.pending = 0#16 → t.daddr = s.daddr ∧ t.pending = s.pending) ∧
    { t with epr := s.epr, daddr := s.daddr, pending := s.pending } = s

/-- R173, R326: EV_CTR_EP0 serves the receive side first and then the transmit side, each where its flag
is set, and does nothing where neither is; the reported direction is not used. -/
def Obligations.Ep0HandlerOrder : Prop :=
  ∀ (dirBit : BitVec 1) (s : State),
    (Epr.ctrRx (s.eprAt 0) = false → Epr.ctrTx (s.eprAt 0) = false →
      exec (.evCtrEp0 dirBit) s = .next s) ∧
    (Epr.ctrRx (s.eprAt 0) = false → Epr.ctrTx (s.eprAt 0) = true →
      exec (.evCtrEp0 dirBit) s = exec .evEp0Tx s) ∧
    (∀ u, s.fault = none → Epr.ctrRx (s.eprAt 0) = true →
      exec (if Epr.setupFlag (s.eprAt 0) then .evEp0Setup else .evEp0Out) s = .next u →
      u.fault = none →
      exec (.evCtrEp0 dirBit) s =
        if Epr.ctrTx (s.eprAt 0) then exec .evEp0Tx u else .next u)

/-- R173, R35: in a ready block EV_CTR_EP0 completes, with both completion flags of slot 0 clear and every
other slot unchanged. -/
def Obligations.Ep0HandlerCompletes : Prop :=
  ∀ (dirBit : BitVec 1) (s : State), Ready s →
    ∃ t, exec (.evCtrEp0 dirBit) s = .next t ∧ t.fault = s.fault ∧
      Epr.ctrRx (t.eprAt 0) = false ∧ Epr.ctrTx (t.eprAt 0) = false ∧
      Epr.setupFlag (t.eprAt 0) = Epr.setupFlag (s.eprAt 0) ∧
      (Epr.ctrRx (s.eprAt 0) = true ∨ Epr.ctrTx (s.eprAt 0) = true →
        Epr.statRx (t.eprAt 0) = .valid) ∧
      SlotsSameBut s t 0 ∧
      t.cntr = s.cntr ∧ t.istr = s.istr ∧ t.btable = s.btable ∧ t.hist = s.hist ∧
      BytesSameOutside s t (slotAlloc s.cfg 0).addrTx (slotAlloc s.cfg 0).txCap (bdtBase.toNat + 2) 2

/-- R327 (1): one EV_CTR_EP0 that finds a SET_ADDRESS and an unserved In completion stores the address and
commits it at once. -/
def Obligations.EarlyCommitInOneCall : Prop :=
  ∀ (dirBit : BitVec 1) (bmRequestType : Byte) (wValue wIndex wLength : Half) (s : State),
    Ready s → Epr.ctrRx (s.eprAt 0) = true → Epr.setupFlag (s.eprAt 0) = true →
    Epr.ctrTx (s.eprAt 0) = true → wValue ≠ 0#16 →
    decode (.setup (s.readBytes s.rxAddr0 8)) =
      .ok (.setAddress bmRequestType wValue wIndex wLength) →
    ∃ t, exec (.evCtrEp0 dirBit) s = .next t ∧ t.fault = s.fault ∧
      t.daddr = 0x0080#16 ||| (wValue.extractLsb' 0 7).setWidth 16 ∧ t.pending = 0#16 ∧
      Epr.statTx (t.eprAt 0) = .valid ∧ Epr.statRx (t.eprAt 0) = .valid

/-! ### Dispatch (42_dispatch.md) -/

/-- R152: DISPATCH runs the event that ISTR reports, read once when it starts: endpoint 0 goes to the
control-transfer engine, any other slot to its own handler. Nothing is reported where nothing is
pending (log entry 17). -/
def Obligations.DispatchRunsTheReportedEvent : Prop :=
  ∀ (s : State) (i : Instr), Istr.resetFlag s.istr = false → Istr.ctr s.istrView = true →
    decode (.istr s.istrView) = .ok i → exec .dispatch s = exec i s.takeEpId

/-- R152, R292, R294, R291: an unregistered slot number, and a registered one whose reported direction no
endpoint declares, raise their faults, with the slot and the direction, and change nothing else. -/
def Obligations.DispatchFaults : Prop :=
  ∀ (n : BitVec 4) (dirBit : BitVec 1) (s : State), n ≠ 0#4 → s.fault = none →
    ((∀ e ∈ declaredEndpoints s.cfg, e.number ≠ n) →
      exec (.evCtrEpn n dirBit) s = .next { s with fault := some (.dispatchUnregistered n dirBit) }) ∧
    ((∃ e ∈ declaredEndpoints s.cfg, e.number = n) →
      (∀ e ∈ declaredEndpoints s.cfg, e.number = n →
        e.dir ≠ if dirBit = 1#1 then .dirOut else .dirIn) →
      exec (.evCtrEpn n dirBit) s = .next { s with fault := some (.dispatchDirection n dirBit) })

/-- R152, R155, R156: for a declared endpoint of a ready block, EXT_HANDLER, and EV_CTR_EPN with the
direction bit of that endpoint, complete without a fault and change nothing outside the footprint, where
the writes the environment draws lie in the footprint, as `Footprint.admits` tells by the model's choice (log
entry 6). -/
def Obligations.ExtHandlerFrame : Prop :=
  ∀ (e : Endpoint) (s : State), Ready s → e ∈ declaredEndpoints s.cfg →
    ∃ fp, fp.slot.val = e.number.toNat ∧ fp.dir = e.dir ∧ fp.Separate ∧
      fp.countAt = (match e.dir with
        | .dirIn => 8 * e.number.toNat + 2 | .dirOut => 8 * e.number.toNat + 6) ∧
      fp.base = (match e.dir with
        | .dirIn => (slotAlloc s.cfg e.number.toNat).addrTx
        | .dirOut => (slotAlloc s.cfg e.number.toNat).addrRx) ∧
      fp.cap = bufferSize e ∧ fp.limit = s.cfg.pmaSize ∧
      (DrawsAdmitted fp s →
        ∃ t, exec (.extHandler e.number e.dir) s = .next t ∧
          exec (.evCtrEpn e.number (if e.dir = .dirOut then 1#1 else 0#1)) s = .next t ∧
          t.fault = s.fault ∧ HandlerFrame fp s t)

/-- R155: the reference relation admits every value of the footprint: for any values of the two fields,
the count and the buffer, some draw of the environment, a list of writes by the model's choice (log entry
6), makes EXT_HANDLER end with exactly those. -/
def Obligations.ExtHandlerReachesEveryValue : Prop :=
  ∀ (e : Endpoint) (s : State) (c : Bool) (st : Stat) (k : BitVec 10) (bytes : List Byte),
    Ready s → e ∈ declaredEndpoints s.cfg → bytes.length = bufferSize e →
    ∃ ws t, exec (.extHandler e.number e.dir) { s with handlerDraws := [ws] } = .next t ∧
      t.fault = s.fault ∧ t.handlerDraws = [] ∧
      (∀ n : Fin 8, n.val = e.number.toNat → t.eprAt n = halfWord e.dir (s.eprAt n) c st) ∧
      (match e.dir with
        | .dirIn => field (t.readHalf (8 * e.number.toNat + 2)) 0 10 = k ∧
            t.readBytes (slotAlloc s.cfg e.number.toNat).addrTx bytes.length = bytes
        | .dirOut => field (t.readHalf (8 * e.number.toNat + 6)) 0 10 = k ∧
            t.readBytes (slotAlloc s.cfg e.number.toNat).addrRx bytes.length = bytes)

/-- R155, R291, R293: the first write of a handler that lies outside its footprint raises F_UNMODELLED;
the writes before it stay and the ones after it do not happen. Which writes count as outside is the model's
choice (log entry 6): R155 names the places of the footprint and no form for the handler's single writes,
and `Footprint.admits` also shuts out a raw byte or halfword at the offset of COUNT_TX(n) or COUNT_RX(n) and
a whole-register write of EPR[n]. -/
def Obligations.ExtHandlerOutsideFootprintFaults : Prop :=
  ∀ (e : Endpoint) (i : Fin 8) (s : State) (fp : Footprint) (before after : List HandlerWrite)
    (w : HandlerWrite) (rest : List (List HandlerWrite)),
    Ready s → s.fault = none → e ∈ declaredEndpoints s.cfg → i.val = e.number.toNat →
    footprint i e.dir s = .ok fp → (∀ x ∈ before, fp.admits x = true) → fp.admits w = false →
    ∃ u, exec (.extHandler e.number e.dir) { s with handlerDraws := before :: rest } = .next u ∧
      u.fault = none ∧
      exec (.extHandler e.number e.dir) { s with handlerDraws := (before ++ w :: after) :: rest } =
        .next { u with fault := some (.unmodelled .extHandler) }

/-- R152, R245: in a ready block with a completion pending and no fault, DISPATCH and HANDLER complete,
the same way, where no bus reset is pending and the environment draws no handler write. -/
def Obligations.DispatchCompletes : Prop :=
  ∀ s : State, Ready s → s.fault = none → s.handlerDraws = [] → Istr.ctr s.istrView = true →
    Istr.resetFlag s.istr = false →
    ∃ t, exec .dispatch s = .next t ∧ exec .handler s = .next t ∧ t.fault = none ∧
      ∃ n : Fin 8, Istr.epId s.istrView = BitVec.ofNat 4 n.val ∧ SlotsSameBut s t n ∧
      t.cntr = s.cntr ∧ t.istr = s.istr ∧ t.btable = s.btable ∧ t.hist = s.hist

/-! ### Device Controller (45_device_controller.md) -/

/-- R241, R133: Enable of an accepted configuration writes the table, CNTR, ISTR, the pull-up line, the
interrupt enable and `enabled`, and leaves every other register and every other byte; a second Enable
raises F_UNMODELLED and changes nothing else. -/
def Obligations.EnableRunsOnce : Prop :=
  ∀ s : State, Accepted s.cfg →
    (s.enabled = false →
      ∃ t, exec .enable s = .next t ∧
        t.cntr = 0x8400#16 ∧ t.istr = 0x0000#16 ∧ t.irqEn = true ∧ t.enabled = true ∧
        t.pullupLine = true ∧ TableIntact t ∧
        (∀ n, n ≤ maxSlot s.cfg → t.readHalf (8 * n + 2) = 0x0000#16 ∧
          t.readHalf (8 * n + 6) = (slotAlloc s.cfg n).countRxInit) ∧
        (∀ x, ¬ InRange x 0 (8 * (maxSlot s.cfg + 1)) → t.readByte x = s.readByte x) ∧
        { t with cntr := s.cntr, istr := s.istr, irqEn := s.irqEn, enabled := s.enabled,
                 pullup := s.pullup, pma := s.pma } = s) ∧
    (s.enabled = true → s.fault = none →
      exec .enable s = .next { s with fault := some (.unmodelled .enable) })

/-- R242, R324: Reset, and the EV_BUS_RESET event that runs it, write CNTR, ISTR, BTABLE, DADDR, slot 0 and
every declared half with its slot's address and type, and leave everything else: the other half of such a
slot, its SETUP flag and toggles, and every other slot. -/
def Obligations.ResetReinitialises : Prop :=
  ∀ s : State, Accepted s.cfg →
    ∃ t, exec .reset s = .next t ∧ exec .evBusReset s = .next t ∧
      t.cntr = 0x8400#16 ∧ t.istr = 0x0000#16 ∧ t.btable = 0x0000#16 ∧ t.daddr = 0x0080#16 ∧
      t.eprAt 0 = 0x3220#16 ∧
      (∀ e ∈ declaredEndpoints s.cfg, ∀ n : Fin 8, n.val = e.number.toNat →
        Epr.ea (t.eprAt n) = e.number ∧ Epr.epType (t.eprAt n) = epTypeBits e.epType ∧
        Epr.epKind (t.eprAt n) = false ∧ halfCompletion e.dir (t.eprAt n) = false ∧
        halfStat e.dir (t.eprAt n) = match e.dir with | .dirIn => .nak | .dirOut => .valid) ∧
      (∀ n : Fin 8, ∀ d, registered s.cfg (BitVec.ofNat 4 n.val) d = false →
        halfCompletion d (t.eprAt n) = halfCompletion d (s.eprAt n) ∧
        halfStat d (t.eprAt n) = halfStat d (s.eprAt n)) ∧
      (∀ n : Fin 8, n ≠ 0 → (∀ e ∈ declaredEndpoints s.cfg, n.val ≠ e.number.toNat) →
        t.eprAt n = s.eprAt n) ∧
      (∀ n : Fin 8, n ≠ 0 → Epr.setupFlag (t.eprAt n) = Epr.setupFlag (s.eprAt n) ∧
        Epr.dtogRx (t.eprAt n) = Epr.dtogRx (s.eprAt n) ∧
        Epr.dtogTx (t.eprAt n) = Epr.dtogTx (s.eprAt n)) ∧
      t.pending = (if s.params.resetClearsPending then 0x0000#16 else s.pending) ∧
      { t with cntr := s.cntr, istr := s.istr, btable := s.btable, daddr := s.daddr, epr := s.epr,
               pending := s.pending } = s

/-- R242, R324: Reset is idempotent. -/
def Obligations.ResetIsIdempotent : Prop :=
  ∀ s t : State, exec .reset s = .next t → exec .reset t = .next t

/-- R243: EP0_RESET makes EPR[0] 0x3220 and changes nothing else. -/
def Obligations.Ep0ResetValue : Prop :=
  ∀ s : State, ∃ t, exec .ep0Reset s = .next t ∧ t.eprAt 0 = 0x3220#16 ∧ SlotsSameBut s t 0 ∧
    SameButEpr s t

/-- R244: CONFIG_RESET of a configuration whose endpoint numbers exist and whose slots agree on their type
writes each declared half, with the slot's address and type, and leaves the other half's status and
completion, and every slot no endpoint of it names. A number that is NUM_EP_SLOTS or more is refused (R298
code 20; the model's reading, log entry 16). -/
def Obligations.ConfigResetWritesDeclaredHalves : Prop :=
  ∀ (c : Configuration) (s : State), WellFormed (.configReset c) →
    ((∃ e ∈ c.endpoints, s.cfg.numEpSlots ≤ e.number.toNat) →
      exec (.configReset c) s = .refused (.configRefused [.endpointNumber])) ∧
    ((∀ e ∈ c.endpoints, e.number.toNat < s.cfg.numEpSlots) →
    (∀ e ∈ c.endpoints, ∀ f ∈ c.endpoints, e.number = f.number → e.epType = f.epType) →
    ∃ t, exec (.configReset c) s = .next t ∧
      (∀ e ∈ c.endpoints, ∀ n : Fin 8, n.val = e.number.toNat →
        Epr.ea (t.eprAt n) = e.number ∧ Epr.epType (t.eprAt n) = epTypeBits e.epType ∧
        Epr.epKind (t.eprAt n) = false ∧ halfCompletion e.dir (t.eprAt n) = false ∧
        halfStat e.dir (t.eprAt n) = match e.dir with | .dirIn => .nak | .dirOut => .valid) ∧
      (∀ n : Fin 8, ∀ d, (∀ e ∈ c.endpoints, ¬ (n.val = e.number.toNat ∧ e.dir = d)) →
        halfCompletion d (t.eprAt n) = halfCompletion d (s.eprAt n) ∧
        halfStat d (t.eprAt n) = halfStat d (s.eprAt n)) ∧
      (∀ n : Fin 8, (∀ e ∈ c.endpoints, n.val ≠ e.number.toNat) → t.eprAt n = s.eprAt n) ∧
      (∀ n : Fin 8, Epr.setupFlag (t.eprAt n) = Epr.setupFlag (s.eprAt n) ∧
        Epr.dtogRx (t.eprAt n) = Epr.dtogRx (s.eprAt n) ∧
        Epr.dtogTx (t.eprAt n) = Epr.dtogTx (s.eprAt n)) ∧
      SameButEpr s t)

/-- R245, R246, R299 (1): HANDLER makes both tests, the reset test first: with RESET set it runs Reset, and
then DISPATCH where CTR is set as it reads after that; without RESET it runs DISPATCH where CTR is set,
and with neither it changes nothing. The acknowledgement changes nothing. -/
def Obligations.HandlerOrder : Prop :=
  ∀ s : State, exec .ackInterrupt s = .next s ∧
    (Istr.resetFlag s.istrView = false → Istr.ctr s.istrView = false → exec .handler s = .next s) ∧
    (Istr.resetFlag s.istrView = false → Istr.ctr s.istrView = true →
      exec .handler s = exec .dispatch s) ∧
    (Accepted s.cfg → Istr.resetFlag s.istrView = true →
      ∃ u, exec .reset s = .next u ∧
        exec .handler s = if Istr.ctr u.istrView then exec .dispatch u else .next u)

/-! ### Endpoint Buffer Manager (41_buffer_manager.md) -/

/-- R132, R39: for 1 to 1023 bytes the initial count value has COUNT = 0 and the capacity rxSize, which
holds them, and no value of the size field expresses a smaller capacity that does. -/
def Obligations.RxSizeIsTheSmallestCapacity : Prop :=
  ∀ m : Nat, 1 ≤ m → m ≤ 1023 →
    rxCapOf (rxCountInit m) = rxSize m ∧ field (rxCountInit m) 0 10 = 0#10 ∧ m ≤ rxSize m ∧
    ∀ v : Half, m ≤ rxCapOf v → rxSize m ≤ rxCapOf v

/-- R134, R131: BM_ALLOCATE of an accepted configuration gives an allocation whose table and buffers are
pairwise disjoint, even, inside packet memory, and large enough for every endpoint. Where the result is
kept is the model's choice (log entry 14). -/
def Obligations.AllocationProperties : Prop :=
  ∀ s : State, Accepted s.cfg →
    ∃ a, exec .bmAllocate s = .next { s with result := .allocation a } ∧
      (assignedRanges s.cfg a).Pairwise Apart ∧
      (∀ r ∈ assignedRanges s.cfg a, r.1 % 2 = 0 ∧ r.1 + r.2 ≤ s.cfg.pmaSize) ∧
      bdtBase.toNat % 8 = 0 ∧
      s.cfg.mps0.toNat ≤ (a.entries.getD 0 SlotAlloc.empty).txCap ∧
      s.cfg.mps0.toNat ≤ rxCapOf (a.entries.getD 0 SlotAlloc.empty).countRxInit ∧
      (∀ e ∈ declaredEndpoints s.cfg, e.number.toNat ≤ a.maxSlot ∧ e.mps.toNat ≤
        match e.dir with
        | .dirIn => (a.entries.getD e.number.toNat SlotAlloc.empty).txCap
        | .dirOut => rxCapOf (a.entries.getD e.number.toNat SlotAlloc.empty).countRxInit)

/-- R133: BM_INIT writes the four halfwords of each entry, and no register and no other byte. -/
def Obligations.BmInitWritesTheTable : Prop :=
  ∀ s : State, Accepted s.cfg →
    ∃ t, exec .bmInit s = .next t ∧
      (∀ n, n ≤ maxSlot s.cfg →
        t.readHalf (8 * n) = BitVec.ofNat 16 (slotAlloc s.cfg n).addrTx ∧
        t.readHalf (8 * n + 2) = 0x0000#16 ∧
        t.readHalf (8 * n + 4) = BitVec.ofNat 16 (slotAlloc s.cfg n).addrRx ∧
        t.readHalf (8 * n + 6) = (slotAlloc s.cfg n).countRxInit) ∧
      (∀ x, ¬ InRange x 0 (8 * (maxSlot s.cfg + 1)) → t.readByte x = s.readByte x) ∧
      { t with pma := s.pma } = s

/-! ### Descriptor Composer (44_descriptor_composer.md) -/

/-- R211, R98: the device descriptor of a configuration whose count fits its byte has 18 bytes, each as the
layout says; nothing but the result changes, which is kept by the model's choice (log entry 14). A count that
does not fit is refused. -/
def Obligations.DeviceDescriptorLayout : Prop :=
  ∀ s : State, (255 < s.cfg.configs.length →
    exec .deviceDescriptorBytes s = .refused (.configRefused [.fieldRange])) ∧
    (s.cfg.configs.length ≤ 255 → ∃ b : List Byte,
    exec .deviceDescriptorBytes s = .next { s with result := .bytes b } ∧ b.length = 18 ∧
    b[0]? = some 0x12#8 ∧ b[1]? = some 0x01#8 ∧
    u16le (b.getD 2 0#8) (b.getD 3 0#8) = s.cfg.bcdUSB ∧
    b[4]? = some s.cfg.devClass ∧ b[5]? = some s.cfg.devSubClass ∧ b[6]? = some s.cfg.devProtocol ∧
    b[7]? = some s.cfg.mps0 ∧
    u16le (b.getD 8 0#8) (b.getD 9 0#8) = s.cfg.idVendor ∧
    u16le (b.getD 10 0#8) (b.getD 11 0#8) = s.cfg.idProduct ∧
    u16le (b.getD 12 0#8) (b.getD 13 0#8) = s.cfg.bcdDevice ∧
    b[14]? = some 0#8 ∧ b[15]? = some 0#8 ∧ b[16]? = some 0#8 ∧
    b[17]? = some (BitVec.ofNat 8 s.cfg.configs.length))

/-- R212 to R217: COMPOSE_CONFIG gives the header, whose wTotalLength is the length of the whole, and then
for each interface its record, its blob and its endpoint records, in declaration order, where the result
fits the scratch buffer and one packet; nothing but the result changes, which is kept by the model's choice
(log entry 14). -/
def Obligations.ComposeConfigStream : Prop :=
  ∀ (c : Configuration) (s : State),
    configTotal c ≤ s.cfg.scratchCap → configTotal c ≤ s.cfg.mps0.toNat →
    ∃ b : List Byte, exec (.composeConfig c) s = .next { s with result := .bytes b } ∧
      b = [0x09#8, 0x02#8, BitVec.ofNat 8 b.length, 0x00#8, BitVec.ofNat 8 c.interfaces.length,
           c.bConfigurationValue, 0x00#8, c.bmAttributes, c.bMaxPower] ++
        c.interfaces.flatMap fun i =>
          [0x09#8, 0x04#8, i.bInterfaceNumber, i.bAlternateSetting,
           BitVec.ofNat 8 i.endpoints.length, i.ifClass, i.ifSubClass, i.ifProtocol, 0x00#8] ++
          i.classBlob ++
          i.endpoints.flatMap fun e =>
            [0x07#8, 0x05#8,
             BitVec.ofNat 8 (e.number.toNat + match e.dir with | .dirIn => 128 | .dirOut => 0),
             (match e.epType with
               | .isochronous => 0x01#8 | .bulk => 0x02#8 | .interrupt => 0x03#8),
             e.mps.extractLsb' 0 8, e.mps.extractLsb' 8 8, e.bInterval]

/-! ### The bus (46_bus_environment.md) -/

/-- R261 to R263: a token that is not for this device, or that no slot answers in the half it uses, and a
SETUP that a slot of another type than CONTROL answers, change nothing but the history, which tells that
there was no response. -/
def Obligations.UnansweredTokensOnlyObserve : Prop :=
  ∀ (a : BitVec 7) (ep : BitVec 4) (data : List Byte) (s : State),
    (data.length = 8 →
      (s.forThisDevice a = false ∨
        (∀ n : Fin 8, n.val < s.cfg.numEpSlots →
          Epr.ea (s.eprAt n) ≠ ep ∨ Epr.statRx (s.eprAt n) = .disabled) ∨
        (∃ n, s.slotFor ep .dirOut = some n ∧ Epr.epType (s.eprAt n) ≠ 0b01#2)) →
      exec (.busSetup a ep data) s =
        .next { s with hist := s.hist ++ [.setup a ep data .noResponse] }) ∧
    (data.length ≤ 1023 →
      (s.forThisDevice a = false ∨
        (∀ n : Fin 8, n.val < s.cfg.numEpSlots →
          Epr.ea (s.eprAt n) ≠ ep ∨ Epr.statRx (s.eprAt n) = .disabled)) →
      exec (.busOut a ep data) s =
        .next { s with hist := s.hist ++ [.out a ep data .noResponse] }) ∧
    ((s.forThisDevice a = false ∨
        (∀ n : Fin 8, n.val < s.cfg.numEpSlots →
          Epr.ea (s.eprAt n) ≠ ep ∨ Epr.statTx (s.eprAt n) = .disabled)) →
      exec (.busIn a ep) s = .next { s with hist := s.hist ++ [.inToken a ep .noResponse] })

/-- R263: a SETUP for this device on a CONTROL slot is accepted whatever STAT_RX is (but DISABLED): the 8
bytes and the count are written, SETUP and CTR_RX set, both halves NAK, and nothing else changes. -/
def Obligations.BusSetupIsAccepted : Prop :=
  ∀ (a : BitVec 7) (ep : BitVec 4) (data : List Byte) (s : State) (n : Fin 8), data.length = 8 →
    s.forThisDevice a = true → s.slotFor ep .dirOut = some n →
    Epr.epType (s.eprAt n) = 0b01#2 →
    s.accessOk (s.bdt n.val + 4) 2 = true → s.accessOk (s.bdt n.val + 6) 2 = true →
    s.accessOk (s.readHalf (s.bdt n.val + 4)).toNat 8 = true →
    (∀ x, ¬ (InRange x (s.readHalf (s.bdt n.val + 4)).toNat 8 ∧ InRange x (s.bdt n.val + 6) 2)) →
    ∃ t, exec (.busSetup a ep data) s = .next t ∧
      t.readBytes (s.readHalf (s.bdt n.val + 4)).toNat 8 = data ∧
      t.readHalf (s.bdt n.val + 6) = withField (s.readHalf (s.bdt n.val + 6)) 0 8#10 ∧
      t.eprAt n = Epr.withStatTx (Epr.withStatRx (Epr.withCtrRx (Epr.withSetup (s.eprAt n) true) true)
        .nak) .nak ∧
      t.hist = s.hist ++ [.setup a ep data .ack] ∧ SlotsSameBut s t n ∧
      BytesSameOutside s t (s.readHalf (s.bdt n.val + 4)).toNat 8 (s.bdt n.val + 6) 2 ∧
      SameButBus s t

/-- R264: an OUT to a slot is answered by STAT_RX: STALL and NAK change nothing but the history; with VALID
a packet that fits is stored, and one that does not gets no response and changes nothing. -/
def Obligations.BusOutByStatus : Prop :=
  ∀ (a : BitVec 7) (ep : BitVec 4) (data : List Byte) (s : State) (n : Fin 8), data.length ≤ 1023 →
    s.forThisDevice a = true → s.slotFor ep .dirOut = some n →
    (Epr.statRx (s.eprAt n) = .stall → exec (.busOut a ep data) s =
      .next { s with hist := s.hist ++ [.out a ep data .stall] }) ∧
    (Epr.statRx (s.eprAt n) = .nak → exec (.busOut a ep data) s =
      .next { s with hist := s.hist ++ [.out a ep data .nak] }) ∧
    (Epr.statRx (s.eprAt n) = .valid → s.accessOk (s.bdt n.val + 6) 2 = true →
      rxCapOf (s.readHalf (s.bdt n.val + 6)) < data.length → exec (.busOut a ep data) s =
      .next { s with hist := s.hist ++ [.out a ep data .noResponse] }) ∧
    (Epr.statRx (s.eprAt n) = .valid → s.accessOk (s.bdt n.val + 6) 2 = true →
      data.length ≤ rxCapOf (s.readHalf (s.bdt n.val + 6)) → s.accessOk (s.bdt n.val + 4) 2 = true →
      s.accessOk (s.readHalf (s.bdt n.val + 4)).toNat data.length = true →
      (∀ x, ¬ (InRange x (s.readHalf (s.bdt n.val + 4)).toNat (data.length + data.length % 2) ∧
        InRange x (s.bdt n.val + 6) 2)) →
      ∃ t, exec (.busOut a ep data) s = .next t ∧
        t.readBytes (s.readHalf (s.bdt n.val + 4)).toNat data.length = data ∧
        t.readHalf (s.bdt n.val + 6) =
          withField (s.readHalf (s.bdt n.val + 6)) 0 (BitVec.ofNat 10 data.length) ∧
        t.eprAt n = Epr.withStatRx (Epr.withCtrRx (Epr.withSetup (s.eprAt n) false) true) .nak ∧
        t.hist = s.hist ++ [.out a ep data .ack] ∧ SlotsSameBut s t n ∧
        BytesSameOutside s t (s.readHalf (s.bdt n.val + 4)).toNat (data.length + data.length % 2)
          (s.bdt n.val + 6) 2 ∧
        SameButBus s t)

/-- R265: an IN to a slot is answered by STAT_TX: STALL and NAK change nothing but the history; with VALID
the host sees the COUNT_TX bytes of the transmit buffer, CTR_TX is set and STAT_TX is NAK, and nothing
else changes, so DADDR is as before. -/
def Obligations.BusInByStatus : Prop :=
  ∀ (a : BitVec 7) (ep : BitVec 4) (s : State) (n : Fin 8),
    s.forThisDevice a = true → s.slotFor ep .dirIn = some n →
    (Epr.statTx (s.eprAt n) = .stall → exec (.busIn a ep) s =
      .next { s with hist := s.hist ++ [.inToken a ep .stall] }) ∧
    (Epr.statTx (s.eprAt n) = .nak → exec (.busIn a ep) s =
      .next { s with hist := s.hist ++ [.inToken a ep .nak] }) ∧
    (Epr.statTx (s.eprAt n) = .valid → s.accessOk (s.bdt n.val) 2 = true →
      s.accessOk (s.bdt n.val + 2) 2 = true →
      s.accessOk (s.readHalf (s.bdt n.val)).toNat (field (s.readHalf (s.bdt n.val + 2)) 0 10).toNat = true →
      ∃ t, exec (.busIn a ep) s = .next t ∧
        t.eprAt n = Epr.withStatTx (Epr.withCtrTx (s.eprAt n) true) .nak ∧
        t.hist = s.hist ++ [.inToken a ep (.data (s.readBytes (s.readHalf (s.bdt n.val)).toNat
          (field (s.readHalf (s.bdt n.val + 2)) 0 10).toNat))] ∧
        SlotsSameBut s t n ∧ BytesSame s t ∧ { t with epr := s.epr, hist := s.hist } = s)

/-- R266, R269: a bus reset of an attached device sets ISTR.RESET, clears DADDR and every endpoint
register, and leaves everything else. Without attachment the step is not enabled; that it then changes
nothing, the history included, is the model's choice (log entry 24). -/
def Obligations.BusResetClearsTheDevice : Prop :=
  ∀ s : State,
    (s.attached = true → ∃ t, exec .busReset s = .next t ∧
      t.istr = s.istr ||| 0x0400#16 ∧ t.daddr = 0x0000#16 ∧ (∀ n, t.eprAt n = 0x0000#16) ∧
      t.hist = s.hist ++ [.busReset] ∧ BytesSame s t ∧
      { t with istr := s.istr, daddr := s.daddr, epr := s.epr, hist := s.hist } = s) ∧
    (s.attached = false → exec .busReset s = .next s)

/-! ### Rules of the whole machine -/

/-- Every step keeps the invariant. -/
def Obligations.StepKeepsInv : Prop := ∀ s t : State, Inv s → step s = .next t → Inv t

/-- R41 to R43: nothing clears `fault`, `enabled` and `irqEn`, and a recorded fault stays the same one. -/
def Obligations.StickyFlags : Prop :=
  ∀ s t : State, step s = .next t →
    (s.enabled = true → t.enabled = true) ∧ (s.irqEn = true → t.irqEn = true) ∧
    (s.pullupLine = true → t.pullupLine = true) ∧ (∀ f, s.fault = some f → t.fault = some f)

/-- R293: from a faulted state no block step is taken: a step only uses up an input, or is the bus operation
that the next input decodes to, so what only the block writes never changes again. -/
def Obligations.FaultStopsTheBlock : Prop :=
  ∀ s t : State, s.fault ≠ none → step s = .next t →
    (t = s.withInputs s.inputs.tail ∨ ∃ bs i, s.inputs.head? = some (.bus bs) ∧
      decode (.input (.bus bs)) = .ok i ∧ BusInstr i ∧
      exec i (s.withInputs s.inputs.tail) = .next t) ∧
    t.pending = s.pending ∧ t.cntr = s.cntr ∧ t.btable = s.btable ∧ t.irqEn = s.irqEn ∧
    t.enabled = s.enabled ∧ t.fault = s.fault ∧ t.handlerDraws = s.handlerDraws ∧
    t.epIdDraws = s.epIdDraws ∧ (t.daddr = s.daddr ∨ t.daddr = 0x0000#16)

/-- R7, R260, R270: no step changes the configuration or the parameters, and a step appends at most one
observation to the history. -/
def Obligations.ConfigurationFixedHistoryGrows : Prop :=
  ∀ s t : State, step s = .next t →
    t.cfg = s.cfg ∧ t.params = s.params ∧ (t.hist = s.hist ∨ ∃ o, t.hist = s.hist ++ [o])

/-- R188: DADDR changes only in TxStage, Reset and bus reset: a step that changes it leaves 0, or the
default address with RESET cleared, or is a call that served a transmit completion of endpoint 0 and
cleared `pending`. -/
def Obligations.WhenDaddrChanges : Prop :=
  ∀ s t : State, step s = .next t → t.daddr ≠ s.daddr →
    (t.daddr = 0x0000#16 ∧ Istr.resetFlag t.istr = true) ∨
    (t.daddr = 0x0080#16 ∧ Istr.resetFlag s.istr = true ∧ Istr.resetFlag t.istr = false) ∨
    (Epr.ctrTx (s.eprAt 0) = true ∧ Epr.ctrTx (t.eprAt 0) = false ∧ t.pending = 0#16 ∧
      ∃ a, t.daddr = Daddr.enabledAt a)

/-- R154: under the invariant no step raises either dispatch fault. -/
def Obligations.DispatchFaultsUnreachable : Prop :=
  ∀ s t : State, Inv s → s.fault = none → step s = .next t →
    ∀ n d, t.fault ≠ some (.dispatchUnregistered n d) ∧ t.fault ≠ some (.dispatchDirection n d)

/-- R189: the phases. A SETUP leads to SetupReceived; a SetupStage from there to StatusStagePending if the
response was staged and to Idle if it stalled with `pending = 0`; an In completion and its TxStage to
Idle; a bus reset and Reset to Idle, with `pending = 0`. -/
def Obligations.PhaseTransitions : Prop :=
  ∀ s : State, Ready s →
    (∀ a data t, data.length = 8 → exec (.busSetup a 0#4 data) s = .next t →
      t.hist = s.hist ++ [.setup a 0#4 data .ack] → s.slotFor 0#4 .dirOut = some 0 →
      t.phase = .setupReceived) ∧
    (∀ t, s.phase = .setupReceived → exec .evEp0Setup s = .next t →
      (Epr.statTx (t.eprAt 0) = .valid → t.phase = .statusStagePending) ∧
      (Epr.statTx (t.eprAt 0) = .stall → t.pending = 0#16 → t.phase = .idle)) ∧
    (∀ a bytes t u, s.phase = .statusStagePending → s.slotFor 0#4 .dirIn = some 0 →
      exec (.busIn a 0#4) s = .next t → t.hist = s.hist ++ [.inToken a 0#4 (.data bytes)] →
      exec .evEp0Tx t = .next u → u.phase = .idle) ∧
    (∀ t u, s.pending = 0#16 → exec .busReset s = .next t → exec .evBusReset t = .next u →
      u.phase = .idle)

/-- R323, R324: after a bus reset and the Handler call that serves it, a ready block without a fault waits
at address 0, whatever it was doing, with its table as it was. -/
def Obligations.BusResetRecovers : Prop :=
  ∀ (s : State) (rest : List Input), Ready s → s.fault = none →
    s.inputs = .bus [0x00#8] :: .irq :: rest →
    ∃ t, Leads 2 s t ∧ WaitingAt t 0#7 ∧ t.hist = s.hist ++ [.busReset] ∧ t.inputs = rest ∧
      BytesSame s t ∧ t.eprAt 0 = 0x3220#16

/-- R325, R177, R186, R265, R188: a SetAddress transfer at address `a`. The address register is unchanged
after the SETUP is served and after the status-stage IN, which the old address answers with no bytes, and
it becomes the new address in the call that serves that IN; the device then waits at the new address. -/
def Obligations.SetAddressTransfer : Prop :=
  ∀ (s : State) (a : BitVec 7) (bmRequestType : Byte) (wValue wIndex wLength : Half)
    (rest : List Input),
    WaitingAt s a →
    s.inputs = .bus (tokenBytes pidSetup a 0#4 ++ setupBytes bmRequestType 0x05#8 wValue wIndex wLength) ::
      .irq :: .bus (tokenBytes pidIn a 0#4) :: .irq :: rest →
    ∃ t2 t3 t, Leads 2 s t2 ∧ Leads 1 t2 t3 ∧ Leads 1 t3 t ∧
      t2.daddr = s.daddr ∧ t2.pending = wValue ∧ t3.daddr = s.daddr ∧
      t3.hist = s.hist ++ [.setup a 0#4 (setupBytes bmRequestType 0x05#8 wValue wIndex wLength) .ack,
        .inToken a 0#4 (.data [])] ∧
      t.hist = t3.hist ∧ t.inputs = rest ∧ t.pending = 0#16 ∧
      WaitingAt t (if wValue = 0#16 then a else wValue.extractLsb' 0 7)

/-- R171, R174, R176 to R184, R187, R265, R295: what the host sees. For every SETUP packet sent to a
waiting device, the SETUP is acknowledged and, once it is served, the IN observes exactly the first
wLength bytes of the request's response, or STALL where there is none. -/
def Obligations.HostSeesTheResponse : Prop :=
  ∀ (s : State) (a : BitVec 7) (p : List Byte) (i : Instr) (rest : List Input),
    WaitingAt s a → s.params.setConfigFallthrough = false → decode (.setup p) = .ok i →
    s.inputs = .bus (tokenBytes pidSetup a 0#4 ++ p) :: .irq :: .bus (tokenBytes pidIn a 0#4) :: rest →
    ∃ t, Leads 3 s t ∧ t.fault = none ∧ t.daddr = s.daddr ∧ t.inputs = rest ∧
      t.hist = s.hist ++ [.setup a 0#4 p .ack,
        .inToken a 0#4 (hostSees (response s.cfg i) (u16le (p.getD 6 0#8) (p.getD 7 0#8)))]
end

