-- ==== Sys2Proof/Laws/State.lean ====
section
/-! SUPPORT. Which fields of the state an update leaves as they were: one lemma for each field of each
update. -/

namespace Sys2Proof.Machine

@[simp] theorem State.setEpr_cntr (s : State) (n : Fin 8) (w : Half) : (s.setEpr n w).cntr = s.cntr := rfl
@[simp] theorem State.setEpr_istr (s : State) (n : Fin 8) (w : Half) : (s.setEpr n w).istr = s.istr := rfl
@[simp] theorem State.setEpr_daddr (s : State) (n : Fin 8) (w : Half) : (s.setEpr n w).daddr = s.daddr := rfl
@[simp] theorem State.setEpr_btable (s : State) (n : Fin 8) (w : Half) : (s.setEpr n w).btable = s.btable := rfl
@[simp] theorem State.setEpr_pma (s : State) (n : Fin 8) (w : Half) : (s.setEpr n w).pma = s.pma := rfl
@[simp] theorem State.setEpr_pending (s : State) (n : Fin 8) (w : Half) : (s.setEpr n w).pending = s.pending := rfl
@[simp] theorem State.setEpr_irqEn (s : State) (n : Fin 8) (w : Half) : (s.setEpr n w).irqEn = s.irqEn := rfl
@[simp] theorem State.setEpr_pullup (s : State) (n : Fin 8) (w : Half) : (s.setEpr n w).pullup = s.pullup := rfl
@[simp] theorem State.setEpr_enabled (s : State) (n : Fin 8) (w : Half) : (s.setEpr n w).enabled = s.enabled := rfl
@[simp] theorem State.setEpr_fault (s : State) (n : Fin 8) (w : Half) : (s.setEpr n w).fault = s.fault := rfl
@[simp] theorem State.setEpr_hist (s : State) (n : Fin 8) (w : Half) : (s.setEpr n w).hist = s.hist := rfl
@[simp] theorem State.setEpr_cfg (s : State) (n : Fin 8) (w : Half) : (s.setEpr n w).cfg = s.cfg := rfl
@[simp] theorem State.setEpr_params (s : State) (n : Fin 8) (w : Half) : (s.setEpr n w).params = s.params := rfl
@[simp] theorem State.setEpr_inputs (s : State) (n : Fin 8) (w : Half) : (s.setEpr n w).inputs = s.inputs := rfl
@[simp] theorem State.setEpr_padDraws (s : State) (n : Fin 8) (w : Half) : (s.setEpr n w).padDraws = s.padDraws := rfl
@[simp] theorem State.setEpr_epIdDraws (s : State) (n : Fin 8) (w : Half) : (s.setEpr n w).epIdDraws = s.epIdDraws := rfl
@[simp] theorem State.setEpr_handlerDraws (s : State) (n : Fin 8) (w : Half) : (s.setEpr n w).handlerDraws = s.handlerDraws := rfl
@[simp] theorem State.setEpr_drawCount (s : State) (n : Fin 8) (w : Half) : (s.setEpr n w).drawCount = s.drawCount := rfl
@[simp] theorem State.setEpr_result (s : State) (n : Fin 8) (w : Half) : (s.setEpr n w).result = s.result := rfl

@[simp] theorem State.modifyEpr_cntr (s : State) (n : Fin 8) (f : Half → Half) : (s.modifyEpr n f).cntr = s.cntr := rfl
@[simp] theorem State.modifyEpr_istr (s : State) (n : Fin 8) (f : Half → Half) : (s.modifyEpr n f).istr = s.istr := rfl
@[simp] theorem State.modifyEpr_daddr (s : State) (n : Fin 8) (f : Half → Half) : (s.modifyEpr n f).daddr = s.daddr := rfl
@[simp] theorem State.modifyEpr_btable (s : State) (n : Fin 8) (f : Half → Half) : (s.modifyEpr n f).btable = s.btable := rfl
@[simp] theorem State.modifyEpr_pma (s : State) (n : Fin 8) (f : Half → Half) : (s.modifyEpr n f).pma = s.pma := rfl
@[simp] theorem State.modifyEpr_pending (s : State) (n : Fin 8) (f : Half → Half) : (s.modifyEpr n f).pending = s.pending := rfl
@[simp] theorem State.modifyEpr_irqEn (s : State) (n : Fin 8) (f : Half → Half) : (s.modifyEpr n f).irqEn = s.irqEn := rfl
@[simp] theorem State.modifyEpr_pullup (s : State) (n : Fin 8) (f : Half → Half) : (s.modifyEpr n f).pullup = s.pullup := rfl
@[simp] theorem State.modifyEpr_enabled (s : State) (n : Fin 8) (f : Half → Half) : (s.modifyEpr n f).enabled = s.enabled := rfl
@[simp] theorem State.modifyEpr_fault (s : State) (n : Fin 8) (f : Half → Half) : (s.modifyEpr n f).fault = s.fault := rfl
@[simp] theorem State.modifyEpr_hist (s : State) (n : Fin 8) (f : Half → Half) : (s.modifyEpr n f).hist = s.hist := rfl
@[simp] theorem State.modifyEpr_cfg (s : State) (n : Fin 8) (f : Half → Half) : (s.modifyEpr n f).cfg = s.cfg := rfl
@[simp] theorem State.modifyEpr_params (s : State) (n : Fin 8) (f : Half → Half) : (s.modifyEpr n f).params = s.params := rfl
@[simp] theorem State.modifyEpr_inputs (s : State) (n : Fin 8) (f : Half → Half) : (s.modifyEpr n f).inputs = s.inputs := rfl
@[simp] theorem State.modifyEpr_padDraws (s : State) (n : Fin 8) (f : Half → Half) : (s.modifyEpr n f).padDraws = s.padDraws := rfl
@[simp] theorem State.modifyEpr_epIdDraws (s : State) (n : Fin 8) (f : Half → Half) : (s.modifyEpr n f).epIdDraws = s.epIdDraws := rfl
@[simp] theorem State.modifyEpr_handlerDraws (s : State) (n : Fin 8) (f : Half → Half) : (s.modifyEpr n f).handlerDraws = s.handlerDraws := rfl
@[simp] theorem State.modifyEpr_drawCount (s : State) (n : Fin 8) (f : Half → Half) : (s.modifyEpr n f).drawCount = s.drawCount := rfl
@[simp] theorem State.modifyEpr_result (s : State) (n : Fin 8) (f : Half → Half) : (s.modifyEpr n f).result = s.result := rfl

@[simp] theorem State.writeBytes_cntr (s : State) (a : Nat) (bs : List Byte) : (s.writeBytes a bs).cntr = s.cntr := rfl
@[simp] theorem State.writeBytes_istr (s : State) (a : Nat) (bs : List Byte) : (s.writeBytes a bs).istr = s.istr := rfl
@[simp] theorem State.writeBytes_daddr (s : State) (a : Nat) (bs : List Byte) : (s.writeBytes a bs).daddr = s.daddr := rfl
@[simp] theorem State.writeBytes_btable (s : State) (a : Nat) (bs : List Byte) : (s.writeBytes a bs).btable = s.btable := rfl
@[simp] theorem State.writeBytes_epr (s : State) (a : Nat) (bs : List Byte) : (s.writeBytes a bs).epr = s.epr := rfl
@[simp] theorem State.writeBytes_pending (s : State) (a : Nat) (bs : List Byte) : (s.writeBytes a bs).pending = s.pending := rfl
@[simp] theorem State.writeBytes_irqEn (s : State) (a : Nat) (bs : List Byte) : (s.writeBytes a bs).irqEn = s.irqEn := rfl
@[simp] theorem State.writeBytes_pullup (s : State) (a : Nat) (bs : List Byte) : (s.writeBytes a bs).pullup = s.pullup := rfl
@[simp] theorem State.writeBytes_enabled (s : State) (a : Nat) (bs : List Byte) : (s.writeBytes a bs).enabled = s.enabled := rfl
@[simp] theorem State.writeBytes_fault (s : State) (a : Nat) (bs : List Byte) : (s.writeBytes a bs).fault = s.fault := rfl
@[simp] theorem State.writeBytes_hist (s : State) (a : Nat) (bs : List Byte) : (s.writeBytes a bs).hist = s.hist := rfl
@[simp] theorem State.writeBytes_cfg (s : State) (a : Nat) (bs : List Byte) : (s.writeBytes a bs).cfg = s.cfg := rfl
@[simp] theorem State.writeBytes_params (s : State) (a : Nat) (bs : List Byte) : (s.writeBytes a bs).params = s.params := rfl
@[simp] theorem State.writeBytes_inputs (s : State) (a : Nat) (bs : List Byte) : (s.writeBytes a bs).inputs = s.inputs := rfl
@[simp] theorem State.writeBytes_padDraws (s : State) (a : Nat) (bs : List Byte) : (s.writeBytes a bs).padDraws = s.padDraws := rfl
@[simp] theorem State.writeBytes_epIdDraws (s : State) (a : Nat) (bs : List Byte) : (s.writeBytes a bs).epIdDraws = s.epIdDraws := rfl
@[simp] theorem State.writeBytes_handlerDraws (s : State) (a : Nat) (bs : List Byte) : (s.writeBytes a bs).handlerDraws = s.handlerDraws := rfl
@[simp] theorem State.writeBytes_drawCount (s : State) (a : Nat) (bs : List Byte) : (s.writeBytes a bs).drawCount = s.drawCount := rfl
@[simp] theorem State.writeBytes_result (s : State) (a : Nat) (bs : List Byte) : (s.writeBytes a bs).result = s.result := rfl

@[simp] theorem State.writeHalf_cntr (s : State) (a : Nat) (v : Half) : (s.writeHalf a v).cntr = s.cntr := rfl
@[simp] theorem State.writeHalf_istr (s : State) (a : Nat) (v : Half) : (s.writeHalf a v).istr = s.istr := rfl
@[simp] theorem State.writeHalf_daddr (s : State) (a : Nat) (v : Half) : (s.writeHalf a v).daddr = s.daddr := rfl
@[simp] theorem State.writeHalf_btable (s : State) (a : Nat) (v : Half) : (s.writeHalf a v).btable = s.btable := rfl
@[simp] theorem State.writeHalf_epr (s : State) (a : Nat) (v : Half) : (s.writeHalf a v).epr = s.epr := rfl
@[simp] theorem State.writeHalf_pending (s : State) (a : Nat) (v : Half) : (s.writeHalf a v).pending = s.pending := rfl
@[simp] theorem State.writeHalf_irqEn (s : State) (a : Nat) (v : Half) : (s.writeHalf a v).irqEn = s.irqEn := rfl
@[simp] theorem State.writeHalf_pullup (s : State) (a : Nat) (v : Half) : (s.writeHalf a v).pullup = s.pullup := rfl
@[simp] theorem State.writeHalf_enabled (s : State) (a : Nat) (v : Half) : (s.writeHalf a v).enabled = s.enabled := rfl
@[simp] theorem State.writeHalf_fault (s : State) (a : Nat) (v : Half) : (s.writeHalf a v).fault = s.fault := rfl
@[simp] theorem State.writeHalf_hist (s : State) (a : Nat) (v : Half) : (s.writeHalf a v).hist = s.hist := rfl
@[simp] theorem State.writeHalf_cfg (s : State) (a : Nat) (v : Half) : (s.writeHalf a v).cfg = s.cfg := rfl
@[simp] theorem State.writeHalf_params (s : State) (a : Nat) (v : Half) : (s.writeHalf a v).params = s.params := rfl
@[simp] theorem State.writeHalf_inputs (s : State) (a : Nat) (v : Half) : (s.writeHalf a v).inputs = s.inputs := rfl
@[simp] theorem State.writeHalf_padDraws (s : State) (a : Nat) (v : Half) : (s.writeHalf a v).padDraws = s.padDraws := rfl
@[simp] theorem State.writeHalf_epIdDraws (s : State) (a : Nat) (v : Half) : (s.writeHalf a v).epIdDraws = s.epIdDraws := rfl
@[simp] theorem State.writeHalf_handlerDraws (s : State) (a : Nat) (v : Half) : (s.writeHalf a v).handlerDraws = s.handlerDraws := rfl
@[simp] theorem State.writeHalf_drawCount (s : State) (a : Nat) (v : Half) : (s.writeHalf a v).drawCount = s.drawCount := rfl
@[simp] theorem State.writeHalf_result (s : State) (a : Nat) (v : Half) : (s.writeHalf a v).result = s.result := rfl

@[simp] theorem State.stallTx_cntr (s : State) : s.stallTx.cntr = s.cntr := rfl
@[simp] theorem State.stallTx_istr (s : State) : s.stallTx.istr = s.istr := rfl
@[simp] theorem State.stallTx_daddr (s : State) : s.stallTx.daddr = s.daddr := rfl
@[simp] theorem State.stallTx_btable (s : State) : s.stallTx.btable = s.btable := rfl
@[simp] theorem State.stallTx_pma (s : State) : s.stallTx.pma = s.pma := rfl
@[simp] theorem State.stallTx_pending (s : State) : s.stallTx.pending = s.pending := rfl
@[simp] theorem State.stallTx_irqEn (s : State) : s.stallTx.irqEn = s.irqEn := rfl
@[simp] theorem State.stallTx_pullup (s : State) : s.stallTx.pullup = s.pullup := rfl
@[simp] theorem State.stallTx_enabled (s : State) : s.stallTx.enabled = s.enabled := rfl
@[simp] theorem State.stallTx_fault (s : State) : s.stallTx.fault = s.fault := rfl
@[simp] theorem State.stallTx_hist (s : State) : s.stallTx.hist = s.hist := rfl
@[simp] theorem State.stallTx_cfg (s : State) : s.stallTx.cfg = s.cfg := rfl
@[simp] theorem State.stallTx_params (s : State) : s.stallTx.params = s.params := rfl
@[simp] theorem State.stallTx_inputs (s : State) : s.stallTx.inputs = s.inputs := rfl
@[simp] theorem State.stallTx_padDraws (s : State) : s.stallTx.padDraws = s.padDraws := rfl
@[simp] theorem State.stallTx_epIdDraws (s : State) : s.stallTx.epIdDraws = s.epIdDraws := rfl
@[simp] theorem State.stallTx_handlerDraws (s : State) : s.stallTx.handlerDraws = s.handlerDraws := rfl
@[simp] theorem State.stallTx_drawCount (s : State) : s.stallTx.drawCount = s.drawCount := rfl
@[simp] theorem State.stallTx_result (s : State) : s.stallTx.result = s.result := rfl

@[simp] theorem State.rearmRx_cntr (s : State) : s.rearmRx.cntr = s.cntr := rfl
@[simp] theorem State.rearmRx_istr (s : State) : s.rearmRx.istr = s.istr := rfl
@[simp] theorem State.rearmRx_daddr (s : State) : s.rearmRx.daddr = s.daddr := rfl
@[simp] theorem State.rearmRx_btable (s : State) : s.rearmRx.btable = s.btable := rfl
@[simp] theorem State.rearmRx_pma (s : State) : s.rearmRx.pma = s.pma := rfl
@[simp] theorem State.rearmRx_pending (s : State) : s.rearmRx.pending = s.pending := rfl
@[simp] theorem State.rearmRx_irqEn (s : State) : s.rearmRx.irqEn = s.irqEn := rfl
@[simp] theorem State.rearmRx_pullup (s : State) : s.rearmRx.pullup = s.pullup := rfl
@[simp] theorem State.rearmRx_enabled (s : State) : s.rearmRx.enabled = s.enabled := rfl
@[simp] theorem State.rearmRx_fault (s : State) : s.rearmRx.fault = s.fault := rfl
@[simp] theorem State.rearmRx_hist (s : State) : s.rearmRx.hist = s.hist := rfl
@[simp] theorem State.rearmRx_cfg (s : State) : s.rearmRx.cfg = s.cfg := rfl
@[simp] theorem State.rearmRx_params (s : State) : s.rearmRx.params = s.params := rfl
@[simp] theorem State.rearmRx_inputs (s : State) : s.rearmRx.inputs = s.inputs := rfl
@[simp] theorem State.rearmRx_padDraws (s : State) : s.rearmRx.padDraws = s.padDraws := rfl
@[simp] theorem State.rearmRx_epIdDraws (s : State) : s.rearmRx.epIdDraws = s.epIdDraws := rfl
@[simp] theorem State.rearmRx_handlerDraws (s : State) : s.rearmRx.handlerDraws = s.handlerDraws := rfl
@[simp] theorem State.rearmRx_drawCount (s : State) : s.rearmRx.drawCount = s.drawCount := rfl
@[simp] theorem State.rearmRx_result (s : State) : s.rearmRx.result = s.result := rfl

@[simp] theorem State.clearCtrRx0_cntr (s : State) : s.clearCtrRx0.cntr = s.cntr := rfl
@[simp] theorem State.clearCtrRx0_istr (s : State) : s.clearCtrRx0.istr = s.istr := rfl
@[simp] theorem State.clearCtrRx0_daddr (s : State) : s.clearCtrRx0.daddr = s.daddr := rfl
@[simp] theorem State.clearCtrRx0_btable (s : State) : s.clearCtrRx0.btable = s.btable := rfl
@[simp] theorem State.clearCtrRx0_pma (s : State) : s.clearCtrRx0.pma = s.pma := rfl
@[simp] theorem State.clearCtrRx0_pending (s : State) : s.clearCtrRx0.pending = s.pending := rfl
@[simp] theorem State.clearCtrRx0_irqEn (s : State) : s.clearCtrRx0.irqEn = s.irqEn := rfl
@[simp] theorem State.clearCtrRx0_pullup (s : State) : s.clearCtrRx0.pullup = s.pullup := rfl
@[simp] theorem State.clearCtrRx0_enabled (s : State) : s.clearCtrRx0.enabled = s.enabled := rfl
@[simp] theorem State.clearCtrRx0_fault (s : State) : s.clearCtrRx0.fault = s.fault := rfl
@[simp] theorem State.clearCtrRx0_hist (s : State) : s.clearCtrRx0.hist = s.hist := rfl
@[simp] theorem State.clearCtrRx0_cfg (s : State) : s.clearCtrRx0.cfg = s.cfg := rfl
@[simp] theorem State.clearCtrRx0_params (s : State) : s.clearCtrRx0.params = s.params := rfl
@[simp] theorem State.clearCtrRx0_inputs (s : State) : s.clearCtrRx0.inputs = s.inputs := rfl
@[simp] theorem State.clearCtrRx0_padDraws (s : State) : s.clearCtrRx0.padDraws = s.padDraws := rfl
@[simp] theorem State.clearCtrRx0_epIdDraws (s : State) : s.clearCtrRx0.epIdDraws = s.epIdDraws := rfl
@[simp] theorem State.clearCtrRx0_handlerDraws (s : State) : s.clearCtrRx0.handlerDraws = s.handlerDraws := rfl
@[simp] theorem State.clearCtrRx0_drawCount (s : State) : s.clearCtrRx0.drawCount = s.drawCount := rfl
@[simp] theorem State.clearCtrRx0_result (s : State) : s.clearCtrRx0.result = s.result := rfl

@[simp] theorem State.clearCtrTx0_cntr (s : State) : s.clearCtrTx0.cntr = s.cntr := rfl
@[simp] theorem State.clearCtrTx0_istr (s : State) : s.clearCtrTx0.istr = s.istr := rfl
@[simp] theorem State.clearCtrTx0_daddr (s : State) : s.clearCtrTx0.daddr = s.daddr := rfl
@[simp] theorem State.clearCtrTx0_btable (s : State) : s.clearCtrTx0.btable = s.btable := rfl
@[simp] theorem State.clearCtrTx0_pma (s : State) : s.clearCtrTx0.pma = s.pma := rfl
@[simp] theorem State.clearCtrTx0_pending (s : State) : s.clearCtrTx0.pending = s.pending := rfl
@[simp] theorem State.clearCtrTx0_irqEn (s : State) : s.clearCtrTx0.irqEn = s.irqEn := rfl
@[simp] theorem State.clearCtrTx0_pullup (s : State) : s.clearCtrTx0.pullup = s.pullup := rfl
@[simp] theorem State.clearCtrTx0_enabled (s : State) : s.clearCtrTx0.enabled = s.enabled := rfl
@[simp] theorem State.clearCtrTx0_fault (s : State) : s.clearCtrTx0.fault = s.fault := rfl
@[simp] theorem State.clearCtrTx0_hist (s : State) : s.clearCtrTx0.hist = s.hist := rfl
@[simp] theorem State.clearCtrTx0_cfg (s : State) : s.clearCtrTx0.cfg = s.cfg := rfl
@[simp] theorem State.clearCtrTx0_params (s : State) : s.clearCtrTx0.params = s.params := rfl
@[simp] theorem State.clearCtrTx0_inputs (s : State) : s.clearCtrTx0.inputs = s.inputs := rfl
@[simp] theorem State.clearCtrTx0_padDraws (s : State) : s.clearCtrTx0.padDraws = s.padDraws := rfl
@[simp] theorem State.clearCtrTx0_epIdDraws (s : State) : s.clearCtrTx0.epIdDraws = s.epIdDraws := rfl
@[simp] theorem State.clearCtrTx0_handlerDraws (s : State) : s.clearCtrTx0.handlerDraws = s.handlerDraws := rfl
@[simp] theorem State.clearCtrTx0_drawCount (s : State) : s.clearCtrTx0.drawCount = s.drawCount := rfl
@[simp] theorem State.clearCtrTx0_result (s : State) : s.clearCtrTx0.result = s.result := rfl

@[simp] theorem State.writeIstr_cntr (s : State) (v : Half) : (s.writeIstr v).cntr = s.cntr := rfl
@[simp] theorem State.writeIstr_daddr (s : State) (v : Half) : (s.writeIstr v).daddr = s.daddr := rfl
@[simp] theorem State.writeIstr_btable (s : State) (v : Half) : (s.writeIstr v).btable = s.btable := rfl
@[simp] theorem State.writeIstr_epr (s : State) (v : Half) : (s.writeIstr v).epr = s.epr := rfl
@[simp] theorem State.writeIstr_pma (s : State) (v : Half) : (s.writeIstr v).pma = s.pma := rfl
@[simp] theorem State.writeIstr_pending (s : State) (v : Half) : (s.writeIstr v).pending = s.pending := rfl
@[simp] theorem State.writeIstr_irqEn (s : State) (v : Half) : (s.writeIstr v).irqEn = s.irqEn := rfl
@[simp] theorem State.writeIstr_pullup (s : State) (v : Half) : (s.writeIstr v).pullup = s.pullup := rfl
@[simp] theorem State.writeIstr_enabled (s : State) (v : Half) : (s.writeIstr v).enabled = s.enabled := rfl
@[simp] theorem State.writeIstr_fault (s : State) (v : Half) : (s.writeIstr v).fault = s.fault := rfl
@[simp] theorem State.writeIstr_hist (s : State) (v : Half) : (s.writeIstr v).hist = s.hist := rfl
@[simp] theorem State.writeIstr_cfg (s : State) (v : Half) : (s.writeIstr v).cfg = s.cfg := rfl
@[simp] theorem State.writeIstr_params (s : State) (v : Half) : (s.writeIstr v).params = s.params := rfl
@[simp] theorem State.writeIstr_inputs (s : State) (v : Half) : (s.writeIstr v).inputs = s.inputs := rfl
@[simp] theorem State.writeIstr_padDraws (s : State) (v : Half) : (s.writeIstr v).padDraws = s.padDraws := rfl
@[simp] theorem State.writeIstr_epIdDraws (s : State) (v : Half) : (s.writeIstr v).epIdDraws = s.epIdDraws := rfl
@[simp] theorem State.writeIstr_handlerDraws (s : State) (v : Half) : (s.writeIstr v).handlerDraws = s.handlerDraws := rfl
@[simp] theorem State.writeIstr_drawCount (s : State) (v : Half) : (s.writeIstr v).drawCount = s.drawCount := rfl
@[simp] theorem State.writeIstr_result (s : State) (v : Half) : (s.writeIstr v).result = s.result := rfl

@[simp] theorem State.observe_cntr (s : State) (o : Observation) : (s.observe o).cntr = s.cntr := rfl
@[simp] theorem State.observe_istr (s : State) (o : Observation) : (s.observe o).istr = s.istr := rfl
@[simp] theorem State.observe_daddr (s : State) (o : Observation) : (s.observe o).daddr = s.daddr := rfl
@[simp] theorem State.observe_btable (s : State) (o : Observation) : (s.observe o).btable = s.btable := rfl
@[simp] theorem State.observe_epr (s : State) (o : Observation) : (s.observe o).epr = s.epr := rfl
@[simp] theorem State.observe_pma (s : State) (o : Observation) : (s.observe o).pma = s.pma := rfl
@[simp] theorem State.observe_pending (s : State) (o : Observation) : (s.observe o).pending = s.pending := rfl
@[simp] theorem State.observe_irqEn (s : State) (o : Observation) : (s.observe o).irqEn = s.irqEn := rfl
@[simp] theorem State.observe_pullup (s : State) (o : Observation) : (s.observe o).pullup = s.pullup := rfl
@[simp] theorem State.observe_enabled (s : State) (o : Observation) : (s.observe o).enabled = s.enabled := rfl
@[simp] theorem State.observe_fault (s : State) (o : Observation) : (s.observe o).fault = s.fault := rfl
@[simp] theorem State.observe_cfg (s : State) (o : Observation) : (s.observe o).cfg = s.cfg := rfl
@[simp] theorem State.observe_params (s : State) (o : Observation) : (s.observe o).params = s.params := rfl
@[simp] theorem State.observe_inputs (s : State) (o : Observation) : (s.observe o).inputs = s.inputs := rfl
@[simp] theorem State.observe_padDraws (s : State) (o : Observation) : (s.observe o).padDraws = s.padDraws := rfl
@[simp] theorem State.observe_epIdDraws (s : State) (o : Observation) : (s.observe o).epIdDraws = s.epIdDraws := rfl
@[simp] theorem State.observe_handlerDraws (s : State) (o : Observation) : (s.observe o).handlerDraws = s.handlerDraws := rfl
@[simp] theorem State.observe_drawCount (s : State) (o : Observation) : (s.observe o).drawCount = s.drawCount := rfl
@[simp] theorem State.observe_result (s : State) (o : Observation) : (s.observe o).result = s.result := rfl

@[simp] theorem State.withInputs_cntr (s : State) (xs : List Input) : (s.withInputs xs).cntr = s.cntr := rfl
@[simp] theorem State.withInputs_istr (s : State) (xs : List Input) : (s.withInputs xs).istr = s.istr := rfl
@[simp] theorem State.withInputs_daddr (s : State) (xs : List Input) : (s.withInputs xs).daddr = s.daddr := rfl
@[simp] theorem State.withInputs_btable (s : State) (xs : List Input) : (s.withInputs xs).btable = s.btable := rfl
@[simp] theorem State.withInputs_epr (s : State) (xs : List Input) : (s.withInputs xs).epr = s.epr := rfl
@[simp] theorem State.withInputs_pma (s : State) (xs : List Input) : (s.withInputs xs).pma = s.pma := rfl
@[simp] theorem State.withInputs_pending (s : State) (xs : List Input) : (s.withInputs xs).pending = s.pending := rfl
@[simp] theorem State.withInputs_irqEn (s : State) (xs : List Input) : (s.withInputs xs).irqEn = s.irqEn := rfl
@[simp] theorem State.withInputs_pullup (s : State) (xs : List Input) : (s.withInputs xs).pullup = s.pullup := rfl
@[simp] theorem State.withInputs_enabled (s : State) (xs : List Input) : (s.withInputs xs).enabled = s.enabled := rfl
@[simp] theorem State.withInputs_fault (s : State) (xs : List Input) : (s.withInputs xs).fault = s.fault := rfl
@[simp] theorem State.withInputs_hist (s : State) (xs : List Input) : (s.withInputs xs).hist = s.hist := rfl
@[simp] theorem State.withInputs_cfg (s : State) (xs : List Input) : (s.withInputs xs).cfg = s.cfg := rfl
@[simp] theorem State.withInputs_params (s : State) (xs : List Input) : (s.withInputs xs).params = s.params := rfl
@[simp] theorem State.withInputs_padDraws (s : State) (xs : List Input) : (s.withInputs xs).padDraws = s.padDraws := rfl
@[simp] theorem State.withInputs_epIdDraws (s : State) (xs : List Input) : (s.withInputs xs).epIdDraws = s.epIdDraws := rfl
@[simp] theorem State.withInputs_handlerDraws (s : State) (xs : List Input) : (s.withInputs xs).handlerDraws = s.handlerDraws := rfl
@[simp] theorem State.withInputs_drawCount (s : State) (xs : List Input) : (s.withInputs xs).drawCount = s.drawCount := rfl
@[simp] theorem State.withInputs_result (s : State) (xs : List Input) : (s.withInputs xs).result = s.result := rfl

@[simp] theorem State.readdress_cntr (s : State) : s.readdress.cntr = s.cntr := rfl
@[simp] theorem State.readdress_istr (s : State) : s.readdress.istr = s.istr := rfl
@[simp] theorem State.readdress_epr (s : State) : s.readdress.epr = s.epr := rfl
@[simp] theorem State.readdress_pma (s : State) : s.readdress.pma = s.pma := rfl
@[simp] theorem State.readdress_irqEn (s : State) : s.readdress.irqEn = s.irqEn := rfl
@[simp] theorem State.readdress_pullup (s : State) : s.readdress.pullup = s.pullup := rfl
@[simp] theorem State.readdress_enabled (s : State) : s.readdress.enabled = s.enabled := rfl
@[simp] theorem State.readdress_fault (s : State) : s.readdress.fault = s.fault := rfl
@[simp] theorem State.readdress_hist (s : State) : s.readdress.hist = s.hist := rfl
@[simp] theorem State.readdress_cfg (s : State) : s.readdress.cfg = s.cfg := rfl
@[simp] theorem State.readdress_params (s : State) : s.readdress.params = s.params := rfl
@[simp] theorem State.readdress_inputs (s : State) : s.readdress.inputs = s.inputs := rfl
@[simp] theorem State.readdress_padDraws (s : State) : s.readdress.padDraws = s.padDraws := rfl
@[simp] theorem State.readdress_epIdDraws (s : State) : s.readdress.epIdDraws = s.epIdDraws := rfl
@[simp] theorem State.readdress_handlerDraws (s : State) : s.readdress.handlerDraws = s.handlerDraws := rfl
@[simp] theorem State.readdress_drawCount (s : State) : s.readdress.drawCount = s.drawCount := rfl
@[simp] theorem State.readdress_result (s : State) : s.readdress.result = s.result := rfl

@[simp] theorem State.startUp_daddr (s : State) : s.startUp.daddr = s.daddr := rfl
@[simp] theorem State.startUp_btable (s : State) : s.startUp.btable = s.btable := rfl
@[simp] theorem State.startUp_epr (s : State) : s.startUp.epr = s.epr := rfl
@[simp] theorem State.startUp_pma (s : State) : s.startUp.pma = s.pma := rfl
@[simp] theorem State.startUp_pending (s : State) : s.startUp.pending = s.pending := rfl
@[simp] theorem State.startUp_fault (s : State) : s.startUp.fault = s.fault := rfl
@[simp] theorem State.startUp_hist (s : State) : s.startUp.hist = s.hist := rfl
@[simp] theorem State.startUp_cfg (s : State) : s.startUp.cfg = s.cfg := rfl
@[simp] theorem State.startUp_params (s : State) : s.startUp.params = s.params := rfl
@[simp] theorem State.startUp_inputs (s : State) : s.startUp.inputs = s.inputs := rfl
@[simp] theorem State.startUp_padDraws (s : State) : s.startUp.padDraws = s.padDraws := rfl
@[simp] theorem State.startUp_epIdDraws (s : State) : s.startUp.epIdDraws = s.epIdDraws := rfl
@[simp] theorem State.startUp_handlerDraws (s : State) : s.startUp.handlerDraws = s.handlerDraws := rfl
@[simp] theorem State.startUp_drawCount (s : State) : s.startUp.drawCount = s.drawCount := rfl
@[simp] theorem State.startUp_result (s : State) : s.startUp.result = s.result := rfl

@[simp] theorem State.withInputs_inputs (s : State) (xs : List Input) : (s.withInputs xs).inputs = xs := rfl
@[simp] theorem State.observe_hist (s : State) (o : Observation) : (s.observe o).hist = s.hist ++ [o] := rfl
@[simp] theorem State.writeBytes_pma (s : State) (a : Nat) (bs : List Byte) :
    (s.writeBytes a bs).pma = Memory.writeBytes s.pma a bs := rfl
@[simp] theorem State.readdress_btable (s : State) : s.readdress.btable = bdtBase := rfl
@[simp] theorem State.readdress_daddr (s : State) : s.readdress.daddr = daddrDefault := rfl
@[simp] theorem State.startUp_cntr (s : State) : s.startUp.cntr = cntrBaseline := rfl
@[simp] theorem State.startUp_irqEn (s : State) : s.startUp.irqEn = true := rfl
@[simp] theorem State.startUp_enabled (s : State) : s.startUp.enabled = true := rfl
@[simp] theorem State.writeIstr_zero (s : State) : (s.writeIstr 0x0000#16).istr = 0#16 := by
  simp [State.writeIstr, Istr.write]
@[simp] theorem State.startUp_istr (s : State) : s.startUp.istr = 0#16 := s.writeIstr_zero

@[simp] theorem State.takePad_cntr (s : State) : s.takePad.2.cntr = s.cntr := by
  unfold State.takePad; split <;> rfl
@[simp] theorem State.takePad_istr (s : State) : s.takePad.2.istr = s.istr := by
  unfold State.takePad; split <;> rfl
@[simp] theorem State.takePad_daddr (s : State) : s.takePad.2.daddr = s.daddr := by
  unfold State.takePad; split <;> rfl
@[simp] theorem State.takePad_btable (s : State) : s.takePad.2.btable = s.btable := by
  unfold State.takePad; split <;> rfl
@[simp] theorem State.takePad_epr (s : State) : s.takePad.2.epr = s.epr := by
  unfold State.takePad; split <;> rfl
@[simp] theorem State.takePad_pma (s : State) : s.takePad.2.pma = s.pma := by
  unfold State.takePad; split <;> rfl
@[simp] theorem State.takePad_pending (s : State) : s.takePad.2.pending = s.pending := by
  unfold State.takePad; split <;> rfl
@[simp] theorem State.takePad_irqEn (s : State) : s.takePad.2.irqEn = s.irqEn := by
  unfold State.takePad; split <;> rfl
@[simp] theorem State.takePad_pullup (s : State) : s.takePad.2.pullup = s.pullup := by
  unfold State.takePad; split <;> rfl
@[simp] theorem State.takePad_enabled (s : State) : s.takePad.2.enabled = s.enabled := by
  unfold State.takePad; split <;> rfl
@[simp] theorem State.takePad_fault (s : State) : s.takePad.2.fault = s.fault := by
  unfold State.takePad; split <;> rfl
@[simp] theorem State.takePad_hist (s : State) : s.takePad.2.hist = s.hist := by
  unfold State.takePad; split <;> rfl
@[simp] theorem State.takePad_cfg (s : State) : s.takePad.2.cfg = s.cfg := by
  unfold State.takePad; split <;> rfl
@[simp] theorem State.takePad_params (s : State) : s.takePad.2.params = s.params := by
  unfold State.takePad; split <;> rfl
@[simp] theorem State.takePad_inputs (s : State) : s.takePad.2.inputs = s.inputs := by
  unfold State.takePad; split <;> rfl
@[simp] theorem State.takePad_epIdDraws (s : State) : s.takePad.2.epIdDraws = s.epIdDraws := by
  unfold State.takePad; split <;> rfl
@[simp] theorem State.takePad_handlerDraws (s : State) : s.takePad.2.handlerDraws = s.handlerDraws := by
  unfold State.takePad; split <;> rfl
@[simp] theorem State.takePad_result (s : State) : s.takePad.2.result = s.result := by
  unfold State.takePad; split <;> rfl

@[simp] theorem State.takeEpId_cntr (s : State) : s.takeEpId.cntr = s.cntr := by
  unfold State.takeEpId; (repeat' split) <;> rfl
@[simp] theorem State.takeEpId_istr (s : State) : s.takeEpId.istr = s.istr := by
  unfold State.takeEpId; (repeat' split) <;> rfl
@[simp] theorem State.takeEpId_daddr (s : State) : s.takeEpId.daddr = s.daddr := by
  unfold State.takeEpId; (repeat' split) <;> rfl
@[simp] theorem State.takeEpId_btable (s : State) : s.takeEpId.btable = s.btable := by
  unfold State.takeEpId; (repeat' split) <;> rfl
@[simp] theorem State.takeEpId_epr (s : State) : s.takeEpId.epr = s.epr := by
  unfold State.takeEpId; (repeat' split) <;> rfl
@[simp] theorem State.takeEpId_pma (s : State) : s.takeEpId.pma = s.pma := by
  unfold State.takeEpId; (repeat' split) <;> rfl
@[simp] theorem State.takeEpId_pending (s : State) : s.takeEpId.pending = s.pending := by
  unfold State.takeEpId; (repeat' split) <;> rfl
@[simp] theorem State.takeEpId_irqEn (s : State) : s.takeEpId.irqEn = s.irqEn := by
  unfold State.takeEpId; (repeat' split) <;> rfl
@[simp] theorem State.takeEpId_pullup (s : State) : s.takeEpId.pullup = s.pullup := by
  unfold State.takeEpId; (repeat' split) <;> rfl
@[simp] theorem State.takeEpId_enabled (s : State) : s.takeEpId.enabled = s.enabled := by
  unfold State.takeEpId; (repeat' split) <;> rfl
@[simp] theorem State.takeEpId_fault (s : State) : s.takeEpId.fault = s.fault := by
  unfold State.takeEpId; (repeat' split) <;> rfl
@[simp] theorem State.takeEpId_hist (s : State) : s.takeEpId.hist = s.hist := by
  unfold State.takeEpId; (repeat' split) <;> rfl
@[simp] theorem State.takeEpId_cfg (s : State) : s.takeEpId.cfg = s.cfg := by
  unfold State.takeEpId; (repeat' split) <;> rfl
@[simp] theorem State.takeEpId_params (s : State) : s.takeEpId.params = s.params := by
  unfold State.takeEpId; (repeat' split) <;> rfl
@[simp] theorem State.takeEpId_inputs (s : State) : s.takeEpId.inputs = s.inputs := by
  unfold State.takeEpId; (repeat' split) <;> rfl
@[simp] theorem State.takeEpId_padDraws (s : State) : s.takeEpId.padDraws = s.padDraws := by
  unfold State.takeEpId; (repeat' split) <;> rfl
@[simp] theorem State.takeEpId_handlerDraws (s : State) : s.takeEpId.handlerDraws = s.handlerDraws := by
  unfold State.takeEpId; (repeat' split) <;> rfl
@[simp] theorem State.takeEpId_result (s : State) : s.takeEpId.result = s.result := by
  unfold State.takeEpId; (repeat' split) <;> rfl

@[simp] theorem State.recordFault_cntr (f : Fault) (s : State) : (s.recordFault f).cntr = s.cntr := by
  unfold State.recordFault; split <;> rfl
@[simp] theorem State.recordFault_istr (f : Fault) (s : State) : (s.recordFault f).istr = s.istr := by
  unfold State.recordFault; split <;> rfl
@[simp] theorem State.recordFault_daddr (f : Fault) (s : State) : (s.recordFault f).daddr = s.daddr := by
  unfold State.recordFault; split <;> rfl
@[simp] theorem State.recordFault_btable (f : Fault) (s : State) : (s.recordFault f).btable = s.btable := by
  unfold State.recordFault; split <;> rfl
@[simp] theorem State.recordFault_epr (f : Fault) (s : State) : (s.recordFault f).epr = s.epr := by
  unfold State.recordFault; split <;> rfl
@[simp] theorem State.recordFault_pma (f : Fault) (s : State) : (s.recordFault f).pma = s.pma := by
  unfold State.recordFault; split <;> rfl
@[simp] theorem State.recordFault_pending (f : Fault) (s : State) : (s.recordFault f).pending = s.pending := by
  unfold State.recordFault; split <;> rfl
@[simp] theorem State.recordFault_irqEn (f : Fault) (s : State) : (s.recordFault f).irqEn = s.irqEn := by
  unfold State.recordFault; split <;> rfl
@[simp] theorem State.recordFault_pullup (f : Fault) (s : State) : (s.recordFault f).pullup = s.pullup := by
  unfold State.recordFault; split <;> rfl
@[simp] theorem State.recordFault_enabled (f : Fault) (s : State) : (s.recordFault f).enabled = s.enabled := by
  unfold State.recordFault; split <;> rfl
@[simp] theorem State.recordFault_hist (f : Fault) (s : State) : (s.recordFault f).hist = s.hist := by
  unfold State.recordFault; split <;> rfl
@[simp] theorem State.recordFault_cfg (f : Fault) (s : State) : (s.recordFault f).cfg = s.cfg := by
  unfold State.recordFault; split <;> rfl
@[simp] theorem State.recordFault_params (f : Fault) (s : State) : (s.recordFault f).params = s.params := by
  unfold State.recordFault; split <;> rfl
@[simp] theorem State.recordFault_inputs (f : Fault) (s : State) : (s.recordFault f).inputs = s.inputs := by
  unfold State.recordFault; split <;> rfl
@[simp] theorem State.recordFault_padDraws (f : Fault) (s : State) : (s.recordFault f).padDraws = s.padDraws := by
  unfold State.recordFault; split <;> rfl
@[simp] theorem State.recordFault_epIdDraws (f : Fault) (s : State) : (s.recordFault f).epIdDraws = s.epIdDraws := by
  unfold State.recordFault; split <;> rfl
@[simp] theorem State.recordFault_handlerDraws (f : Fault) (s : State) : (s.recordFault f).handlerDraws = s.handlerDraws := by
  unfold State.recordFault; split <;> rfl
@[simp] theorem State.recordFault_drawCount (f : Fault) (s : State) : (s.recordFault f).drawCount = s.drawCount := by
  unfold State.recordFault; split <;> rfl
@[simp] theorem State.recordFault_result (f : Fault) (s : State) : (s.recordFault f).result = s.result := by
  unfold State.recordFault; split <;> rfl

@[simp] theorem State.commitAddress_cntr (s : State) : s.commitAddress.cntr = s.cntr := by
  unfold State.commitAddress; split <;> rfl
@[simp] theorem State.commitAddress_istr (s : State) : s.commitAddress.istr = s.istr := by
  unfold State.commitAddress; split <;> rfl
@[simp] theorem State.commitAddress_btable (s : State) : s.commitAddress.btable = s.btable := by
  unfold State.commitAddress; split <;> rfl
@[simp] theorem State.commitAddress_epr (s : State) : s.commitAddress.epr = s.epr := by
  unfold State.commitAddress; split <;> rfl
@[simp] theorem State.commitAddress_pma (s : State) : s.commitAddress.pma = s.pma := by
  unfold State.commitAddress; split <;> rfl
@[simp] theorem State.commitAddress_irqEn (s : State) : s.commitAddress.irqEn = s.irqEn := by
  unfold State.commitAddress; split <;> rfl
@[simp] theorem State.commitAddress_pullup (s : State) : s.commitAddress.pullup = s.pullup := by
  unfold State.commitAddress; split <;> rfl
@[simp] theorem State.commitAddress_enabled (s : State) : s.commitAddress.enabled = s.enabled := by
  unfold State.commitAddress; split <;> rfl
@[simp] theorem State.commitAddress_fault (s : State) : s.commitAddress.fault = s.fault := by
  unfold State.commitAddress; split <;> rfl
@[simp] theorem State.commitAddress_hist (s : State) : s.commitAddress.hist = s.hist := by
  unfold State.commitAddress; split <;> rfl
@[simp] theorem State.commitAddress_cfg (s : State) : s.commitAddress.cfg = s.cfg := by
  unfold State.commitAddress; split <;> rfl
@[simp] theorem State.commitAddress_params (s : State) : s.commitAddress.params = s.params := by
  unfold State.commitAddress; split <;> rfl
@[simp] theorem State.commitAddress_inputs (s : State) : s.commitAddress.inputs = s.inputs := by
  unfold State.commitAddress; split <;> rfl
@[simp] theorem State.commitAddress_padDraws (s : State) : s.commitAddress.padDraws = s.padDraws := by
  unfold State.commitAddress; split <;> rfl
@[simp] theorem State.commitAddress_epIdDraws (s : State) : s.commitAddress.epIdDraws = s.epIdDraws := by
  unfold State.commitAddress; split <;> rfl
@[simp] theorem State.commitAddress_handlerDraws (s : State) : s.commitAddress.handlerDraws = s.handlerDraws := by
  unfold State.commitAddress; split <;> rfl
@[simp] theorem State.commitAddress_drawCount (s : State) : s.commitAddress.drawCount = s.drawCount := by
  unfold State.commitAddress; split <;> rfl
@[simp] theorem State.commitAddress_result (s : State) : s.commitAddress.result = s.result := by
  unfold State.commitAddress; split <;> rfl

/-! ### A buffer write changes packet memory and the draws of pad bytes -/

@[simp] theorem State.writeBuffer_cntr (s : State) (a : Nat) (bs : List Byte) :
    (s.writeBuffer a bs).cntr = s.cntr := by
  unfold State.writeBuffer; split <;> simp
@[simp] theorem State.writeBuffer_istr (s : State) (a : Nat) (bs : List Byte) :
    (s.writeBuffer a bs).istr = s.istr := by
  unfold State.writeBuffer; split <;> simp
@[simp] theorem State.writeBuffer_daddr (s : State) (a : Nat) (bs : List Byte) :
    (s.writeBuffer a bs).daddr = s.daddr := by
  unfold State.writeBuffer; split <;> simp
@[simp] theorem State.writeBuffer_btable (s : State) (a : Nat) (bs : List Byte) :
    (s.writeBuffer a bs).btable = s.btable := by
  unfold State.writeBuffer; split <;> simp
@[simp] theorem State.writeBuffer_epr (s : State) (a : Nat) (bs : List Byte) :
    (s.writeBuffer a bs).epr = s.epr := by
  unfold State.writeBuffer; split <;> simp
@[simp] theorem State.writeBuffer_pending (s : State) (a : Nat) (bs : List Byte) :
    (s.writeBuffer a bs).pending = s.pending := by
  unfold State.writeBuffer; split <;> simp
@[simp] theorem State.writeBuffer_irqEn (s : State) (a : Nat) (bs : List Byte) :
    (s.writeBuffer a bs).irqEn = s.irqEn := by
  unfold State.writeBuffer; split <;> simp
@[simp] theorem State.writeBuffer_pullup (s : State) (a : Nat) (bs : List Byte) :
    (s.writeBuffer a bs).pullup = s.pullup := by
  unfold State.writeBuffer; split <;> simp
@[simp] theorem State.writeBuffer_enabled (s : State) (a : Nat) (bs : List Byte) :
    (s.writeBuffer a bs).enabled = s.enabled := by
  unfold State.writeBuffer; split <;> simp
@[simp] theorem State.writeBuffer_fault (s : State) (a : Nat) (bs : List Byte) :
    (s.writeBuffer a bs).fault = s.fault := by
  unfold State.writeBuffer; split <;> simp
@[simp] theorem State.writeBuffer_hist (s : State) (a : Nat) (bs : List Byte) :
    (s.writeBuffer a bs).hist = s.hist := by
  unfold State.writeBuffer; split <;> simp
@[simp] theorem State.writeBuffer_cfg (s : State) (a : Nat) (bs : List Byte) :
    (s.writeBuffer a bs).cfg = s.cfg := by
  unfold State.writeBuffer; split <;> simp
@[simp] theorem State.writeBuffer_params (s : State) (a : Nat) (bs : List Byte) :
    (s.writeBuffer a bs).params = s.params := by
  unfold State.writeBuffer; split <;> simp
@[simp] theorem State.writeBuffer_inputs (s : State) (a : Nat) (bs : List Byte) :
    (s.writeBuffer a bs).inputs = s.inputs := by
  unfold State.writeBuffer; split <;> simp
@[simp] theorem State.writeBuffer_epIdDraws (s : State) (a : Nat) (bs : List Byte) :
    (s.writeBuffer a bs).epIdDraws = s.epIdDraws := by
  unfold State.writeBuffer; split <;> simp
@[simp] theorem State.writeBuffer_handlerDraws (s : State) (a : Nat) (bs : List Byte) :
    (s.writeBuffer a bs).handlerDraws = s.handlerDraws := by
  unfold State.writeBuffer; split <;> simp
@[simp] theorem State.writeBuffer_result (s : State) (a : Nat) (bs : List Byte) :
    (s.writeBuffer a bs).result = s.result := by
  unfold State.writeBuffer; split <;> simp

/-! ### The endpoint registers -/

@[simp] theorem State.eprAt_setEpr_same (s : State) (n : Fin 8) (w : Half) :
    (s.setEpr n w).eprAt n = w := by
  simp [State.setEpr, State.eprAt, Vector.get_eq_getElem]

theorem State.eprAt_setEpr_of_ne (s : State) (n m : Fin 8) (w : Half) (h : m ≠ n) :
    (s.setEpr n w).eprAt m = s.eprAt m := by
  have : n.val ≠ m.val := fun e => h (Fin.ext e.symm)
  simp [State.setEpr, State.eprAt, Vector.get_eq_getElem, this]

theorem State.eprAt_setEpr (s : State) (n m : Fin 8) (w : Half) :
    (s.setEpr n w).eprAt m = if m = n then w else s.eprAt m := by
  split
  · next h => subst h; simp
  · next h => exact s.eprAt_setEpr_of_ne n m w h

theorem State.eprAt_modifyEpr (s : State) (n m : Fin 8) (f : Half → Half) :
    (s.modifyEpr n f).eprAt m = if m = n then f (s.eprAt n) else s.eprAt m :=
  s.eprAt_setEpr n m _

@[simp] theorem State.eprAt_modifyEpr_same (s : State) (n : Fin 8) (f : Half → Half) :
    (s.modifyEpr n f).eprAt n = f (s.eprAt n) := s.eprAt_setEpr_same n _

/-- The endpoint registers are equal where each one is. -/
theorem epr_ext {u v : Vector Half 8} (h : ∀ n : Fin 8, u.get n = v.get n) : u = v := by
  apply Vector.ext
  intro i hi
  exact h ⟨i, hi⟩

theorem State.eprAt_congr {s t : State} (h : s.epr = t.epr) (n : Fin 8) : s.eprAt n = t.eprAt n := by
  simp [State.eprAt, h]

@[simp] theorem State.writeBytes_eprAt (s : State) (a : Nat) (bs : List Byte) (m : Fin 8) : (s.writeBytes a bs).eprAt m = s.eprAt m := rfl
@[simp] theorem State.writeHalf_eprAt (s : State) (a : Nat) (v : Half) (m : Fin 8) : (s.writeHalf a v).eprAt m = s.eprAt m := rfl
@[simp] theorem State.writeIstr_eprAt (s : State) (v : Half) (m : Fin 8) : (s.writeIstr v).eprAt m = s.eprAt m := rfl
@[simp] theorem State.observe_eprAt (s : State) (o : Observation) (m : Fin 8) : (s.observe o).eprAt m = s.eprAt m := rfl
@[simp] theorem State.withInputs_eprAt (s : State) (xs : List Input) (m : Fin 8) : (s.withInputs xs).eprAt m = s.eprAt m := rfl
@[simp] theorem State.readdress_eprAt (s : State) (m : Fin 8) : s.readdress.eprAt m = s.eprAt m := rfl
@[simp] theorem State.startUp_eprAt (s : State) (m : Fin 8) : s.startUp.eprAt m = s.eprAt m := rfl
@[simp] theorem State.takePad_eprAt (s : State) (m : Fin 8) : s.takePad.2.eprAt m = s.eprAt m :=
  State.eprAt_congr (by simp) m
@[simp] theorem State.takeEpId_eprAt (s : State) (m : Fin 8) : s.takeEpId.eprAt m = s.eprAt m :=
  State.eprAt_congr (by simp) m
@[simp] theorem State.recordFault_eprAt (f : Fault) (s : State) (m : Fin 8) : (s.recordFault f).eprAt m = s.eprAt m :=
  State.eprAt_congr (by simp) m
@[simp] theorem State.commitAddress_eprAt (s : State) (m : Fin 8) : s.commitAddress.eprAt m = s.eprAt m :=
  State.eprAt_congr (by simp) m
@[simp] theorem State.writeBuffer_eprAt (s : State) (a : Nat) (bs : List Byte) (m : Fin 8) :
    (s.writeBuffer a bs).eprAt m = s.eprAt m := State.eprAt_congr (by simp) m

/-! ### A faulted operation and its outcome -/

@[simp] theorem Flow.andThen_ok {α β : Type} (a : α) (f : α → Flow β) :
    Flow.andThen (.ok a : Flow α) f = f a := rfl
@[simp] theorem Flow.andThen_error {α β : Type} (e : Stop) (f : α → Flow β) :
    Flow.andThen (.error e : Flow α) f = .error e := rfl
@[simp] theorem Flow.outcome_ok (s : State) : Flow.outcome (.ok s) = .next s := rfl
@[simp] theorem Flow.outcome_raised (s : State) : Flow.outcome (.error (.raised s)) = .next s := rfl
@[simp] theorem Flow.outcome_refused (r : Refusal) : Flow.outcome (.error (.refused r)) = .refused r := rfl

/-- What follows an operation runs only where the operation was not left. -/
theorem Flow.andThen_eq_ok {α β : Type} {x : Flow α} {f : α → Flow β} {b : β} :
    Flow.andThen x f = .ok b ↔ ∃ a, x = .ok a ∧ f a = .ok b := by
  cases x with
  | ok a => simp
  | error e => simp

/-- The outcome is a next state exactly where the operation ended or raised a fault. -/
theorem Flow.outcome_eq_next {x : Flow State} {t : State} :
    x.outcome = .next t ↔ x = .ok t ∨ x = .error (.raised t) := by
  rcases x with (s | r) | s <;> simp [Flow.outcome]

@[simp] theorem raise_eq {α : Type} (f : Fault) (s : State) :
    (raise f s : Flow α) = .error (.raised (s.recordFault f)) := rfl

theorem State.recordFault_of_none {s : State} (h : s.fault = none) (f : Fault) :
    s.recordFault f = { s with fault := some f } := by simp [State.recordFault, h]

theorem State.recordFault_none {s : State} (h : s.fault = none) (f : Fault) :
    (s.recordFault f).fault = some f := by simp [State.recordFault, h]

theorem State.recordFault_ne_none (s : State) (f : Fault) : (s.recordFault f).fault ≠ none := by
  unfold State.recordFault
  split
  · simp
  · next h => simp [h]

end Sys2Proof.Machine
end

