-- ==== Sys2Proof/Laws/Memory.lean ====
section
/-! SUPPORT. Packet memory: a read after a write, and the canonical form, which every write keeps. -/

namespace Sys2Proof.Machine

/-! ### One byte -/

theorem Memory.lookup_write (m : List Host.Cell) (a x : Nat) (b : Byte) :
    Memory.lookup (Memory.write m a b) x = if x = a then some b else Memory.lookup m x := by
  induction m with
  | nil => simp [Memory.write, Memory.lookup, eq_comm]
  | cons c m ih =>
    unfold Memory.write
    split
    · simp [Memory.lookup, eq_comm]
    · split
      · next h =>
        by_cases hx : x = a
        · simp [Memory.lookup, hx]
        · have h1 : ¬ c.1 = x := fun e => hx (by omega)
          have h2 : ¬ a = x := fun e => hx e.symm
          simp only [Memory.lookup, h1, h2, hx, if_false]
      · by_cases hc : c.1 = x
        · have : x ≠ a := by omega
          simp [Memory.lookup, hc, this]
        · simp [Memory.lookup, hc, ih]

theorem Memory.lookup_writeBytes (m : List Host.Cell) (a x : Nat) (bs : List Byte) :
    Memory.lookup (Memory.writeBytes m a bs) x =
      if a ≤ x ∧ x < a + bs.length then some (bs.getD (x - a) 0#8) else Memory.lookup m x := by
  induction bs generalizing m a with
  | nil =>
    have : ¬ (a ≤ x ∧ x < a + ([] : List Byte).length) := by simp
    simp [Memory.writeBytes]
  | cons b bs ih =>
    rw [Memory.writeBytes, ih, Memory.lookup_write]
    by_cases hx : x = a
    · subst hx
      simp
    · by_cases h1 : a + 1 ≤ x ∧ x < a + 1 + bs.length
      · have h2 : a ≤ x ∧ x < a + (b :: bs).length := by simp; omega
        have h3 : x - a = (x - (a + 1)) + 1 := by omega
        rw [if_pos h1, if_pos h2, h3, List.getD_cons_succ]
      · have h2 : ¬ (a ≤ x ∧ x < a + (b :: bs).length) := by simp; omega
        rw [if_neg h1, if_neg h2, if_neg hx]

/-- A byte of packet memory after a write of consecutive bytes. -/
theorem State.readByte_writeBytes (s : State) (a x : Nat) (bs : List Byte) :
    (s.writeBytes a bs).readByte x =
      if a ≤ x ∧ x < a + bs.length then bs.getD (x - a) 0#8 else s.readByte x := by
  unfold State.readByte
  rw [State.writeBytes_pma, Memory.lookup_writeBytes]
  split <;> rfl

theorem State.readByte_congr {s t : State} (h : s.pma = t.pma) (x : Nat) :
    s.readByte x = t.readByte x := by simp [State.readByte, h]

theorem State.readHalf_congr {s t : State} (h : s.pma = t.pma) (x : Nat) :
    s.readHalf x = t.readHalf x := by simp [State.readHalf, State.readByte_congr h]

theorem State.readBytes_congr {s t : State} (h : s.pma = t.pma) (a n : Nat) :
    s.readBytes a n = t.readBytes a n := by
  induction n generalizing a with
  | zero => rfl
  | succ n ih => simp [State.readBytes, State.readByte_congr h, ih]

theorem State.readByte_writeBytes_outside (s : State) (a x : Nat) (bs : List Byte)
    (h : x < a ∨ a + bs.length ≤ x) : (s.writeBytes a bs).readByte x = s.readByte x := by
  rw [State.readByte_writeBytes, if_neg (by omega)]

/-! ### Byte order (R63 to R65) -/

theorem u16le_getLsbD (b0 b1 : Byte) (i : Nat) :
    (u16le b0 b1).getLsbD i = if i < 8 then b0.getLsbD i else b1.getLsbD (i - 8) := by
  unfold u16le
  rw [BitVec.getLsbD_append]

@[simp] theorem u16le_le16 (v : Half) :
    u16le (v.extractLsb' 0 8) (v.extractLsb' 8 8) = v := by
  apply BitVec.eq_of_getLsbD_eq
  intro i hi
  rw [u16le_getLsbD]
  split
  · next h => simp [h]
  · next h =>
    have h1 : i - 8 < 8 := by omega
    have h2 : 8 + (i - 8) = i := by omega
    simp [h1, h2]

@[simp] theorem u16le_low (b0 b1 : Byte) : (u16le b0 b1).extractLsb' 0 8 = b0 := by
  apply BitVec.eq_of_getLsbD_eq
  intro i hi
  rw [BitVec.getLsbD_extractLsb', u16le_getLsbD]
  simp [hi]

@[simp] theorem u16le_high (b0 b1 : Byte) : (u16le b0 b1).extractLsb' 8 8 = b1 := by
  apply BitVec.eq_of_getLsbD_eq
  intro i hi
  rw [BitVec.getLsbD_extractLsb', u16le_getLsbD]
  have : ¬ 8 + i < 8 := by omega
  simp [hi]

@[simp] theorem le16_length (v : Half) : (le16 v).length = 2 := rfl

/-- `u16le(b0, b1) = b0 | (b1 << 8)`, as R10 writes it. -/
theorem u16le_eq_or (b0 b1 : Byte) : u16le b0 b1 = b0.setWidth 16 ||| (b1.setWidth 16 <<< 8) := by
  apply BitVec.eq_of_getLsbD_eq
  intro i hi
  rw [u16le_getLsbD, BitVec.getLsbD_or, BitVec.getLsbD_shiftLeft, BitVec.getLsbD_setWidth,
    BitVec.getLsbD_setWidth]
  by_cases h : i < 8
  · simp [h, hi]
  · have : b0.getLsbD i = false := BitVec.getLsbD_of_ge _ _ (by omega)
    have : i - 8 < 16 := by omega
    simp [*]

/-! ### Halfwords -/

/-- A halfword reads as it was written. -/
@[simp] theorem State.readHalf_writeHalf_same (s : State) (a : Nat) (v : Half) :
    (s.writeHalf a v).readHalf a = v := by
  unfold State.readHalf State.writeHalf
  rw [State.readByte_writeBytes, State.readByte_writeBytes]
  have h1 : a ≤ a ∧ a < a + (le16 v).length := by simp
  have h2 : a ≤ a + 1 ∧ a + 1 < a + (le16 v).length := by simp
  rw [if_pos h1, if_pos h2]
  have h3 : a + 1 - a = 1 := by omega
  simp [h3, le16]

theorem State.readByte_writeHalf_outside (s : State) (a x : Nat) (v : Half)
    (h : x < a ∨ a + 2 ≤ x) : (s.writeHalf a v).readByte x = s.readByte x :=
  s.readByte_writeBytes_outside a x (le16 v) (by simpa using h)

theorem State.readHalf_writeBytes_outside (s : State) (a x : Nat) (bs : List Byte)
    (h : x + 2 ≤ a ∨ a + bs.length ≤ x) : (s.writeBytes a bs).readHalf x = s.readHalf x := by
  unfold State.readHalf
  rw [s.readByte_writeBytes_outside a x bs (by omega),
    s.readByte_writeBytes_outside a (x + 1) bs (by omega)]

theorem State.readHalf_writeHalf_outside (s : State) (a x : Nat) (v : Half)
    (h : x + 2 ≤ a ∨ a + 2 ≤ x) : (s.writeHalf a v).readHalf x = s.readHalf x :=
  s.readHalf_writeBytes_outside a x (le16 v) (by simpa using h)

/-! ### Byte lists -/

@[simp] theorem State.readBytes_length (s : State) (a n : Nat) : (s.readBytes a n).length = n := by
  induction n generalizing a with
  | zero => rfl
  | succ n ih => simp [State.readBytes, ih]

theorem State.readBytes_getD (s : State) (a n i : Nat) (h : i < n) :
    (s.readBytes a n).getD i 0#8 = s.readByte (a + i) := by
  induction n generalizing a i with
  | zero => omega
  | succ n ih =>
    cases i with
    | zero => simp [State.readBytes]
    | succ i =>
      have := ih (a + 1) i (by omega)
      rw [State.readBytes, List.getD_cons_succ, this]
      congr 1
      omega

/-- Two byte lists of one length are equal where their bytes are. -/
theorem bytes_ext {xs ys : List Byte} (hl : xs.length = ys.length)
    (h : ∀ i, i < xs.length → xs.getD i 0#8 = ys.getD i 0#8) : xs = ys := by
  apply List.ext_getElem hl
  intro i h1 h2
  have := h i h1
  rwa [List.getD_eq_getElem _ _ h1, List.getD_eq_getElem _ _ h2] at this

/-- The bytes of a range are those that stand at its offsets. -/
theorem State.readBytes_eq_of (s : State) (a : Nat) (bs : List Byte)
    (h : ∀ i, i < bs.length → s.readByte (a + i) = bs.getD i 0#8) : s.readBytes a bs.length = bs := by
  apply bytes_ext (by simp)
  intro i hi
  rw [State.readBytes_length] at hi
  rw [State.readBytes_getD _ _ _ _ hi, h i hi]

/-- Consecutive bytes read as they were written. -/
theorem State.readBytes_writeBytes_same (s : State) (a : Nat) (bs : List Byte) :
    (s.writeBytes a bs).readBytes a bs.length = bs := by
  apply State.readBytes_eq_of
  intro i hi
  rw [State.readByte_writeBytes, if_pos (by omega)]
  congr 1
  omega

theorem State.readBytes_eq_of_readByte_eq {s t : State} {a n : Nat}
    (h : ∀ x, a ≤ x → x < a + n → s.readByte x = t.readByte x) :
    s.readBytes a n = t.readBytes a n := by
  apply bytes_ext (by simp)
  intro i hi
  rw [State.readBytes_length] at hi
  rw [State.readBytes_getD _ _ _ _ hi, State.readBytes_getD _ _ _ _ hi]
  exact h _ (by omega) (by omega)

/-! ### Buffer writes (R67) -/

/-- The bytes a buffer write of `n` bytes may change: the list, and the byte after one of odd
length. -/
theorem State.readByte_writeBuffer_outside (s : State) (a x : Nat) (bs : List Byte)
    (h : x < a ∨ a + bs.length + bs.length % 2 ≤ x) : (s.writeBuffer a bs).readByte x = s.readByte x := by
  unfold State.writeBuffer
  split
  · exact s.readByte_writeBytes_outside a x bs (by omega)
  · rw [State.readByte_writeBytes_outside _ _ _ _ (by simp; omega),
      State.readByte_congr (State.takePad_pma _),
      s.readByte_writeBytes_outside a x bs (by omega)]

/-- The bytes of a buffer write are exactly the list. -/
theorem State.readByte_writeBuffer_inside (s : State) (a i : Nat) (bs : List Byte)
    (h : i < bs.length) : (s.writeBuffer a bs).readByte (a + i) = bs.getD i 0#8 := by
  have hb : (s.writeBytes a bs).readByte (a + i) = bs.getD i 0#8 := by
    rw [State.readByte_writeBytes, if_pos (by omega)]
    congr 1
    omega
  unfold State.writeBuffer
  split
  · exact hb
  · rw [State.readByte_writeBytes_outside _ _ _ _ (by simp; omega),
      State.readByte_congr (State.takePad_pma _), hb]

theorem State.readBytes_writeBuffer_same (s : State) (a : Nat) (bs : List Byte) :
    (s.writeBuffer a bs).readBytes a bs.length = bs :=
  State.readBytes_eq_of _ _ _ fun i hi => s.readByte_writeBuffer_inside a i bs hi

theorem State.readHalf_writeBuffer_outside (s : State) (a x : Nat) (bs : List Byte)
    (h : x + 2 ≤ a ∨ a + bs.length + bs.length % 2 ≤ x) :
    (s.writeBuffer a bs).readHalf x = s.readHalf x := by
  unfold State.readHalf
  rw [s.readByte_writeBuffer_outside a x bs (by omega),
    s.readByte_writeBuffer_outside a (x + 1) bs (by omega)]

/-! ### The canonical form -/

theorem Memory.wf_cons {size : Nat} {c : Host.Cell} {m : List Host.Cell} :
    Memory.wf size (c :: m) = true ↔
      c.1 < size ∧ (∀ d ∈ m, c.1 < d.1) ∧ Memory.wf size m = true := by
  induction m generalizing c with
  | nil => simp [Memory.wf]
  | cons d m ih =>
    rw [Memory.wf, Bool.and_eq_true, decide_eq_true_iff, ih]
    constructor
    · rintro ⟨h1, h2, h3, h4⟩
      refine ⟨by omega, ?_, h2, h3, h4⟩
      intro e he
      rcases List.mem_cons.mp he with rfl | he
      · exact h1
      · have := h3 e he
        omega
    · rintro ⟨_, h2, h3⟩
      exact ⟨h2 d (by simp), h3⟩

theorem Memory.mem_write {m : List Host.Cell} {a : Nat} {b : Byte} {d : Host.Cell}
    (h : d ∈ Memory.write m a b) : d = (a, b) ∨ d ∈ m := by
  induction m with
  | nil => simpa [Memory.write] using h
  | cons c m ih =>
    unfold Memory.write at h
    split at h
    · simpa using h
    · split at h
      · rcases List.mem_cons.mp h with h | h
        · exact .inl h
        · exact .inr (List.mem_cons_of_mem _ h)
      · rcases List.mem_cons.mp h with h | h
        · exact .inr (by simp [h])
        · rcases ih h with h | h
          · exact .inl h
          · exact .inr (List.mem_cons_of_mem _ h)

/-- A write of a byte of packet memory keeps the canonical form. -/
theorem Memory.wf_write {size : Nat} {m : List Host.Cell} (h : Memory.wf size m = true) {a : Nat}
    (ha : a < size) (b : Byte) : Memory.wf size (Memory.write m a b) = true := by
  induction m with
  | nil => simpa [Memory.write, Memory.wf] using ha
  | cons c m ih =>
    have hc := Memory.wf_cons.mp h
    unfold Memory.write
    split
    · next hlt =>
      refine Memory.wf_cons.mpr ⟨ha, ?_, h⟩
      intro d hd
      rcases List.mem_cons.mp hd with rfl | hd
      · exact hlt
      · have := hc.2.1 d hd
        simp only
        omega
    · split
      · next heq =>
        refine Memory.wf_cons.mpr ⟨ha, ?_, hc.2.2⟩
        intro d hd
        have := hc.2.1 d hd
        simp only
        omega
      · next h1 h2 =>
        refine Memory.wf_cons.mpr ⟨hc.1, ?_, ih hc.2.2⟩
        intro d hd
        rcases Memory.mem_write hd with rfl | hd
        · simp only
          omega
        · exact hc.2.1 d hd

theorem Memory.wf_writeBytes {size : Nat} {m : List Host.Cell} (h : Memory.wf size m = true) (a : Nat)
    (bs : List Byte) (ha : a + bs.length ≤ size) : Memory.wf size (Memory.writeBytes m a bs) = true := by
  induction bs generalizing m a with
  | nil => exact h
  | cons b bs ih =>
    rw [List.length_cons] at ha
    exact ih (Memory.wf_write h (by omega) b) (a + 1) (by omega)

/-- Canonical memories that agree at every offset are equal. -/
theorem Memory.ext {size : Nat} {m m' : List Host.Cell} (h : Memory.wf size m = true)
    (h' : Memory.wf size m' = true)
    (heq : ∀ a, Memory.lookup m a = Memory.lookup m' a) : m = m' := by
  have above : ∀ {n : List Host.Cell} {a : Nat}, (∀ d ∈ n, a < d.1) → Memory.lookup n a = none := by
    intro n a hn
    induction n with
    | nil => rfl
    | cons d n ih =>
      have := hn d (by simp)
      have hne : ¬ d.1 = a := by omega
      simp only [Memory.lookup, hne, if_false]
      exact ih fun e he => hn e (List.mem_cons_of_mem _ he)
  induction m generalizing m' with
  | nil =>
    cases m' with
    | nil => rfl
    | cons d m' => simpa [Memory.lookup] using heq d.1
  | cons c m ih =>
    cases m' with
    | nil => simpa [Memory.lookup] using heq c.1
    | cons d m' =>
      have hc := Memory.wf_cons.mp h
      have hd := Memory.wf_cons.mp h'
      have key : c.1 = d.1 := by
        rcases Nat.lt_trichotomy c.1 d.1 with hlt | he | hlt
        · have h1 : Memory.lookup (d :: m') c.1 = none := by
            apply above
            intro e he
            rcases List.mem_cons.mp he with rfl | he
            · exact hlt
            · have := hd.2.1 e he
              omega
          rw [← heq c.1] at h1
          simp [Memory.lookup] at h1
        · exact he
        · have h1 : Memory.lookup (c :: m) d.1 = none := by
            apply above
            intro e he
            rcases List.mem_cons.mp he with rfl | he
            · exact hlt
            · have := hc.2.1 e he
              omega
          rw [heq d.1] at h1
          simp [Memory.lookup] at h1
      have val : c.2 = d.2 := by
        have := heq c.1
        simp [Memory.lookup, key] at this
        exact this
      have hcd : c = d := Prod.ext key val
      subst hcd
      congr 1
      apply ih hc.2.2 hd.2.2
      intro a
      by_cases ha : c.1 = a
      · subst ha
        rw [above hc.2.1, above hd.2.1]
      · have := heq a
        simpa [Memory.lookup, ha] using this

/-! ### The packet memory of a state -/

theorem State.accessOk_congr {s t : State} (h : t.cfg = s.cfg) (a n : Nat) :
    t.accessOk a n = s.accessOk a n := by simp [State.accessOk, h]

theorem State.Canonical.congr {s t : State} (h : s.Canonical) (hc : t.cfg = s.cfg) (hp : t.pma = s.pma) :
    t.Canonical := by simpa only [State.Canonical, hc, hp] using h

theorem State.writeBytes_wf {s : State} (h : s.Canonical) (a : Nat) (bs : List Byte)
    (ha : a + bs.length ≤ s.cfg.pmaSize) : (s.writeBytes a bs).Canonical :=
  Memory.wf_writeBytes h a bs ha

theorem State.writeHalf_wf {s : State} (h : s.Canonical) (a : Nat) (v : Half)
    (ha : a + 2 ≤ s.cfg.pmaSize) : (s.writeHalf a v).Canonical :=
  Memory.wf_writeBytes h a (le16 v) (by simpa using ha)

theorem State.accessOk_bound {s : State} {a n : Nat} (h : s.accessOk a n = true) (hn : n ≠ 0) :
    a % 2 = 0 ∧ a + n ≤ s.cfg.pmaSize := by
  simpa [State.accessOk, hn] using h

/-- A buffer write that lies in packet memory keeps the canonical form. -/
theorem State.writeBuffer_wf {s : State} (h : s.Canonical) (a : Nat) (bs : List Byte)
    (ha : s.accessOk a bs.length = true) : (s.writeBuffer a bs).Canonical := by
  have hb : bs.length ≠ 0 → a + bs.length ≤ s.cfg.pmaSize := fun hn => (State.accessOk_bound ha hn).2
  unfold State.writeBuffer
  split
  · by_cases hn : bs.length = 0
    · rw [List.length_eq_zero_iff] at hn
      subst hn
      exact h
    · exact State.writeBytes_wf h _ _ (hb hn)
  · next hodd =>
    have hn : bs.length ≠ 0 := by omega
    apply State.writeBytes_wf
    · exact State.Canonical.congr (State.writeBytes_wf h _ _ (hb hn)) (by simp) (State.takePad_pma _)
    · simp only [List.length_singleton, State.takePad_cfg, State.writeBytes_cfg]
      omega

end Sys2Proof.Machine
end

