-- ==== Sys2Proof/Laws/Encoding.lean ====
section
/-! SUPPORT. The pieces of the decoder and the encoder: byte assembly, the fields of a decode key, the
bytes of a token, and the fields of an event word (30_encoding.md R91, R93, R104, R105). -/

namespace Sys2Proof

open Sys2Proof.Machine

/-! ### The decode key -/

/-- The fields of a SETUP packet's key (R93): bRequest and the descriptor type. -/
theorem setupKey_bRequest (p : List Byte) : (setupKey p).extractLsb' 8 8 = p.getD 1 0#8 := by
  apply BitVec.eq_of_getLsbD_eq
  intro i hi
  have h1 : 8 + i < 16 := by omega
  have h2 : ¬ 8 + i < 8 := by omega
  simp only [setupKey, BitVec.getLsbD_extractLsb', BitVec.getLsbD_append, h1, u16le_getLsbD, h2]
  simp [hi]

theorem setupKey_descType (p : List Byte) : (setupKey p).extractLsb' 24 8 = p.getD 3 0#8 := by
  apply BitVec.eq_of_getLsbD_eq
  intro i hi
  have h1 : ¬ 24 + i < 16 := by omega
  have h2 : ¬ 24 + i - 16 < 8 := by omega
  have h3 : 24 + i - 16 - 8 = i := by omega
  simp only [setupKey, BitVec.getLsbD_extractLsb', BitVec.getLsbD_append, h1, u16le_getLsbD, h2, h3]
  simp [hi]

/-- The mask of a row that fixes bRequest, and of one that fixes the descriptor type as well (R93). -/
theorem key_and_bRequest (k : BitVec 32) :
    k &&& 0x0000FF00#32 = (k.extractLsb' 8 8).setWidth 32 <<< 8 := by
  apply BitVec.eq_of_getLsbD_eq
  intro i hi
  interval_cases i <;> simp

theorem key_and_descType (k : BitVec 32) :
    k &&& 0xFF00FF00#32 =
      ((k.extractLsb' 8 8).setWidth 32 <<< 8) ||| ((k.extractLsb' 24 8).setWidth 32 <<< 24) := by
  apply BitVec.eq_of_getLsbD_eq
  intro i hi
  interval_cases i <;> simp

/-! ### The SETUP packet -/

@[simp] theorem setupBytes_length (t r : Byte) (v x l : Half) : (setupBytes t r v x l).length = 8 := rfl

/-- The assembly of R91 gives back the fields the bytes were made from. -/
theorem setupPacketOf_setupBytes (t r : Byte) (v x l : Half) :
    setupPacketOf (setupBytes t r v x l) = ⟨t, r, v, x, l⟩ := by
  simp [setupPacketOf, setupBytes, le16]

/-- A packet of 8 bytes is the bytes of its fields. -/
theorem setupBytes_setupPacketOf {p : List Byte} (h : p.length = 8) :
    setupBytes (p.getD 0 0#8) (p.getD 1 0#8) (u16le (p.getD 2 0#8) (p.getD 3 0#8))
      (u16le (p.getD 4 0#8) (p.getD 5 0#8)) (u16le (p.getD 6 0#8) (p.getD 7 0#8)) = p := by
  apply bytes_ext (by simpa using h.symm)
  intro i hi
  simp only [setupBytes_length] at hi
  interval_cases i <;> simp [setupBytes, le16]

@[simp] theorem setupKey_setupBytes_bRequest (t r : Byte) (v x l : Half) :
    (setupKey (setupBytes t r v x l)).extractLsb' 8 8 = r := by
  rw [setupKey_bRequest]; rfl

@[simp] theorem setupKey_setupBytes_descType (t r : Byte) (v x l : Half) :
    (setupKey (setupBytes t r v x l)).extractLsb' 24 8 = v.extractLsb' 8 8 := by
  rw [setupKey_descType]; rfl

/-- The decode of a SETUP packet made from its fields. -/
theorem decode_setupBytes (t r : Byte) (v x l : Half) :
    decode (.setup (setupBytes t r v x l)) =
      .ok (requestInstr (decodeRequest (setupKey (setupBytes t r v x l))) ⟨t, r, v, x, l⟩) := by
  simp [decode, decodeSetup, setupPacketOf_setupBytes]

/-- The decode of any packet of 8 bytes (R96: the decode is total). -/
theorem decode_setup_eq_ok {p : List Byte} {i : Instr} :
    decode (.setup p) = .ok i ↔
      p.length = 8 ∧ i = requestInstr (decodeRequest (setupKey p)) (setupPacketOf p) := by
  simp only [decode, decodeSetup]
  split <;> simp_all [eq_comm]

/-! ### Tokens -/

theorem address_byte (a : BitVec 7) : (a.setWidth 8).toNat < 128 := by
  have := a.isLt
  rw [BitVec.toNat_setWidth, Nat.mod_eq_of_lt (by omega)]
  omega

theorem endpoint_byte (ep : BitVec 4) : (ep.setWidth 8).toNat < 16 := by
  have := ep.isLt
  rw [BitVec.toNat_setWidth, Nat.mod_eq_of_lt (by omega)]
  omega

/-- A token's address and endpoint bytes decode to the address and the endpoint. -/
theorem decodeToken_bytes (a : BitVec 7) (ep : BitVec 4) (data : List Byte) :
    decodeToken (a.setWidth 8 :: ep.setWidth 8 :: data) = .ok (a, ep, data) := by
  have ha := address_byte a
  have he := endpoint_byte ep
  have ha' : (a.setWidth 8).setWidth 7 = a := by
    apply BitVec.eq_of_toNat_eq
    have := a.isLt
    simp
  have he' : (ep.setWidth 8).setWidth 4 = ep := by
    apply BitVec.eq_of_toNat_eq
    have := ep.isLt
    simp
  simp only [decodeToken]
  rw [if_neg (by omega), if_neg (by omega), ha', he']

/-- The address and the endpoint that a token's bytes decode to encode to them. -/
theorem decodeToken_eq_ok {bs : List Byte} {a : BitVec 7} {ep : BitVec 4} {data : List Byte}
    (h : decodeToken bs = .ok (a, ep, data)) : bs = a.setWidth 8 :: ep.setWidth 8 :: data := by
  match bs with
  | [] => simp [decodeToken] at h
  | [_] => simp [decodeToken] at h
  | x :: y :: rest =>
    simp only [decodeToken] at h
    split at h
    · simp at h
    · split at h
      · simp at h
      · next h1 h2 =>
        simp only [Except.ok.injEq, Prod.mk.injEq] at h
        obtain ⟨rfl, rfl, rfl⟩ := h
        have hx : (x.setWidth 7).setWidth 8 = x := by
          apply BitVec.eq_of_toNat_eq
          rw [BitVec.toNat_setWidth, BitVec.toNat_setWidth]
          omega
        have hy : (y.setWidth 4).setWidth 8 = y := by
          apply BitVec.eq_of_toNat_eq
          rw [BitVec.toNat_setWidth, BitVec.toNat_setWidth]
          omega
        rw [hx, hy]

/-- The four kinds of transaction, by their bytes. -/
theorem decode_bus_setup (a : BitVec 7) (ep : BitVec 4) (data : List Byte) (h : data.length = 8) :
    decode (.input (.bus (tokenBytes pidSetup a ep ++ data))) = .ok (.busSetup a ep data) := by
  simp only [decode, decodeInput, tokenBytes, List.cons_append, List.nil_append, decodeBus]
  rw [if_neg (by decide), if_pos trivial, decodeToken_bytes]
  simp [h]

theorem decode_bus_out (a : BitVec 7) (ep : BitVec 4) (data : List Byte) (h : data.length ≤ 1023) :
    decode (.input (.bus (tokenBytes pidOut a ep ++ data))) = .ok (.busOut a ep data) := by
  simp only [decode, decodeInput, tokenBytes, List.cons_append, List.nil_append, decodeBus]
  rw [if_neg (by decide), if_neg (by decide), if_pos trivial, decodeToken_bytes]
  simp [h]

theorem decode_bus_in (a : BitVec 7) (ep : BitVec 4) :
    decode (.input (.bus (tokenBytes pidIn a ep))) = .ok (.busIn a ep) := by
  simp only [decode, decodeInput, tokenBytes, decodeBus]
  rw [if_neg (by decide), if_neg (by decide), if_neg (by decide), if_pos trivial, decodeToken_bytes]
  simp

theorem decode_bus_reset : decode (.input (.bus [noPid])) = .ok .busReset := by decide

/-- What a transaction that decodes is, and the bytes it was decoded from. -/
theorem decodeBus_cases {bs : List Byte} {i : Instr} (h : decodeBus bs = .ok i) :
    (bs = [noPid] ∧ i = .busReset) ∨
    (∃ a ep data, data.length = 8 ∧ bs = tokenBytes pidSetup a ep ++ data ∧ i = .busSetup a ep data) ∨
    (∃ a ep data, data.length ≤ 1023 ∧ bs = tokenBytes pidOut a ep ++ data ∧ i = .busOut a ep data) ∨
    (∃ a ep, bs = tokenBytes pidIn a ep ∧ i = .busIn a ep) := by
  match bs with
  | [] => simp [decodeBus] at h
  | pid :: rest =>
    simp only [decodeBus] at h
    split at h
    · next hp =>
      split at h
      · next hr => simp only [Except.ok.injEq] at h; left; exact ⟨by rw [hp, hr], h.symm⟩
      · simp at h
    · split at h
      · next hp =>
        split at h
        · simp at h
        · next a ep data ht =>
          split at h
          · next hl =>
            simp only [Except.ok.injEq] at h
            right; left
            exact ⟨a, ep, data, hl, by rw [hp, decodeToken_eq_ok ht]; rfl, h.symm⟩
          · simp at h
      · split at h
        · next hp =>
          split at h
          · simp at h
          · next a ep data ht =>
            split at h
            · next hl =>
              simp only [Except.ok.injEq] at h
              right; right; left
              exact ⟨a, ep, data, hl, by rw [hp, decodeToken_eq_ok ht]; rfl, h.symm⟩
            · simp at h
        · split at h
          · next hp =>
            split at h
            · simp at h
            · next a ep data ht =>
              split at h
              · next hl =>
                simp only [Except.ok.injEq] at h
                subst hl
                right; right; right
                exact ⟨a, ep, by rw [hp, decodeToken_eq_ok ht]; rfl, h.symm⟩
              · simp at h
          · split at h <;> simp at h

/-! ### Event words -/

theorem ctrWord_ctr (n : BitVec 4) (d : BitVec 1) : (ctrWord n d).getLsbD 15 = true := by
  revert n d; decide

theorem ctrWord_reset (n : BitVec 4) (d : BitVec 1) : (ctrWord n d).getLsbD 10 = false := by
  revert n d; decide

theorem ctrWord_epId (n : BitVec 4) (d : BitVec 1) : (ctrWord n d).extractLsb' 0 4 = n := by
  revert n d; decide

theorem ctrWord_dir (n : BitVec 4) (d : BitVec 1) : (ctrWord n d).extractLsb' 4 1 = d := by
  revert n d; decide

/-- A stored part of ISTR beside the derived fields (R27, R28): the fields of the read view. -/
theorem istrOr_fields (stored : Half) (n : BitVec 4) (d : BitVec 1) :
    ((stored &&& Istr.storedMask) ||| ctrWord n d).getLsbD 15 = true ∧
    ((stored &&& Istr.storedMask) ||| ctrWord n d).getLsbD 10 = stored.getLsbD 10 ∧
    ((stored &&& Istr.storedMask) ||| ctrWord n d).extractLsb' 0 4 = n ∧
    ((stored &&& Istr.storedMask) ||| ctrWord n d).extractLsb' 4 1 = d := by
  refine ⟨by rw [BitVec.getLsbD_or, ctrWord_ctr, Bool.or_true], ?_, ?_, ?_⟩
  · rw [BitVec.getLsbD_or, ctrWord_reset, BitVec.getLsbD_and]
    simp [Istr.storedMask]
  · refine Eq.trans ?_ (ctrWord_epId n d)
    apply BitVec.eq_of_getLsbD_eq
    intro i hi
    have h : Istr.storedMask.getLsbD i = false := by interval_cases i <;> decide
    simp only [BitVec.getLsbD_extractLsb', Nat.zero_add, BitVec.getLsbD_or, BitVec.getLsbD_and, h,
      Bool.and_false, Bool.false_or]
  · refine Eq.trans ?_ (ctrWord_dir n d)
    apply BitVec.eq_of_getLsbD_eq
    intro i hi
    have h : Istr.storedMask.getLsbD (4 + i) = false := by interval_cases i; decide
    simp only [BitVec.getLsbD_extractLsb', BitVec.getLsbD_or, BitVec.getLsbD_and, h,
      Bool.and_false, Bool.false_or]

/-- The stored part alone reads CTR, DIR and EP_ID as 0. -/
theorem istrStored_fields (stored : Half) :
    (stored &&& Istr.storedMask).getLsbD 15 = false ∧
    (stored &&& Istr.storedMask).getLsbD 10 = stored.getLsbD 10 ∧
    (stored &&& Istr.storedMask).extractLsb' 0 4 = 0#4 ∧
    (stored &&& Istr.storedMask).extractLsb' 4 1 = 0#1 := by
  refine ⟨by simp [Istr.storedMask], by simp [Istr.storedMask], ?_, ?_⟩
  · apply BitVec.eq_of_getLsbD_eq
    intro i hi
    have : Istr.storedMask.getLsbD i = false := by interval_cases i <;> decide
    simp [BitVec.getLsbD_extractLsb', this]
  · apply BitVec.eq_of_getLsbD_eq
    intro i hi
    have : Istr.storedMask.getLsbD (4 + i) = false := by interval_cases i; decide
    simp [BitVec.getLsbD_extractLsb', this]

end Sys2Proof
end

