-- ==== Sys2Proof/Laws/Fields.lean ====
section
/-! SUPPORT. Reading a field after writing one: `R.F <- v` writes the field and leaves every other field
unchanged (00_scope.md R11). -/

namespace Sys2Proof.Machine

theorem getLsbD_fieldMask (lo len i : Nat) (h : lo + len ≤ 16) :
    (fieldMask lo len).getLsbD i = decide (lo ≤ i ∧ i < lo + len) := by
  unfold fieldMask
  rw [BitVec.getLsbD_shiftLeft, BitVec.getLsbD_setWidth, BitVec.getLsbD_allOnes]
  by_cases h1 : i < lo
  · simp [h1, Nat.not_le.mpr h1]
  · by_cases h2 : i < lo + len
    · have : i - lo < len := by omega
      have : i < 16 := by omega
      have : i - lo < 16 := by omega
      simp_all
    · have h3 : ¬ i - lo < len := by omega
      simp only [h1, h2, h3, decide_false, Bool.and_false, and_false]

/-- The bits of a word after a field write. -/
theorem getLsbD_withField (w : Half) (lo : Nat) {len : Nat} (v : BitVec len) (i : Nat)
    (h : lo + len ≤ 16) :
    (withField w lo v).getLsbD i =
      if lo ≤ i ∧ i < lo + len then v.getLsbD (i - lo) else w.getLsbD i := by
  unfold withField
  rw [BitVec.getLsbD_or, BitVec.getLsbD_and, BitVec.getLsbD_not, getLsbD_fieldMask _ _ _ h,
    BitVec.getLsbD_shiftLeft, BitVec.getLsbD_setWidth]
  by_cases h1 : lo ≤ i
  · by_cases h2 : i < lo + len
    · have : i < 16 := by omega
      have : i - lo < 16 := by omega
      simp_all
    · have h3 : v.getLsbD (i - lo) = false := BitVec.getLsbD_of_ge _ _ (by omega)
      by_cases h4 : i < 16
      · simp [h2, h3, h4]
      · have : w.getLsbD i = false := BitVec.getLsbD_of_ge _ _ (by omega)
        simp [h2, h3, this]
  · have h2 : i < lo := by omega
    by_cases h4 : i < 16
    · simp [h1, h2, h4]
    · omega

/-- The bits of a field. -/
theorem getLsbD_field (w : Half) (lo len i : Nat) :
    (field w lo len).getLsbD i = (decide (i < len) && w.getLsbD (lo + i)) := by
  unfold field
  rw [BitVec.getLsbD_extractLsb']

/-- A field reads as what was written to it. -/
theorem field_withField_same (w : Half) (lo len : Nat) (v : BitVec len) (h : lo + len ≤ 16) :
    field (withField w lo v) lo len = v := by
  apply BitVec.eq_of_getLsbD_eq
  intro i hi
  rw [getLsbD_field, getLsbD_withField _ _ _ _ h]
  have : lo ≤ lo + i ∧ lo + i < lo + len := by omega
  simp [hi]

/-- A field reads as before where another one was written. -/
theorem field_withField_other (w : Half) (lo len lo' len' : Nat) (v : BitVec len)
    (h : lo + len ≤ 16) (hd : lo' + len' ≤ lo ∨ lo + len ≤ lo') :
    field (withField w lo v) lo' len' = field w lo' len' := by
  apply BitVec.eq_of_getLsbD_eq
  intro i hi
  rw [getLsbD_field, getLsbD_field, getLsbD_withField _ _ _ _ h]
  have : ¬ (lo ≤ lo' + i ∧ lo' + i < lo + len) := by omega
  simp [this]

theorem withField_field_same (w : Half) (lo len : Nat) (h : lo + len ≤ 16) :
    withField w lo (field w lo len) = w := by
  apply BitVec.eq_of_getLsbD_eq
  intro i _
  rw [getLsbD_withField _ _ _ _ h]
  split
  · rw [getLsbD_field]
    have h1 : i - lo < len := by omega
    have h2 : lo + (i - lo) = i := by omega
    simp [h1, h2]
  · rfl

theorem withField_withField_same (w : Half) (lo len : Nat) (v v' : BitVec len) (h : lo + len ≤ 16) :
    withField (withField w lo v) lo v' = withField w lo v' := by
  apply BitVec.eq_of_getLsbD_eq
  intro i _
  rw [getLsbD_withField _ _ _ _ h, getLsbD_withField _ _ _ _ h, getLsbD_withField _ _ _ _ h]
  split <;> rfl

theorem withField_comm (w : Half) (lo len lo' len' : Nat) (v : BitVec len) (v' : BitVec len')
    (h : lo + len ≤ 16) (h' : lo' + len' ≤ 16) (hd : lo' + len' ≤ lo ∨ lo + len ≤ lo') :
    withField (withField w lo v) lo' v' = withField (withField w lo' v') lo v := by
  apply BitVec.eq_of_getLsbD_eq
  intro i _
  simp only [getLsbD_withField _ _ _ _ h, getLsbD_withField _ _ _ _ h']
  by_cases h1 : lo ≤ i ∧ i < lo + len
  · have h2 : ¬ (lo' ≤ i ∧ i < lo' + len') := by omega
    simp [h1, h2]
  · simp [h1]

@[simp] theorem Stat.ofBits_bits (st : Stat) : Stat.ofBits (Stat.bits st) = st := by
  cases st <;> decide

@[simp] theorem ofBool_getLsbD_zero (b : Bool) : (BitVec.ofBool b).getLsbD 0 = b := by
  cases b <;> rfl

/-! ### Each field of EPR[n] after each field write -/

@[simp] theorem Epr.ctrRx_withCtrRx (w : Half) (v : Bool) : Epr.ctrRx (Epr.withCtrRx w v) = v := by
  unfold Epr.ctrRx Epr.withCtrRx; rw [getLsbD_withField _ _ _ _ (by decide)]; simp
@[simp] theorem Epr.dtogRx_withCtrRx (w : Half) (v : Bool) : Epr.dtogRx (Epr.withCtrRx w v) = Epr.dtogRx w := by
  unfold Epr.dtogRx Epr.withCtrRx; rw [getLsbD_withField _ _ _ _ (by decide)]; simp
@[simp] theorem Epr.statRx_withCtrRx (w : Half) (v : Bool) : Epr.statRx (Epr.withCtrRx w v) = Epr.statRx w := by
  unfold Epr.statRx Epr.withCtrRx; rw [field_withField_other _ _ _ _ _ _ (by decide) (by decide)]
@[simp] theorem Epr.setupFlag_withCtrRx (w : Half) (v : Bool) : Epr.setupFlag (Epr.withCtrRx w v) = Epr.setupFlag w := by
  unfold Epr.setupFlag Epr.withCtrRx; rw [getLsbD_withField _ _ _ _ (by decide)]; simp
@[simp] theorem Epr.epType_withCtrRx (w : Half) (v : Bool) : Epr.epType (Epr.withCtrRx w v) = Epr.epType w := by
  unfold Epr.epType Epr.withCtrRx; rw [field_withField_other _ _ _ _ _ _ (by decide) (by decide)]
@[simp] theorem Epr.epKind_withCtrRx (w : Half) (v : Bool) : Epr.epKind (Epr.withCtrRx w v) = Epr.epKind w := by
  unfold Epr.epKind Epr.withCtrRx; rw [getLsbD_withField _ _ _ _ (by decide)]; simp
@[simp] theorem Epr.ctrTx_withCtrRx (w : Half) (v : Bool) : Epr.ctrTx (Epr.withCtrRx w v) = Epr.ctrTx w := by
  unfold Epr.ctrTx Epr.withCtrRx; rw [getLsbD_withField _ _ _ _ (by decide)]; simp
@[simp] theorem Epr.dtogTx_withCtrRx (w : Half) (v : Bool) : Epr.dtogTx (Epr.withCtrRx w v) = Epr.dtogTx w := by
  unfold Epr.dtogTx Epr.withCtrRx; rw [getLsbD_withField _ _ _ _ (by decide)]; simp
@[simp] theorem Epr.statTx_withCtrRx (w : Half) (v : Bool) : Epr.statTx (Epr.withCtrRx w v) = Epr.statTx w := by
  unfold Epr.statTx Epr.withCtrRx; rw [field_withField_other _ _ _ _ _ _ (by decide) (by decide)]
@[simp] theorem Epr.ea_withCtrRx (w : Half) (v : Bool) : Epr.ea (Epr.withCtrRx w v) = Epr.ea w := by
  unfold Epr.ea Epr.withCtrRx; rw [field_withField_other _ _ _ _ _ _ (by decide) (by decide)]
@[simp] theorem Epr.ctrRx_withStatRx (w : Half) (v : Stat) : Epr.ctrRx (Epr.withStatRx w v) = Epr.ctrRx w := by
  unfold Epr.ctrRx Epr.withStatRx; rw [getLsbD_withField _ _ _ _ (by decide)]; simp
@[simp] theorem Epr.dtogRx_withStatRx (w : Half) (v : Stat) : Epr.dtogRx (Epr.withStatRx w v) = Epr.dtogRx w := by
  unfold Epr.dtogRx Epr.withStatRx; rw [getLsbD_withField _ _ _ _ (by decide)]; simp
@[simp] theorem Epr.statRx_withStatRx (w : Half) (v : Stat) : Epr.statRx (Epr.withStatRx w v) = v := by
  unfold Epr.statRx Epr.withStatRx; rw [field_withField_same _ _ _ _ (by decide), Stat.ofBits_bits]
@[simp] theorem Epr.setupFlag_withStatRx (w : Half) (v : Stat) : Epr.setupFlag (Epr.withStatRx w v) = Epr.setupFlag w := by
  unfold Epr.setupFlag Epr.withStatRx; rw [getLsbD_withField _ _ _ _ (by decide)]; simp
@[simp] theorem Epr.epType_withStatRx (w : Half) (v : Stat) : Epr.epType (Epr.withStatRx w v) = Epr.epType w := by
  unfold Epr.epType Epr.withStatRx; rw [field_withField_other _ _ _ _ _ _ (by decide) (by decide)]
@[simp] theorem Epr.epKind_withStatRx (w : Half) (v : Stat) : Epr.epKind (Epr.withStatRx w v) = Epr.epKind w := by
  unfold Epr.epKind Epr.withStatRx; rw [getLsbD_withField _ _ _ _ (by decide)]; simp
@[simp] theorem Epr.ctrTx_withStatRx (w : Half) (v : Stat) : Epr.ctrTx (Epr.withStatRx w v) = Epr.ctrTx w := by
  unfold Epr.ctrTx Epr.withStatRx; rw [getLsbD_withField _ _ _ _ (by decide)]; simp
@[simp] theorem Epr.dtogTx_withStatRx (w : Half) (v : Stat) : Epr.dtogTx (Epr.withStatRx w v) = Epr.dtogTx w := by
  unfold Epr.dtogTx Epr.withStatRx; rw [getLsbD_withField _ _ _ _ (by decide)]; simp
@[simp] theorem Epr.statTx_withStatRx (w : Half) (v : Stat) : Epr.statTx (Epr.withStatRx w v) = Epr.statTx w := by
  unfold Epr.statTx Epr.withStatRx; rw [field_withField_other _ _ _ _ _ _ (by decide) (by decide)]
@[simp] theorem Epr.ea_withStatRx (w : Half) (v : Stat) : Epr.ea (Epr.withStatRx w v) = Epr.ea w := by
  unfold Epr.ea Epr.withStatRx; rw [field_withField_other _ _ _ _ _ _ (by decide) (by decide)]
@[simp] theorem Epr.ctrRx_withSetup (w : Half) (v : Bool) : Epr.ctrRx (Epr.withSetup w v) = Epr.ctrRx w := by
  unfold Epr.ctrRx Epr.withSetup; rw [getLsbD_withField _ _ _ _ (by decide)]; simp
@[simp] theorem Epr.dtogRx_withSetup (w : Half) (v : Bool) : Epr.dtogRx (Epr.withSetup w v) = Epr.dtogRx w := by
  unfold Epr.dtogRx Epr.withSetup; rw [getLsbD_withField _ _ _ _ (by decide)]; simp
@[simp] theorem Epr.statRx_withSetup (w : Half) (v : Bool) : Epr.statRx (Epr.withSetup w v) = Epr.statRx w := by
  unfold Epr.statRx Epr.withSetup; rw [field_withField_other _ _ _ _ _ _ (by decide) (by decide)]
@[simp] theorem Epr.setupFlag_withSetup (w : Half) (v : Bool) : Epr.setupFlag (Epr.withSetup w v) = v := by
  unfold Epr.setupFlag Epr.withSetup; rw [getLsbD_withField _ _ _ _ (by decide)]; simp
@[simp] theorem Epr.epType_withSetup (w : Half) (v : Bool) : Epr.epType (Epr.withSetup w v) = Epr.epType w := by
  unfold Epr.epType Epr.withSetup; rw [field_withField_other _ _ _ _ _ _ (by decide) (by decide)]
@[simp] theorem Epr.epKind_withSetup (w : Half) (v : Bool) : Epr.epKind (Epr.withSetup w v) = Epr.epKind w := by
  unfold Epr.epKind Epr.withSetup; rw [getLsbD_withField _ _ _ _ (by decide)]; simp
@[simp] theorem Epr.ctrTx_withSetup (w : Half) (v : Bool) : Epr.ctrTx (Epr.withSetup w v) = Epr.ctrTx w := by
  unfold Epr.ctrTx Epr.withSetup; rw [getLsbD_withField _ _ _ _ (by decide)]; simp
@[simp] theorem Epr.dtogTx_withSetup (w : Half) (v : Bool) : Epr.dtogTx (Epr.withSetup w v) = Epr.dtogTx w := by
  unfold Epr.dtogTx Epr.withSetup; rw [getLsbD_withField _ _ _ _ (by decide)]; simp
@[simp] theorem Epr.statTx_withSetup (w : Half) (v : Bool) : Epr.statTx (Epr.withSetup w v) = Epr.statTx w := by
  unfold Epr.statTx Epr.withSetup; rw [field_withField_other _ _ _ _ _ _ (by decide) (by decide)]
@[simp] theorem Epr.ea_withSetup (w : Half) (v : Bool) : Epr.ea (Epr.withSetup w v) = Epr.ea w := by
  unfold Epr.ea Epr.withSetup; rw [field_withField_other _ _ _ _ _ _ (by decide) (by decide)]
@[simp] theorem Epr.ctrRx_withEpType (w : Half) (v : BitVec 2) : Epr.ctrRx (Epr.withEpType w v) = Epr.ctrRx w := by
  unfold Epr.ctrRx Epr.withEpType; rw [getLsbD_withField _ _ _ _ (by decide)]; simp
@[simp] theorem Epr.dtogRx_withEpType (w : Half) (v : BitVec 2) : Epr.dtogRx (Epr.withEpType w v) = Epr.dtogRx w := by
  unfold Epr.dtogRx Epr.withEpType; rw [getLsbD_withField _ _ _ _ (by decide)]; simp
@[simp] theorem Epr.statRx_withEpType (w : Half) (v : BitVec 2) : Epr.statRx (Epr.withEpType w v) = Epr.statRx w := by
  unfold Epr.statRx Epr.withEpType; rw [field_withField_other _ _ _ _ _ _ (by decide) (by decide)]
@[simp] theorem Epr.setupFlag_withEpType (w : Half) (v : BitVec 2) : Epr.setupFlag (Epr.withEpType w v) = Epr.setupFlag w := by
  unfold Epr.setupFlag Epr.withEpType; rw [getLsbD_withField _ _ _ _ (by decide)]; simp
@[simp] theorem Epr.epType_withEpType (w : Half) (v : BitVec 2) : Epr.epType (Epr.withEpType w v) = v := by
  unfold Epr.epType Epr.withEpType; rw [field_withField_same _ _ _ _ (by decide)]
@[simp] theorem Epr.epKind_withEpType (w : Half) (v : BitVec 2) : Epr.epKind (Epr.withEpType w v) = Epr.epKind w := by
  unfold Epr.epKind Epr.withEpType; rw [getLsbD_withField _ _ _ _ (by decide)]; simp
@[simp] theorem Epr.ctrTx_withEpType (w : Half) (v : BitVec 2) : Epr.ctrTx (Epr.withEpType w v) = Epr.ctrTx w := by
  unfold Epr.ctrTx Epr.withEpType; rw [getLsbD_withField _ _ _ _ (by decide)]; simp
@[simp] theorem Epr.dtogTx_withEpType (w : Half) (v : BitVec 2) : Epr.dtogTx (Epr.withEpType w v) = Epr.dtogTx w := by
  unfold Epr.dtogTx Epr.withEpType; rw [getLsbD_withField _ _ _ _ (by decide)]; simp
@[simp] theorem Epr.statTx_withEpType (w : Half) (v : BitVec 2) : Epr.statTx (Epr.withEpType w v) = Epr.statTx w := by
  unfold Epr.statTx Epr.withEpType; rw [field_withField_other _ _ _ _ _ _ (by decide) (by decide)]
@[simp] theorem Epr.ea_withEpType (w : Half) (v : BitVec 2) : Epr.ea (Epr.withEpType w v) = Epr.ea w := by
  unfold Epr.ea Epr.withEpType; rw [field_withField_other _ _ _ _ _ _ (by decide) (by decide)]
@[simp] theorem Epr.ctrRx_withEpKind (w : Half) (v : Bool) : Epr.ctrRx (Epr.withEpKind w v) = Epr.ctrRx w := by
  unfold Epr.ctrRx Epr.withEpKind; rw [getLsbD_withField _ _ _ _ (by decide)]; simp
@[simp] theorem Epr.dtogRx_withEpKind (w : Half) (v : Bool) : Epr.dtogRx (Epr.withEpKind w v) = Epr.dtogRx w := by
  unfold Epr.dtogRx Epr.withEpKind; rw [getLsbD_withField _ _ _ _ (by decide)]; simp
@[simp] theorem Epr.statRx_withEpKind (w : Half) (v : Bool) : Epr.statRx (Epr.withEpKind w v) = Epr.statRx w := by
  unfold Epr.statRx Epr.withEpKind; rw [field_withField_other _ _ _ _ _ _ (by decide) (by decide)]
@[simp] theorem Epr.setupFlag_withEpKind (w : Half) (v : Bool) : Epr.setupFlag (Epr.withEpKind w v) = Epr.setupFlag w := by
  unfold Epr.setupFlag Epr.withEpKind; rw [getLsbD_withField _ _ _ _ (by decide)]; simp
@[simp] theorem Epr.epType_withEpKind (w : Half) (v : Bool) : Epr.epType (Epr.withEpKind w v) = Epr.epType w := by
  unfold Epr.epType Epr.withEpKind; rw [field_withField_other _ _ _ _ _ _ (by decide) (by decide)]
@[simp] theorem Epr.epKind_withEpKind (w : Half) (v : Bool) : Epr.epKind (Epr.withEpKind w v) = v := by
  unfold Epr.epKind Epr.withEpKind; rw [getLsbD_withField _ _ _ _ (by decide)]; simp
@[simp] theorem Epr.ctrTx_withEpKind (w : Half) (v : Bool) : Epr.ctrTx (Epr.withEpKind w v) = Epr.ctrTx w := by
  unfold Epr.ctrTx Epr.withEpKind; rw [getLsbD_withField _ _ _ _ (by decide)]; simp
@[simp] theorem Epr.dtogTx_withEpKind (w : Half) (v : Bool) : Epr.dtogTx (Epr.withEpKind w v) = Epr.dtogTx w := by
  unfold Epr.dtogTx Epr.withEpKind; rw [getLsbD_withField _ _ _ _ (by decide)]; simp
@[simp] theorem Epr.statTx_withEpKind (w : Half) (v : Bool) : Epr.statTx (Epr.withEpKind w v) = Epr.statTx w := by
  unfold Epr.statTx Epr.withEpKind; rw [field_withField_other _ _ _ _ _ _ (by decide) (by decide)]
@[simp] theorem Epr.ea_withEpKind (w : Half) (v : Bool) : Epr.ea (Epr.withEpKind w v) = Epr.ea w := by
  unfold Epr.ea Epr.withEpKind; rw [field_withField_other _ _ _ _ _ _ (by decide) (by decide)]
@[simp] theorem Epr.ctrRx_withCtrTx (w : Half) (v : Bool) : Epr.ctrRx (Epr.withCtrTx w v) = Epr.ctrRx w := by
  unfold Epr.ctrRx Epr.withCtrTx; rw [getLsbD_withField _ _ _ _ (by decide)]; simp
@[simp] theorem Epr.dtogRx_withCtrTx (w : Half) (v : Bool) : Epr.dtogRx (Epr.withCtrTx w v) = Epr.dtogRx w := by
  unfold Epr.dtogRx Epr.withCtrTx; rw [getLsbD_withField _ _ _ _ (by decide)]; simp
@[simp] theorem Epr.statRx_withCtrTx (w : Half) (v : Bool) : Epr.statRx (Epr.withCtrTx w v) = Epr.statRx w := by
  unfold Epr.statRx Epr.withCtrTx; rw [field_withField_other _ _ _ _ _ _ (by decide) (by decide)]
@[simp] theorem Epr.setupFlag_withCtrTx (w : Half) (v : Bool) : Epr.setupFlag (Epr.withCtrTx w v) = Epr.setupFlag w := by
  unfold Epr.setupFlag Epr.withCtrTx; rw [getLsbD_withField _ _ _ _ (by decide)]; simp
@[simp] theorem Epr.epType_withCtrTx (w : Half) (v : Bool) : Epr.epType (Epr.withCtrTx w v) = Epr.epType w := by
  unfold Epr.epType Epr.withCtrTx; rw [field_withField_other _ _ _ _ _ _ (by decide) (by decide)]
@[simp] theorem Epr.epKind_withCtrTx (w : Half) (v : Bool) : Epr.epKind (Epr.withCtrTx w v) = Epr.epKind w := by
  unfold Epr.epKind Epr.withCtrTx; rw [getLsbD_withField _ _ _ _ (by decide)]; simp
@[simp] theorem Epr.ctrTx_withCtrTx (w : Half) (v : Bool) : Epr.ctrTx (Epr.withCtrTx w v) = v := by
  unfold Epr.ctrTx Epr.withCtrTx; rw [getLsbD_withField _ _ _ _ (by decide)]; simp
@[simp] theorem Epr.dtogTx_withCtrTx (w : Half) (v : Bool) : Epr.dtogTx (Epr.withCtrTx w v) = Epr.dtogTx w := by
  unfold Epr.dtogTx Epr.withCtrTx; rw [getLsbD_withField _ _ _ _ (by decide)]; simp
@[simp] theorem Epr.statTx_withCtrTx (w : Half) (v : Bool) : Epr.statTx (Epr.withCtrTx w v) = Epr.statTx w := by
  unfold Epr.statTx Epr.withCtrTx; rw [field_withField_other _ _ _ _ _ _ (by decide) (by decide)]
@[simp] theorem Epr.ea_withCtrTx (w : Half) (v : Bool) : Epr.ea (Epr.withCtrTx w v) = Epr.ea w := by
  unfold Epr.ea Epr.withCtrTx; rw [field_withField_other _ _ _ _ _ _ (by decide) (by decide)]
@[simp] theorem Epr.ctrRx_withStatTx (w : Half) (v : Stat) : Epr.ctrRx (Epr.withStatTx w v) = Epr.ctrRx w := by
  unfold Epr.ctrRx Epr.withStatTx; rw [getLsbD_withField _ _ _ _ (by decide)]; simp
@[simp] theorem Epr.dtogRx_withStatTx (w : Half) (v : Stat) : Epr.dtogRx (Epr.withStatTx w v) = Epr.dtogRx w := by
  unfold Epr.dtogRx Epr.withStatTx; rw [getLsbD_withField _ _ _ _ (by decide)]; simp
@[simp] theorem Epr.statRx_withStatTx (w : Half) (v : Stat) : Epr.statRx (Epr.withStatTx w v) = Epr.statRx w := by
  unfold Epr.statRx Epr.withStatTx; rw [field_withField_other _ _ _ _ _ _ (by decide) (by decide)]
@[simp] theorem Epr.setupFlag_withStatTx (w : Half) (v : Stat) : Epr.setupFlag (Epr.withStatTx w v) = Epr.setupFlag w := by
  unfold Epr.setupFlag Epr.withStatTx; rw [getLsbD_withField _ _ _ _ (by decide)]; simp
@[simp] theorem Epr.epType_withStatTx (w : Half) (v : Stat) : Epr.epType (Epr.withStatTx w v) = Epr.epType w := by
  unfold Epr.epType Epr.withStatTx; rw [field_withField_other _ _ _ _ _ _ (by decide) (by decide)]
@[simp] theorem Epr.epKind_withStatTx (w : Half) (v : Stat) : Epr.epKind (Epr.withStatTx w v) = Epr.epKind w := by
  unfold Epr.epKind Epr.withStatTx; rw [getLsbD_withField _ _ _ _ (by decide)]; simp
@[simp] theorem Epr.ctrTx_withStatTx (w : Half) (v : Stat) : Epr.ctrTx (Epr.withStatTx w v) = Epr.ctrTx w := by
  unfold Epr.ctrTx Epr.withStatTx; rw [getLsbD_withField _ _ _ _ (by decide)]; simp
@[simp] theorem Epr.dtogTx_withStatTx (w : Half) (v : Stat) : Epr.dtogTx (Epr.withStatTx w v) = Epr.dtogTx w := by
  unfold Epr.dtogTx Epr.withStatTx; rw [getLsbD_withField _ _ _ _ (by decide)]; simp
@[simp] theorem Epr.statTx_withStatTx (w : Half) (v : Stat) : Epr.statTx (Epr.withStatTx w v) = v := by
  unfold Epr.statTx Epr.withStatTx; rw [field_withField_same _ _ _ _ (by decide), Stat.ofBits_bits]
@[simp] theorem Epr.ea_withStatTx (w : Half) (v : Stat) : Epr.ea (Epr.withStatTx w v) = Epr.ea w := by
  unfold Epr.ea Epr.withStatTx; rw [field_withField_other _ _ _ _ _ _ (by decide) (by decide)]
@[simp] theorem Epr.ctrRx_withEa (w : Half) (v : BitVec 4) : Epr.ctrRx (Epr.withEa w v) = Epr.ctrRx w := by
  unfold Epr.ctrRx Epr.withEa; rw [getLsbD_withField _ _ _ _ (by decide)]; simp
@[simp] theorem Epr.dtogRx_withEa (w : Half) (v : BitVec 4) : Epr.dtogRx (Epr.withEa w v) = Epr.dtogRx w := by
  unfold Epr.dtogRx Epr.withEa; rw [getLsbD_withField _ _ _ _ (by decide)]; simp
@[simp] theorem Epr.statRx_withEa (w : Half) (v : BitVec 4) : Epr.statRx (Epr.withEa w v) = Epr.statRx w := by
  unfold Epr.statRx Epr.withEa; rw [field_withField_other _ _ _ _ _ _ (by decide) (by decide)]
@[simp] theorem Epr.setupFlag_withEa (w : Half) (v : BitVec 4) : Epr.setupFlag (Epr.withEa w v) = Epr.setupFlag w := by
  unfold Epr.setupFlag Epr.withEa; rw [getLsbD_withField _ _ _ _ (by decide)]; simp
@[simp] theorem Epr.epType_withEa (w : Half) (v : BitVec 4) : Epr.epType (Epr.withEa w v) = Epr.epType w := by
  unfold Epr.epType Epr.withEa; rw [field_withField_other _ _ _ _ _ _ (by decide) (by decide)]
@[simp] theorem Epr.epKind_withEa (w : Half) (v : BitVec 4) : Epr.epKind (Epr.withEa w v) = Epr.epKind w := by
  unfold Epr.epKind Epr.withEa; rw [getLsbD_withField _ _ _ _ (by decide)]; simp
@[simp] theorem Epr.ctrTx_withEa (w : Half) (v : BitVec 4) : Epr.ctrTx (Epr.withEa w v) = Epr.ctrTx w := by
  unfold Epr.ctrTx Epr.withEa; rw [getLsbD_withField _ _ _ _ (by decide)]; simp
@[simp] theorem Epr.dtogTx_withEa (w : Half) (v : BitVec 4) : Epr.dtogTx (Epr.withEa w v) = Epr.dtogTx w := by
  unfold Epr.dtogTx Epr.withEa; rw [getLsbD_withField _ _ _ _ (by decide)]; simp
@[simp] theorem Epr.statTx_withEa (w : Half) (v : BitVec 4) : Epr.statTx (Epr.withEa w v) = Epr.statTx w := by
  unfold Epr.statTx Epr.withEa; rw [field_withField_other _ _ _ _ _ _ (by decide) (by decide)]
@[simp] theorem Epr.ea_withEa (w : Half) (v : BitVec 4) : Epr.ea (Epr.withEa w v) = v := by
  unfold Epr.ea Epr.withEa; rw [field_withField_same _ _ _ _ (by decide)]

end Sys2Proof.Machine
end

