-- ==== Sys2Proof/Laws/Events.lean ====
section
/-! SUPPORT. The derived fields of ISTR (10_state.md R28): the pending set, the reported slot and the read
view. -/

namespace Sys2Proof.Machine

open Sys2Proof

theorem mem_allSlots (n : Fin 8) : n ∈ allSlots := by revert n; decide

theorem State.mem_pendingSet (s : State) (n : Fin 8) :
    n ∈ s.pendingSet ↔ n.val < s.cfg.numEpSlots ∧
      (Epr.ctrRx (s.eprAt n) = true ∨ Epr.ctrTx (s.eprAt n) = true) := by
  simp [State.pendingSet, mem_allSlots, Epr.completion, hasSlot]

theorem State.istrCtr_iff (s : State) : s.istrCtr = true ↔ ∃ n, n ∈ s.pendingSet := by
  simp only [State.istrCtr]
  cases h : s.pendingSet with
  | nil => simp
  | cons a l => simp

theorem State.epIdChoice_mem (s : State) (h : s.istrCtr = true) : s.epIdChoice ∈ s.pendingSet := by
  simp only [State.istrCtr] at h
  unfold State.epIdChoice
  split
  · next e => simp [e] at h
  · next n e => rw [e]; exact List.mem_singleton.2 rfl
  · next m ms _ e =>
    rw [List.getD_eq_getElem _ _ (Nat.mod_lt _ (by simp)), e]
    exact List.getElem_mem _

theorem State.istrView_of_ctr (s : State) (h : s.istrCtr = true) :
    s.istrView = (s.istr &&& Istr.storedMask) ||| ctrWord s.istrEpId s.istrDir := by
  simp [State.istrView, h, ctrWord]

theorem State.istrView_of_not (s : State) (h : s.istrCtr = false) :
    s.istrView = (s.istr &&& Istr.storedMask) := by
  simp [State.istrView, h]

@[simp] theorem State.istrView_ctr (s : State) : Istr.ctr s.istrView = s.istrCtr := by
  unfold Istr.ctr
  cases h : s.istrCtr
  · rw [State.istrView_of_not s h, (istrStored_fields _).1]
  · rw [State.istrView_of_ctr s h, (istrOr_fields _ _ _).1]

@[simp] theorem State.istrView_reset (s : State) : Istr.resetFlag s.istrView = Istr.resetFlag s.istr := by
  unfold Istr.resetFlag
  cases h : s.istrCtr
  · rw [State.istrView_of_not s h, (istrStored_fields _).2.1]
  · rw [State.istrView_of_ctr s h, (istrOr_fields _ _ _).2.1]

theorem State.pendingSet_of_not_ctr (s : State) (h : s.istrCtr = false) : s.pendingSet = [] := by
  simpa [State.istrCtr] using h

@[simp] theorem State.istrView_epId (s : State) : Istr.epId s.istrView = s.istrEpId := by
  unfold Istr.epId field
  cases h : s.istrCtr
  · rw [State.istrView_of_not s h, (istrStored_fields _).2.2.1]
    simp [State.istrEpId, State.epIdChoice, State.pendingSet_of_not_ctr s h]
  · rw [State.istrView_of_ctr s h, (istrOr_fields _ _ _).2.2.1]

@[simp] theorem State.istrView_dir (s : State) : Istr.dir s.istrView = s.istrDir := by
  unfold Istr.dir field
  cases h : s.istrCtr
  · rw [State.istrView_of_not s h, (istrStored_fields _).2.2.2]
    simp [State.istrDir, h]
  · rw [State.istrView_of_ctr s h, (istrOr_fields _ _ _).2.2.2]

end Sys2Proof.Machine
end

