-- ==== Sys2Proof/Laws/Transfer.lean ====
section
/-! SUPPORT. What the packet-memory accesses and the staging of a response do (00_scope.md R12,
20_memory.md R67, R68, 43_control_transfer.md R171, R172). -/

namespace Sys2Proof.Machine

open Sys2Proof

/-- Two states are equal where every field is. -/
theorem State.ext_of {s t : State} (h1 : s.cntr = t.cntr) (h2 : s.istr = t.istr)
    (h3 : s.daddr = t.daddr) (h4 : s.btable = t.btable) (h5 : s.epr = t.epr) (h6 : s.pma = t.pma)
    (h7 : s.pending = t.pending) (h8 : s.irqEn = t.irqEn) (h9 : s.pullup = t.pullup)
    (h10 : s.enabled = t.enabled) (h11 : s.fault = t.fault) (h12 : s.hist = t.hist)
    (h13 : s.cfg = t.cfg) (h14 : s.params = t.params) (h15 : s.inputs = t.inputs)
    (h16 : s.padDraws = t.padDraws) (h17 : s.epIdDraws = t.epIdDraws)
    (h18 : s.handlerDraws = t.handlerDraws) (h19 : s.drawCount = t.drawCount)
    (h20 : s.result = t.result) : s = t := by
  cases s; cases t; simp_all

/-! ### Packet-memory accesses -/

theorem memRead_ok {op : Operation} {a n : Nat} {s : State} (h : s.accessOk a n = true) :
    memRead op a n s = .ok (s.readBytes a n) := by simp [memRead, h]

theorem memRead16_ok {op : Operation} {a : Nat} {s : State} (h : s.accessOk a 2 = true) :
    memRead16 op a s = .ok (s.readHalf a) := by simp [memRead16, h]

theorem memWrite16_ok {op : Operation} {a : Nat} {v : Half} {s : State} (h : s.accessOk a 2 = true) :
    memWrite16 op a v s = .ok (s.writeHalf a v) := by simp [memWrite16, h]

theorem memWrite_ok {op : Operation} {a : Nat} {bs : List Byte} {s : State}
    (h : s.accessOk a bs.length = true) : memWrite op a bs s = .ok (s.writeBuffer a bs) := by
  simp [memWrite, h]

theorem memRead_raised {op : Operation} {a n : Nat} {s : State} (h : s.accessOk a n = false) :
    memRead op a n s = .error (.raised (s.recordFault (.unmodelled op))) := by simp [memRead, h]

theorem memRead16_raised {op : Operation} {a : Nat} {s : State} (h : s.accessOk a 2 = false) :
    memRead16 op a s = .error (.raised (s.recordFault (.unmodelled op))) := by simp [memRead16, h]

theorem memWrite_raised {op : Operation} {a : Nat} {bs : List Byte} {s : State}
    (h : s.accessOk a bs.length = false) :
    memWrite op a bs s = .error (.raised (s.recordFault (.unmodelled op))) := by simp [memWrite, h]

/-- An access to no bytes is always possible. -/
@[simp] theorem State.accessOk_zero (s : State) (a : Nat) : s.accessOk a 0 = true := by
  simp [State.accessOk]

theorem State.accessOk_of {s : State} {a n : Nat} (h : a % 2 = 0) (h' : a + n ≤ s.cfg.pmaSize) :
    s.accessOk a n = true := by
  simp [State.accessOk, h, h']

@[simp] theorem State.accessOk_writeHalf (s : State) (x : Nat) (v : Half) (a n : Nat) :
    (s.writeHalf x v).accessOk a n = s.accessOk a n := rfl
@[simp] theorem State.accessOk_writeBuffer (s : State) (x : Nat) (bs : List Byte) (a n : Nat) :
    (s.writeBuffer x bs).accessOk a n = s.accessOk a n := State.accessOk_congr (by simp) a n
@[simp] theorem State.accessOk_modifyEpr (s : State) (m : Fin 8) (f : Half → Half) (a n : Nat) :
    (s.modifyEpr m f).accessOk a n = s.accessOk a n := rfl

/-! ### The operands of the buffer-descriptor table -/

theorem addrTx_ok {op : Operation} {n : Nat} {s : State} (h : s.accessOk (s.bdt n) 2 = true) :
    addrTx op n s = .ok (s.readHalf (s.bdt n)).toNat := by simp [addrTx, memRead16_ok h]

theorem countTx_ok {op : Operation} {n : Nat} {s : State} (h : s.accessOk (s.bdt n + 2) 2 = true) :
    countTx op n s = .ok (field (s.readHalf (s.bdt n + 2)) 0 10).toNat := by
  simp [countTx, memRead16_ok h]

theorem addrRx_ok {op : Operation} {n : Nat} {s : State} (h : s.accessOk (s.bdt n + 4) 2 = true) :
    addrRx op n s = .ok (s.readHalf (s.bdt n + 4)).toNat := by simp [addrRx, memRead16_ok h]

theorem rxCap_ok {op : Operation} {n : Nat} {s : State} (h : s.accessOk (s.bdt n + 6) 2 = true) :
    rxCap op n s = .ok (rxCapOf (s.readHalf (s.bdt n + 6))) := by simp [rxCap, memRead16_ok h]

theorem setCountRx_ok {op : Operation} {n : Nat} {k : BitVec 10} {s : State}
    (h : s.accessOk (s.bdt n + 6) 2 = true) :
    setCountRx op n k s =
      .ok (s.writeHalf (s.bdt n + 6) (withField (s.readHalf (s.bdt n + 6)) 0 k)) := by
  simp [setCountRx, memRead16_ok h, memWrite16_ok h]

/-! ### The registers that only tell where the table is -/

@[simp] theorem State.bdt_writeBuffer (s : State) (a : Nat) (bs : List Byte) (n : Nat) :
    (s.writeBuffer a bs).bdt n = s.bdt n := by simp [State.bdt, State.tableBase]

theorem State.bdt_congr {s t : State} (h : t.btable = s.btable) (n : Nat) : t.bdt n = s.bdt n := by
  simp [State.bdt, State.tableBase, h]

theorem State.bdt_of_base {s : State} (h : s.btable = bdtBase) (n : Nat) : s.bdt n = 8 * n := by
  have : (bdtBase &&& 0xFFF8#16).toNat = 0 := by decide
  simp [State.bdt, State.tableBase, h, this]

/-! ### Staging a response -/

/-- The state after a response is staged (R171). -/
def State.stage (s : State) (bytes : List Byte) (wLength : Half) : State :=
  ((s.writeBuffer s.txAddr0 (bytes.take (stagedLength bytes wLength))).writeHalf (bdtBase.toNat + 2)
    (BitVec.ofNat 16 (stagedLength bytes wLength))).modifyEpr 0 (fun w => Epr.withStatTx w .valid)

theorem stagedLength_le (bytes : List Byte) (wLength : Half) :
    stagedLength bytes wLength ≤ bytes.length := Nat.min_le_right _ _

theorem take_stagedLength (bytes : List Byte) (wLength : Half) :
    (bytes.take (stagedLength bytes wLength)).length = stagedLength bytes wLength := by
  rw [List.length_take, Nat.min_eq_left (stagedLength_le _ _)]

theorem send_eq {bytes : List Byte} {wLength : Half} {s : State}
    (h : s.accessOk (s.bdt 0) 2 = true)
    (hc : s.accessOk (bdtBase.toNat + 2) 2 = true)
    (h' : s.accessOk s.txAddr0 (stagedLength bytes wLength) = true) :
    send bytes wLength s = .ok (s.stage bytes wLength) := by
  have hn : min wLength.toNat bytes.length = stagedLength bytes wLength := rfl
  unfold send
  simp only [hn]
  rw [addrTx_ok h, Flow.andThen_ok, memWrite_ok (by rw [take_stagedLength]; exact h'),
    Flow.andThen_ok, memWrite16_ok (by simpa using hc), Flow.andThen_ok]
  rfl

theorem State.stage_rest (s : State) (bytes : List Byte) (wLength : Half) :
    SameButMemoryAndEpr s (s.stage bytes wLength) := by
  unfold SameButMemoryAndEpr State.stage
  apply State.ext_of <;> simp

theorem State.stage_spec (s : State) (bytes : List Byte) (wLength : Half)
    (h : bdtBase.toNat + 4 ≤ s.txAddr0) : Staged s (s.stage bytes wLength) bytes wLength := by
  have hb : bdtBase.toNat = 0 := rfl
  refine ⟨?_, ?_, ?_, ?_, ?_, s.stage_rest bytes wLength⟩
  · unfold State.stage
    rw [State.readHalf_congr (State.modifyEpr_pma ..), State.readHalf_writeHalf_same]
  · unfold State.stage
    rw [State.readBytes_congr (State.modifyEpr_pma ..)]
    have hl := take_stagedLength bytes wLength
    conv_lhs => rw [← hl]
    conv_rhs => rw [← s.readBytes_writeBuffer_same s.txAddr0 (bytes.take (stagedLength bytes wLength))]
    apply State.readBytes_eq_of_readByte_eq
    intro x h1 h2
    rw [hl] at h2 ⊢
    rw [State.readByte_writeHalf_outside]
    omega
  · unfold State.stage
    rw [State.eprAt_modifyEpr_same]; simp
  · intro m hm
    unfold State.stage
    rw [State.eprAt_modifyEpr, if_neg hm]; simp
  · intro x h1 h2
    unfold State.stage
    rw [State.readByte_congr (State.modifyEpr_pma ..)]
    unfold InRange at h1 h2
    rw [State.readByte_writeHalf_outside _ _ _ _ (by omega), State.readByte_writeBuffer_outside]
    rw [take_stagedLength]
    omega

/-- SEND, where the buffer can be used. -/
theorem send_spec {bytes : List Byte} {wLength : Half} {s : State}
    (h : Ep0TxReady s (stagedLength bytes wLength)) :
    send bytes wLength s = .ok (s.stage bytes wLength) ∧ Staged s (s.stage bytes wLength) bytes wLength :=
  ⟨send_eq h.entry h.count h.buffer, s.stage_spec bytes wLength h.apart⟩

/-- STALL_TX. -/
theorem State.stallTx_spec (s : State) : Stalled s s.stallTx := by
  refine ⟨by simp [State.stallTx], ?_, rfl⟩
  intro m hm
  simp only [State.stallTx, State.eprAt_modifyEpr, if_neg hm]

/-! ### What staging leaves alone -/

@[simp] theorem State.stage_cntr (s : State) (bytes : List Byte) (wLength : Half) :
    (s.stage bytes wLength).cntr = s.cntr := by simp [State.stage]
@[simp] theorem State.stage_istr (s : State) (bytes : List Byte) (wLength : Half) :
    (s.stage bytes wLength).istr = s.istr := by simp [State.stage]
@[simp] theorem State.stage_daddr (s : State) (bytes : List Byte) (wLength : Half) :
    (s.stage bytes wLength).daddr = s.daddr := by simp [State.stage]
@[simp] theorem State.stage_btable (s : State) (bytes : List Byte) (wLength : Half) :
    (s.stage bytes wLength).btable = s.btable := by simp [State.stage]
@[simp] theorem State.stage_pending (s : State) (bytes : List Byte) (wLength : Half) :
    (s.stage bytes wLength).pending = s.pending := by simp [State.stage]
@[simp] theorem State.stage_irqEn (s : State) (bytes : List Byte) (wLength : Half) :
    (s.stage bytes wLength).irqEn = s.irqEn := by simp [State.stage]
@[simp] theorem State.stage_pullup (s : State) (bytes : List Byte) (wLength : Half) :
    (s.stage bytes wLength).pullup = s.pullup := by simp [State.stage]
@[simp] theorem State.stage_enabled (s : State) (bytes : List Byte) (wLength : Half) :
    (s.stage bytes wLength).enabled = s.enabled := by simp [State.stage]
@[simp] theorem State.stage_fault (s : State) (bytes : List Byte) (wLength : Half) :
    (s.stage bytes wLength).fault = s.fault := by simp [State.stage]
@[simp] theorem State.stage_hist (s : State) (bytes : List Byte) (wLength : Half) :
    (s.stage bytes wLength).hist = s.hist := by simp [State.stage]
@[simp] theorem State.stage_cfg (s : State) (bytes : List Byte) (wLength : Half) :
    (s.stage bytes wLength).cfg = s.cfg := by simp [State.stage]
@[simp] theorem State.stage_params (s : State) (bytes : List Byte) (wLength : Half) :
    (s.stage bytes wLength).params = s.params := by simp [State.stage]
@[simp] theorem State.stage_inputs (s : State) (bytes : List Byte) (wLength : Half) :
    (s.stage bytes wLength).inputs = s.inputs := by simp [State.stage]
@[simp] theorem State.stage_epIdDraws (s : State) (bytes : List Byte) (wLength : Half) :
    (s.stage bytes wLength).epIdDraws = s.epIdDraws := by simp [State.stage]
@[simp] theorem State.stage_handlerDraws (s : State) (bytes : List Byte) (wLength : Half) :
    (s.stage bytes wLength).handlerDraws = s.handlerDraws := by simp [State.stage]

theorem State.stage_eprAt (s : State) (bytes : List Byte) (wLength : Half) (m : Fin 8) :
    (s.stage bytes wLength).eprAt m =
      if m = 0 then Epr.withStatTx (s.eprAt 0) .valid else s.eprAt m := by
  simp [State.stage, State.eprAt_modifyEpr]

end Sys2Proof.Machine
end

