-- ==== Sys2Proof/Laws/Bus.lean ====
section
/-! SUPPORT. What a bus transaction does (46_bus_environment.md R261 to R266). -/

namespace Sys2Proof.Machine

open Sys2Proof

/-! ### The slot a token reaches (R262) -/

theorem slotFor_none {s : State} {ep : BitVec 4} {d : Dir}
    (h : ∀ n : Fin 8, n.val < s.cfg.numEpSlots →
      Epr.ea (s.eprAt n) ≠ ep ∨ halfStat d (s.eprAt n) = .disabled) : s.slotFor ep d = none := by
  unfold State.slotFor
  rw [List.find?_eq_none]
  intro n _
  by_cases hn : n.val < s.cfg.numEpSlots
  · rcases h n hn with h | h <;> simp [State.answers, h]
  · simp [State.answers, hasSlot, hn]

theorem slotFor_some {s : State} {ep : BitVec 4} {d : Dir} {n : Fin 8} (h : s.slotFor ep d = some n) :
    Epr.ea (s.eprAt n) = ep ∧ halfStat d (s.eprAt n) ≠ .disabled := by
  have := List.find?_some h
  simp only [State.answers, Bool.and_eq_true, beq_iff_eq, bne_iff_ne] at this
  exact ⟨this.1.2, this.2⟩

/-! ### A stored packet -/

/-- The state after a packet is stored in the receive buffer of a slot: its bytes, its count, the slot's
register and the observation (R263, R264). -/
def State.receive (s : State) (n : Fin 8) (data : List Byte) (f : Half → Half) (o : Observation) : State :=
  let u := s.writeBuffer (s.readHalf (s.bdt n.val + 4)).toNat data
  ((u.writeHalf (s.bdt n.val + 6) (withField (u.readHalf (s.bdt n.val + 6)) 0 (BitVec.ofNat 10 data.length))).modifyEpr n f).observe o

theorem State.receive_spec (s : State) (n : Fin 8) (data : List Byte) (f : Half → Half) (o : Observation)
    (hd : ∀ x, ¬ (InRange x (s.readHalf (s.bdt n.val + 4)).toNat (data.length + data.length % 2) ∧ InRange x (s.bdt n.val + 6) 2)) :
    (s.receive n data f o).readBytes (s.readHalf (s.bdt n.val + 4)).toNat data.length = data ∧
    (s.receive n data f o).readHalf (s.bdt n.val + 6) = withField (s.readHalf (s.bdt n.val + 6)) 0 (BitVec.ofNat 10 data.length) ∧
    (s.receive n data f o).eprAt n = f (s.eprAt n) ∧
    (s.receive n data f o).hist = s.hist ++ [o] ∧ SlotsSameBut s (s.receive n data f o) n ∧
    BytesSameOutside s (s.receive n data f o) (s.readHalf (s.bdt n.val + 4)).toNat (data.length + data.length % 2) (s.bdt n.val + 6) 2 ∧
    SameButBus s (s.receive n data f o) := by
  generalize hA : (s.readHalf (s.bdt n.val + 4)).toNat = A at *
  generalize hC : s.bdt n.val + 6 = C at *
  have hdis : ∀ x, C ≤ x → x < C + 2 → x < A ∨ A + data.length + data.length % 2 ≤ x := by
    intro x h1 h2
    have := hd x
    unfold InRange at this
    omega
  have hRH : (s.writeBuffer A data).readHalf C = s.readHalf C := by
    unfold State.readHalf
    rw [s.readByte_writeBuffer_outside A C data (hdis _ (by omega) (by omega)),
      s.readByte_writeBuffer_outside A (C+1) data (hdis _ (by omega) (by omega))]
  unfold State.receive
  simp only [hA, hC]
  refine ⟨?_, ?_, ?_, ?_, ?_, ?_, ?_⟩
  · rw [State.readBytes_congr (State.observe_pma ..), State.readBytes_congr (State.modifyEpr_pma ..)]
    conv_rhs => rw [← s.readBytes_writeBuffer_same A data]
    apply State.readBytes_eq_of_readByte_eq
    intro x h1 h2
    rw [State.readByte_writeHalf_outside]
    have := hd x
    unfold InRange at this
    omega
  · rw [State.readHalf_congr (State.observe_pma ..), State.readHalf_congr (State.modifyEpr_pma ..), State.readHalf_writeHalf_same, hRH]
  · simp
  · simp [State.observe]
  · intro m hm
    simp [State.eprAt_modifyEpr, hm]
  · intro x h1 h2
    unfold InRange at h1 h2
    rw [State.readByte_congr (State.observe_pma ..), State.readByte_congr (State.modifyEpr_pma ..), State.readByte_writeHalf_outside _ _ _ _ (by omega), State.readByte_writeBuffer_outside _ _ _ _ (by omega)]
  · unfold SameButBus
    apply State.ext_of <;> simp

end Sys2Proof.Machine
end

