-- ==== Sys2Proof/Laws/Config.lean ====
section
/-! SUPPORT. What an accepted configuration satisfies (60_exceptions.md R298). -/

namespace Sys2Proof

/-! ### The sizes of R8 -/

/-- The register map has a place for every slot. -/
theorem StaticConfig.numEpSlots_le (cfg : StaticConfig) : cfg.numEpSlots ≤ 8 := cfg.sizes.lastSlot.isLt

/-- Slot 0 exists. -/
theorem StaticConfig.numEpSlots_pos (cfg : StaticConfig) : 0 < cfg.numEpSlots := Nat.succ_pos _

theorem StaticConfig.pmaSize_le (cfg : StaticConfig) : cfg.pmaSize ≤ 65536 :=
  Nat.le_of_lt_succ cfg.sizes.pmaSize.isLt

end Sys2Proof

namespace Sys2Proof.Machine

open Sys2Proof

@[simp] theorem codeIf_eq_nil (b : Bool) (e : ConfigError) : codeIf b e = [] ↔ b = false := by
  cases b <;> simp [codeIf]

theorem mem_codeIf (b : Bool) (e f : ConfigError) : f ∈ codeIf b e ↔ b = true ∧ f = e := by
  cases b <;> simp [codeIf]

/-- A configuration is accepted where no check fails. -/
theorem accepted_iff (cfg : StaticConfig) : Accepted cfg ↔
    pmaOverflows cfg = false ∧ scratchOverflows cfg = false ∧ responseExceedsMps0 cfg = false ∧
    duplicateEndpoint cfg = false ∧ badEndpointNumber cfg = false ∧ mpsOutOfRange cfg = false ∧
    fieldOutOfRange cfg = false := by
  simp [Accepted, configErrors]

/-- A declared endpoint of an accepted configuration names a slot other than 0. -/
theorem Accepted.number {cfg : StaticConfig} (h : Accepted cfg) {e : Endpoint}
    (he : e ∈ declaredEndpoints cfg) : 1 ≤ e.number.toNat ∧ e.number.toNat < cfg.numEpSlots := by
  have := ((accepted_iff cfg).1 h).2.2.2.2.1
  simp only [badEndpointNumber, List.any_eq_false, Bool.or_eq_true, beq_iff_eq, decide_eq_true_eq,
    not_or] at this
  have := this e he
  omega

/-- It has a place in the register map. -/
theorem Accepted.number_lt {cfg : StaticConfig} (h : Accepted cfg) {e : Endpoint}
    (he : e ∈ declaredEndpoints cfg) : e.number.toNat < 8 :=
  Nat.lt_of_lt_of_le (h.number he).2 cfg.numEpSlots_le

/-- A declared endpoint of an accepted configuration has a legal packet size. -/
theorem Accepted.mps {cfg : StaticConfig} (h : Accepted cfg) {e : Endpoint}
    (he : e ∈ declaredEndpoints cfg) : 1 ≤ e.mps.toNat ∧ e.mps.toNat ≤ 1023 := by
  have := ((accepted_iff cfg).1 h).2.2.2.2.2.1
  simp only [mpsOutOfRange, Bool.or_eq_false_iff, List.any_eq_false, Bool.not_eq_true',
    Bool.not_eq_false] at this
  have := this.2 e he
  unfold mpsLegal at this
  split at this <;> simp at this <;> omega

/-- Endpoint 0's packet size is one of the legal ones, and holds the device descriptor. -/
theorem Accepted.mps0 {cfg : StaticConfig} (h : Accepted cfg) :
    cfg.mps0.toNat = 32 ∨ cfg.mps0.toNat = 64 := by
  have h1 := ((accepted_iff cfg).1 h).2.2.2.2.2.1
  have h2 := ((accepted_iff cfg).1 h).2.2.1
  simp only [mpsOutOfRange, Bool.or_eq_false_iff, mps0Legal, responseExceedsMps0,
    Bool.not_eq_false', Bool.or_eq_true, beq_iff_eq, decide_eq_false_iff_not] at h1 h2
  omega

/-- A configuration descriptor fits one packet. -/
theorem Accepted.total {cfg : StaticConfig} (h : Accepted cfg) {c : Configuration}
    (hc : c ∈ cfg.configs) : configTotal c ≤ cfg.mps0.toNat := by
  have h2 := ((accepted_iff cfg).1 h).2.2.1
  simp only [responseExceedsMps0, Bool.or_eq_false_iff, List.any_eq_false, decide_eq_true_eq,
    decide_eq_false_iff_not] at h2
  have := h2.1.2 c hc
  omega

/-- The report blob fits one packet. -/
theorem Accepted.blob {cfg : StaticConfig} (h : Accepted cfg) {b : List Byte}
    (hb : reportSource cfg = some b) : b.length ≤ cfg.mps0.toNat := by
  have h2 := ((accepted_iff cfg).1 h).2.2.1
  simp only [responseExceedsMps0, Bool.or_eq_false_iff, hb, decide_eq_false_iff_not] at h2
  omega

/-- The buffers end inside packet memory. -/
theorem Accepted.endOff {cfg : StaticConfig} (h : Accepted cfg) :
    (allocation cfg).endOff ≤ cfg.pmaSize := by
  have h2 := ((accepted_iff cfg).1 h).1
  simp only [pmaOverflows, decide_eq_false_iff_not] at h2
  omega

/-! ### Clashing endpoints -/

theorem anyClash_eq_true (es : List Endpoint) : anyClash es = true ↔
    ∃ (j k : Nat) (e f : Endpoint), j < k ∧ es[j]? = some e ∧ es[k]? = some f ∧
      endpointsClash e f = true := by
  induction es with
  | nil => simp [anyClash]
  | cons a l ih =>
    simp only [anyClash, Bool.or_eq_true, List.any_eq_true, ih]
    constructor
    · rintro (⟨f, hf, hc⟩ | ⟨j, k, e, f, hjk, hj, hk, hc⟩)
      · obtain ⟨k, hk⟩ := List.getElem?_of_mem hf
        exact ⟨0, k + 1, a, f, by omega, by simp, by simpa using hk, hc⟩
      · exact ⟨j + 1, k + 1, e, f, by omega, by simpa using hj, by simpa using hk, hc⟩
    · rintro ⟨j, k, e, f, hjk, hj, hk, hc⟩
      match j, k, hjk with
      | 0, k + 1, _ =>
        left
        simp only [List.getElem?_cons_zero, Option.some.injEq] at hj
        subst hj
        exact ⟨f, List.mem_of_getElem? (by simpa using hk), hc⟩
      | j + 1, k + 1, h =>
        right
        exact ⟨j, k, e, f, by omega, by simpa using hj, by simpa using hk, hc⟩

theorem endpointsClash_iff (e f : Endpoint) : endpointsClash e f = true ↔
    e.number = f.number ∧ (e.dir = f.dir ∨ e.epType ≠ f.epType) := by
  simp [endpointsClash]

theorem endpointsClash_comm (e f : Endpoint) : endpointsClash e f = endpointsClash f e := by
  rw [Bool.eq_iff_iff, endpointsClash_iff, endpointsClash_iff]
  constructor <;> rintro ⟨h, h' | h'⟩ <;>
    first | exact ⟨h.symm, Or.inl h'.symm⟩ | exact ⟨h.symm, Or.inr (Ne.symm h')⟩

/-- Two endpoints of an accepted configuration at different places do not clash. -/
theorem Accepted.no_clash {cfg : StaticConfig} (h : Accepted cfg) {j k : Nat} {e f : Endpoint}
    (hne : j ≠ k) (hj : (declaredEndpoints cfg)[j]? = some e)
    (hk : (declaredEndpoints cfg)[k]? = some f) : endpointsClash e f = false := by
  have h1 := ((accepted_iff cfg).1 h).2.2.2.1
  unfold duplicateEndpoint at h1
  cases hc : endpointsClash e f
  · rfl
  · rcases Nat.lt_or_gt_of_ne hne with hl | hl
    · have := (anyClash_eq_true _).2 ⟨j, k, e, f, hl, hj, hk, hc⟩
      simp [h1] at this
    · have := (anyClash_eq_true _).2 ⟨k, j, f, e, hl, hk, hj, by rw [endpointsClash_comm]; exact hc⟩
      simp [h1] at this

/-- Two declared endpoints with one number and one direction are the same. -/
theorem Accepted.unique {cfg : StaticConfig} (h : Accepted cfg) {e f : Endpoint}
    (he : e ∈ declaredEndpoints cfg) (hf : f ∈ declaredEndpoints cfg) (hn : e.number = f.number)
    (hd : e.dir = f.dir) : e = f := by
  obtain ⟨j, hj⟩ := List.getElem?_of_mem he
  obtain ⟨k, hk⟩ := List.getElem?_of_mem hf
  by_cases hjk : j = k
  · subst hjk; simpa [hj] using hk
  · have := h.no_clash hjk hj hk
    have hc := (endpointsClash_iff e f).2 ⟨hn, Or.inl hd⟩
    simp [this] at hc

/-- Two declared endpoints with one number have one type. -/
theorem Accepted.type {cfg : StaticConfig} (h : Accepted cfg) {e f : Endpoint}
    (he : e ∈ declaredEndpoints cfg) (hf : f ∈ declaredEndpoints cfg) (hn : e.number = f.number) :
    e.epType = f.epType := by
  obtain ⟨j, hj⟩ := List.getElem?_of_mem he
  obtain ⟨k, hk⟩ := List.getElem?_of_mem hf
  by_cases hjk : j = k
  · subst hjk; rw [hj] at hk; simp only [Option.some.injEq] at hk; rw [hk]
  · by_contra hne
    have := h.no_clash hjk hj hk
    have hc := (endpointsClash_iff e f).2 ⟨hn, Or.inr hne⟩
    simp [this] at hc

/-! ### The device descriptor (44_descriptor_composer.md R211) -/

/-- The operation gives the descriptor where the count fits its byte, and is refused where it does not. -/
theorem execDeviceDescriptorBytes_cases (s : State) :
    (s.cfg.configs.length ≤ 255 ∧
      execDeviceDescriptorBytes s = .next { s with result := .bytes (deviceDescriptor s.cfg) }) ∨
    (255 < s.cfg.configs.length ∧
      execDeviceDescriptorBytes s = .refused (.configRefused [.fieldRange])) := by
  unfold execDeviceDescriptorBytes descriptorErrors codeIf
  by_cases h : 255 < s.cfg.configs.length
  · exact Or.inr ⟨h, by simp [h]⟩
  · exact Or.inl ⟨by omega, by simp [h]⟩

/-! ### The registered set (42_dispatch.md R150) -/

theorem registered_iff (cfg : StaticConfig) (n : BitVec 4) (d : Dir) : registered cfg n d = true ↔
    n = 0#4 ∨ ∃ e ∈ declaredEndpoints cfg, e.number = n ∧ e.dir = d := by
  simp [registered]

theorem registered_eq_false (cfg : StaticConfig) (n : BitVec 4) (d : Dir) :
    registered cfg n d = false ↔
      n ≠ 0#4 ∧ ∀ e ∈ declaredEndpoints cfg, e.number = n → e.dir ≠ d := by
  rw [← Bool.not_eq_true, registered_iff]
  simp only [not_or, not_exists, not_and]

end Sys2Proof.Machine
end

