-- ==== Sys2Proof/Laws/Handlers.lean ====
section
/-! SUPPORT. What an endpoint handler does (42_dispatch.md R155): every write that lies in the footprint
keeps the frame, and so does a list of them. -/

namespace Sys2Proof.Machine

open Sys2Proof

/-! ### One half of a slot -/

@[simp] theorem Stat.bits_ofBits (b : BitVec 2) : Stat.bits (Stat.ofBits b) = b := by
  revert b; decide

theorem Epr.withStatTx_same (w : Half) : Epr.withStatTx w (Epr.statTx w) = w := by
  unfold Epr.withStatTx Epr.statTx
  rw [Stat.bits_ofBits, withField_field_same _ _ _ (by decide)]

theorem Epr.withStatRx_same (w : Half) : Epr.withStatRx w (Epr.statRx w) = w := by
  unfold Epr.withStatRx Epr.statRx
  rw [Stat.bits_ofBits, withField_field_same _ _ _ (by decide)]

theorem Epr.withCtrTx_same (w : Half) : Epr.withCtrTx w (Epr.ctrTx w) = w := by
  apply BitVec.eq_of_getLsbD_eq
  intro i hi
  unfold Epr.withCtrTx Epr.ctrTx
  rw [getLsbD_withField _ _ _ _ (by decide)]
  interval_cases i <;> simp

theorem Epr.withCtrRx_same (w : Half) : Epr.withCtrRx w (Epr.ctrRx w) = w := by
  apply BitVec.eq_of_getLsbD_eq
  intro i hi
  unfold Epr.withCtrRx Epr.ctrRx
  rw [getLsbD_withField _ _ _ _ (by decide)]
  interval_cases i <;> simp

/-- The completion flag alone, and the status alone, written to a half. -/
theorem halfWord_ctr (d : Dir) (w : Half) (v : Bool) : halfWord d w v (halfStat d w) =
    match d with | .dirIn => Epr.withCtrTx w v | .dirOut => Epr.withCtrRx w v := by
  cases d
  · have := Epr.withStatTx_same (Epr.withCtrTx w v)
    simpa [halfWord, halfStat] using this
  · have := Epr.withStatRx_same (Epr.withCtrRx w v)
    simpa [halfWord, halfStat] using this

theorem halfWord_stat (d : Dir) (w : Half) (v : Stat) : halfWord d w (halfCompletion d w) v =
    match d with | .dirIn => Epr.withStatTx w v | .dirOut => Epr.withStatRx w v := by
  cases d
  · simp [halfWord, halfCompletion, Epr.withCtrTx_same]
  · simp [halfWord, halfCompletion, Epr.withCtrRx_same]

theorem halfWord_same (d : Dir) (w : Half) : halfWord d w (halfCompletion d w) (halfStat d w) = w := by
  rw [halfWord_stat]
  cases d
  · exact Epr.withStatTx_same w
  · exact Epr.withStatRx_same w

theorem halfWord_halfWord (d : Dir) (w : Half) (c c' : Bool) (st st' : Stat) :
    halfWord d (halfWord d w c st) c' st' = halfWord d w c' st' := by
  cases d
  · simp only [halfWord, Epr.withStatTx, Epr.withCtrTx]
    rw [withField_comm _ 4 2 7 1 _ _ (by decide) (by decide) (by decide),
      withField_withField_same _ _ _ _ _ (by decide), withField_withField_same _ _ _ _ _ (by decide)]
  · simp only [halfWord, Epr.withStatRx, Epr.withCtrRx]
    rw [withField_comm _ 12 2 15 1 _ _ (by decide) (by decide) (by decide),
      withField_withField_same _ _ _ _ _ (by decide), withField_withField_same _ _ _ _ _ (by decide)]

/-- Every field but the two of the half is as before. -/
theorem halfWord_fields (d : Dir) (w : Half) (c : Bool) (st : Stat) :
    halfCompletion d (halfWord d w c st) = c ∧ halfStat d (halfWord d w c st) = st ∧
    (∀ d', d' ≠ d → halfCompletion d' (halfWord d w c st) = halfCompletion d' w ∧
      halfStat d' (halfWord d w c st) = halfStat d' w) ∧
    Epr.epType (halfWord d w c st) = Epr.epType w ∧ Epr.ea (halfWord d w c st) = Epr.ea w ∧
    Epr.setupFlag (halfWord d w c st) = Epr.setupFlag w := by
  cases d <;> refine ⟨by simp [halfCompletion, halfWord], by simp [halfStat, halfWord], ?_,
    by simp [halfWord], by simp [halfWord], by simp [halfWord]⟩ <;>
    intro d' hd <;> cases d' <;> simp_all [halfCompletion, halfStat, halfWord]

/-! ### The frame -/

theorem HandlerFrame.refl (fp : Footprint) (s : State) : HandlerFrame fp s s where
  half := ⟨_, _, (halfWord_same fp.dir (s.eprAt fp.slot)).symm⟩
  slots := fun _ _ => rfl
  bytes := fun _ _ _ => rfl
  size := fun _ => rfl
  rest := rfl

theorem HandlerFrame.trans {fp : Footprint} {s t u : State} (h : HandlerFrame fp s t)
    (h' : HandlerFrame fp t u) : HandlerFrame fp s u where
  half := by
    obtain ⟨c, st, he⟩ := h.half
    obtain ⟨c', st', he'⟩ := h'.half
    exact ⟨c', st', by rw [he', he, halfWord_halfWord]⟩
  slots := fun m hm => (h'.slots m hm).trans (h.slots m hm)
  bytes := fun x hx hc => (h'.bytes x hx hc).trans (h.bytes x hx hc)
  size := fun hd => (h'.size hd).trans (h.size hd)
  rest := by
    have h1 : _ = s := h.rest
    have h2 : _ = t := h'.rest
    rw [← h2] at h1
    exact h1

theorem Footprint.covers_iff (fp : Footprint) (x : Nat) :
    fp.covers x = true ↔ fp.base ≤ x ∧ x < fp.base + fp.cap ∧ x < fp.limit := by
  simp [Footprint.covers]

/-- A write of bytes that lie in the buffer keeps the frame. -/
theorem HandlerFrame.ofBytes {fp : Footprint} (hsep : fp.Separate) (s : State) {off : Nat} {bs : List Byte}
    (h : ∀ x, off ≤ x → x < off + bs.length → fp.covers x = true) :
    HandlerFrame fp s (s.writeBytes off bs) where
  half := ⟨_, _, (halfWord_same fp.dir (s.eprAt fp.slot)).symm⟩
  slots := fun _ _ => rfl
  bytes := by
    intro x hx _
    rw [State.readByte_writeBytes, if_neg]
    intro hi
    rw [h x hi.1 hi.2] at hx
    exact absurd hx (by decide)
  size := by
    intro _
    have : (s.writeBytes off bs).readHalf fp.countAt = s.readHalf fp.countAt := by
      unfold State.readHalf
      rw [State.readByte_writeBytes, if_neg, State.readByte_writeBytes, if_neg]
      · intro hi
        exact hsep _ (h _ hi.1 hi.2) ⟨by omega, by omega⟩
      · intro hi
        exact hsep _ (h _ hi.1 hi.2) ⟨by omega, by omega⟩
    rw [this]
  rest := rfl

/-- A write of the count keeps the frame where it keeps an Out endpoint's size field. -/
theorem HandlerFrame.ofCount {fp : Footprint} (s : State) {v : Half}
    (h : fp.dir = .dirOut → field v 10 6 = field (s.readHalf fp.countAt) 10 6) :
    HandlerFrame fp s (s.writeHalf fp.countAt v) where
  half := ⟨_, _, (halfWord_same fp.dir (s.eprAt fp.slot)).symm⟩
  slots := fun _ _ => rfl
  bytes := by
    intro x _ hc
    unfold InRange at hc
    exact s.readByte_writeHalf_outside _ _ _ (by omega)
  size := by
    intro hd
    rw [State.readHalf_writeHalf_same, h hd]
  rest := rfl

/-- A write of the half's fields keeps the frame. -/
theorem HandlerFrame.ofHalf {fp : Footprint} (s : State) (c : Bool) (st : Stat) :
    HandlerFrame fp s (s.modifyEpr fp.slot (fun w => halfWord fp.dir w c st)) where
  half := ⟨c, st, by simp⟩
  slots := fun m hm => by rw [State.eprAt_modifyEpr, if_neg hm]
  bytes := fun x _ _ => State.readByte_congr (State.modifyEpr_pma ..) x
  size := fun _ => by rw [State.readHalf_congr (State.modifyEpr_pma ..)]
  rest := rfl

/-- Every write of the footprint keeps the frame. -/
theorem handlerWrite_frame {fp : Footprint} (hsep : fp.Separate) {w : HandlerWrite}
    (hw : fp.admits w = true) (s : State) : HandlerFrame fp s (handlerWrite fp w s) := by
  cases w with
  | ctr v =>
    have h := HandlerFrame.ofHalf (fp := fp) s v (halfStat fp.dir (s.eprAt fp.slot))
    have he : s.modifyEpr fp.slot (fun w => halfWord fp.dir w v (halfStat fp.dir (s.eprAt fp.slot))) =
        handlerWrite fp (.ctr v) s := by
      simp only [State.modifyEpr, halfWord_ctr, handlerWrite]
      cases fp.dir <;> rfl
    rwa [he] at h
  | stat v =>
    have h := HandlerFrame.ofHalf (fp := fp) s (halfCompletion fp.dir (s.eprAt fp.slot)) v
    have he : s.modifyEpr fp.slot
        (fun w => halfWord fp.dir w (halfCompletion fp.dir (s.eprAt fp.slot)) v) =
        handlerWrite fp (.stat v) s := by
      simp only [State.modifyEpr, halfWord_stat, handlerWrite]
      cases fp.dir <;> rfl
    rwa [he] at h
  | count c =>
    cases hd : fp.dir with
    | dirIn =>
      have := HandlerFrame.ofCount (fp := fp) s (v := c.setWidth 16) (by simp [hd])
      simpa [handlerWrite, hd] using this
    | dirOut =>
      have := HandlerFrame.ofCount (fp := fp) s (v := withField (s.readHalf fp.countAt) 0 c) (by
        intro _
        exact field_withField_other _ _ _ _ _ _ (by decide) (by decide))
      simpa [handlerWrite, hd] using this
  | byte off v =>
    refine HandlerFrame.ofBytes hsep s ?_
    intro x h1 h2
    simp only [List.length_singleton] at h2
    have : x = off := by omega
    subst this
    exact hw
  | half off v =>
    simp only [Footprint.admits, Bool.and_eq_true] at hw
    refine HandlerFrame.ofBytes hsep s ?_
    intro x h1 h2
    simp only [le16_length] at h2
    have : x = off ∨ x = off + 1 := by omega
    rcases this with rfl | rfl
    · exact hw.1.2
    · exact hw.2
  | reg r v => simp [Footprint.admits] at hw

/-- A write of the footprint keeps the canonical form. -/
theorem handlerWrite_wf {fp : Footprint} (hc : fp.countAt + 2 ≤ fp.limit) {w : HandlerWrite}
    (hw : fp.admits w = true) {s : State} (h : Memory.wf fp.limit s.pma = true) :
    Memory.wf fp.limit (handlerWrite fp w s).pma = true := by
  cases w with
  | ctr v => unfold handlerWrite; cases fp.dir <;> simpa using h
  | stat v => unfold handlerWrite; cases fp.dir <;> simpa using h
  | count c =>
    unfold handlerWrite
    cases fp.dir <;> exact Memory.wf_writeBytes h _ _ (by simpa using hc)
  | byte off v =>
    have := (fp.covers_iff _).1 hw
    exact Memory.wf_writeBytes h _ _ (by simp; omega)
  | half off v =>
    simp only [Footprint.admits, Bool.and_eq_true] at hw
    have := (fp.covers_iff _).1 hw.2
    exact Memory.wf_writeBytes h _ _ (by simp; omega)
  | reg r v => exact h

/-- What a list of writes leaves: the frame, the canonical form, and a fault only if one of them lies
outside the footprint. -/
structure HandlerDone (fp : Footprint) (s t : State) : Prop where
  frame : HandlerFrame fp s t
  wf : Memory.wf fp.limit s.pma = true → Memory.wf fp.limit t.pma = true

theorem HandlerDone.refl (fp : Footprint) (s : State) : HandlerDone fp s s := ⟨.refl fp s, id⟩

theorem HandlerDone.trans {fp : Footprint} {s t u : State} (h : HandlerDone fp s t)
    (h' : HandlerDone fp t u) : HandlerDone fp s u :=
  ⟨h.frame.trans h'.frame, h'.wf ∘ h.wf⟩

theorem handlerWrites_admitted {fp : Footprint} {ws : List HandlerWrite}
    (hw : ∀ w ∈ ws, fp.admits w = true) (s : State) :
    handlerWrites fp ws s = .ok (admittedWrites fp ws s) := by
  induction ws generalizing s with
  | nil => rfl
  | cons w ws ih =>
    have h := hw w (List.mem_cons_self ..)
    simp only [handlerWrites, admittedWrites, h, if_true]
    exact ih (fun x hx => hw x (List.mem_cons_of_mem _ hx)) _

theorem admittedWrites_done {fp : Footprint} (hsep : fp.Separate) (hc : fp.countAt + 2 ≤ fp.limit)
    (ws : List HandlerWrite) (s : State) : HandlerDone fp s (admittedWrites fp ws s) := by
  induction ws generalizing s with
  | nil => exact .refl fp s
  | cons w ws ih =>
    rw [admittedWrites]
    split
    · next h =>
      exact HandlerDone.trans ⟨handlerWrite_frame hsep h s, handlerWrite_wf hc h⟩ (ih _)
    · exact ih s

/-- The writes up to the first one outside the footprint are done; that one faults (R155, R293). -/
theorem handlerWrites_append {fp : Footprint} {ws : List HandlerWrite}
    (hw : ∀ w ∈ ws, fp.admits w = true) (xs : List HandlerWrite) (s : State) :
    handlerWrites fp (ws ++ xs) s = handlerWrites fp xs (admittedWrites fp ws s) := by
  induction ws generalizing s with
  | nil => rfl
  | cons w ws ih =>
    have h := hw w (List.mem_cons_self ..)
    simp only [List.cons_append, handlerWrites, admittedWrites, h, if_true]
    exact ih (fun x hx => hw x (List.mem_cons_of_mem _ hx)) _

/-- However a list of writes ends. -/
theorem handlerWrites_cases {fp : Footprint} (hsep : fp.Separate) (hc : fp.countAt + 2 ≤ fp.limit)
    (ws : List HandlerWrite) (s : State) :
    (∃ t, handlerWrites fp ws s = .ok t ∧ HandlerDone fp s t) ∨
    (∃ t, handlerWrites fp ws s = .error (.raised (t.recordFault (.unmodelled .extHandler))) ∧
      HandlerDone fp s t) := by
  induction ws generalizing s with
  | nil => exact Or.inl ⟨s, rfl, .refl fp s⟩
  | cons w ws ih =>
    rw [handlerWrites]
    split
    · next h =>
      have h1 : HandlerDone fp s (handlerWrite fp w s) :=
        ⟨handlerWrite_frame hsep h s, handlerWrite_wf hc h⟩
      rcases ih (handlerWrite fp w s) with ⟨t, ht, hd⟩ | ⟨t, ht, hd⟩
      · exact Or.inl ⟨t, ht, h1.trans hd⟩
      · exact Or.inr ⟨t, ht, h1.trans hd⟩
    · exact Or.inr ⟨s, by simp, .refl fp s⟩

end Sys2Proof.Machine
end

