-- ==== Sys2Proof/Laws/Allocation.lean ====
section
/-! SUPPORT. What BM_ALLOCATE places where (41_buffer_manager.md R131, R132): the offset of each buffer,
its capacity, and that the buffers follow the table and each other. -/

namespace Sys2Proof.Machine

open Sys2Proof

/-! ### Sizes -/

theorem evenSize_even (m : Nat) : evenSize m % 2 = 0 := by unfold evenSize; omega

theorem le_evenSize (m : Nat) : m ≤ evenSize m := by unfold evenSize; omega

theorem rxSize_even (m : Nat) : rxSize m % 2 = 0 := by
  unfold rxSize evenSize; split <;> omega

theorem le_rxSize (m : Nat) : m ≤ rxSize m := by
  unfold rxSize evenSize; split <;> omega

theorem rxSize_le {m : Nat} (h : m ≤ 1023) : rxSize m ≤ 1024 := by
  unfold rxSize evenSize; split <;> omega

/-- The initial count value expresses the receive size, with a count of 0. -/
theorem rxCountInit_spec {m : Nat} (h : m ≤ 1023) :
    rxCapOf (rxCountInit m) = (if m = 0 then 0 else rxSize m) ∧ (rxCountInit m).extractLsb' 0 10 = 0#10 := by
  have h' : ∀ m : Nat, m < 1024 →
      rxCapOf (rxCountInit m) = (if m = 0 then 0 else rxSize m) ∧
        (rxCountInit m).extractLsb' 0 10 = 0#10 := by decide +kernel
  exact h' m (by omega)

theorem rxCapOf_rxCountInit {m : Nat} (h1 : 1 ≤ m) (h : m ≤ 1023) :
    rxCapOf (rxCountInit m) = rxSize m := by
  rw [(rxCountInit_spec h).1, if_neg (by omega)]

/-! ### The loop over the declared endpoints -/

/-- The offset of the buffer of the endpoint at position `j`. -/
def offsetAt (es : List Endpoint) (off j : Nat) : Nat := off + ((es.take j).map bufferSize).sum

theorem offsetAt_zero (es : List Endpoint) (off : Nat) : offsetAt es off 0 = off := by
  simp [offsetAt]

theorem offsetAt_cons (e : Endpoint) (es : List Endpoint) (off j : Nat) :
    offsetAt (e :: es) off (j + 1) = offsetAt es (off + bufferSize e) j := by
  simp [offsetAt, Nat.add_assoc]

/-- A later buffer begins after an earlier one. -/
theorem offsetAt_lt {es : List Endpoint} {off j k : Nat} {e : Endpoint} (hj : es[j]? = some e)
    (h : j < k) : offsetAt es off j + bufferSize e ≤ offsetAt es off k := by
  induction es generalizing off j k with
  | nil => simp at hj
  | cons a l ih =>
    match j, k, h with
    | 0, k + 1, _ =>
      simp only [List.getElem?_cons_zero, Option.some.injEq] at hj
      subst hj
      rw [offsetAt_cons, offsetAt_zero]
      simp [offsetAt]
    | j + 1, k + 1, h =>
      rw [offsetAt_cons, offsetAt_cons]
      exact ih (by simpa using hj) (by omega)

theorem placeEndpoints_end (es : List Endpoint) (off : Nat) (entries : List SlotAlloc) :
    (placeEndpoints es off entries).2 = offsetAt es off es.length := by
  induction es generalizing off entries with
  | nil => simp [placeEndpoints, offsetAt]
  | cons a l ih =>
    rw [placeEndpoints, ih, List.length_cons, offsetAt_cons]

theorem placeEndpoint_length (off : Nat) (e : Endpoint) (entries : List SlotAlloc) :
    (placeEndpoint off e entries).length = entries.length := by
  unfold placeEndpoint; split <;> simp

theorem placeEndpoints_length (es : List Endpoint) (off : Nat) (entries : List SlotAlloc) :
    (placeEndpoints es off entries).1.length = entries.length := by
  induction es generalizing off entries with
  | nil => rfl
  | cons a l ih => rw [placeEndpoints, ih, placeEndpoint_length]

/-- The half of an entry that a direction uses: the offset, and what its size is written as. -/
def halfAlloc (d : Dir) (a : SlotAlloc) : Nat × Nat × Half :=
  match d with
  | .dirIn => (a.addrTx, a.txCap, 0#16)
  | .dirOut => (a.addrRx, 0, a.countRxInit)

/-- What placing an endpoint writes to its half. -/
def placedHalf (off : Nat) (e : Endpoint) : Nat × Nat × Half :=
  match e.dir with
  | .dirIn => (off, evenSize e.mps.toNat, 0#16)
  | .dirOut => (off, 0, rxCountInit e.mps.toNat)

theorem getD_modify (l : List SlotAlloc) (i n : Nat) (f : SlotAlloc → SlotAlloc) :
    (l.modify i f).getD n SlotAlloc.empty =
      if i = n ∧ n < l.length then f (l.getD n SlotAlloc.empty) else l.getD n SlotAlloc.empty := by
  simp only [List.getD_eq_getElem?_getD, List.getElem?_modify]
  by_cases h : n < l.length
  · by_cases hi : i = n <;> simp [h, hi]
  · by_cases hi : i = n <;> simp [h, hi]

theorem placeEndpoint_same (off : Nat) (e : Endpoint) (entries : List SlotAlloc)
    (h : e.number.toNat < entries.length) :
    halfAlloc e.dir ((placeEndpoint off e entries).getD e.number.toNat SlotAlloc.empty) =
      placedHalf off e := by
  unfold placeEndpoint placedHalf
  cases e.dir <;> simp only [getD_modify, true_and, h, if_true] <;> rfl

theorem placeEndpoint_other (off : Nat) (e : Endpoint) (entries : List SlotAlloc) (n : Nat) (d : Dir)
    (h : ¬ (e.number.toNat = n ∧ e.dir = d)) :
    halfAlloc d ((placeEndpoint off e entries).getD n SlotAlloc.empty) =
      halfAlloc d (entries.getD n SlotAlloc.empty) := by
  unfold placeEndpoint
  cases he : e.dir <;> simp only [getD_modify] <;> split <;> cases d <;> simp_all [halfAlloc, placeTx, placeRx]

/-- A half that no endpoint of the list has keeps its buffer. -/
theorem placeEndpoints_other (es : List Endpoint) (off : Nat) (entries : List SlotAlloc) (n : Nat)
    (d : Dir) (h : ∀ e ∈ es, ¬ (e.number.toNat = n ∧ e.dir = d)) :
    halfAlloc d ((placeEndpoints es off entries).1.getD n SlotAlloc.empty) =
      halfAlloc d (entries.getD n SlotAlloc.empty) := by
  induction es generalizing off entries with
  | nil => rfl
  | cons a l ih =>
    rw [placeEndpoints, ih _ _ (fun e he => h e (List.mem_cons_of_mem _ he)),
      placeEndpoint_other _ _ _ _ _ (h a (List.mem_cons_self ..))]

/-- Each endpoint's half gets its buffer, where no two endpoints have one half. -/
theorem placeEndpoints_same (es : List Endpoint) (off : Nat) (entries : List SlotAlloc)
    (hl : ∀ e ∈ es, e.number.toNat < entries.length) (hc : anyClash es = false)
    {j : Nat} {e : Endpoint} (hj : es[j]? = some e) :
    halfAlloc e.dir ((placeEndpoints es off entries).1.getD e.number.toNat SlotAlloc.empty) =
      placedHalf (offsetAt es off j) e := by
  induction es generalizing off entries j with
  | nil => simp at hj
  | cons a l ih =>
    simp only [anyClash, Bool.or_eq_false_iff, List.any_eq_false] at hc
    match j with
    | 0 =>
      simp only [List.getElem?_cons_zero, Option.some.injEq] at hj
      subst hj
      rw [placeEndpoints, placeEndpoints_other, placeEndpoint_same, offsetAt_zero]
      · exact hl a (List.mem_cons_self ..)
      · intro f hf ⟨h1, h2⟩
        apply hc.1 f hf
        rw [endpointsClash_iff]
        exact ⟨BitVec.eq_of_toNat_eq h1.symm, Or.inl h2.symm⟩
    | j + 1 =>
      rw [placeEndpoints, offsetAt_cons]
      refine ih _ _ ?_ hc.2 (by simpa using hj)
      intro f hf
      rw [placeEndpoint_length]
      exact hl f (List.mem_cons_of_mem _ hf)

/-! ### The allocation of a configuration -/

theorem number_le_maxSlot {cfg : StaticConfig} {e : Endpoint} (h : e ∈ declaredEndpoints cfg) :
    e.number.toNat ≤ maxSlot cfg := by
  have : ∀ es : List Endpoint, e ∈ es → e.number.toNat ≤ es.foldr (fun e m => max e.number.toNat m) 0 := by
    intro es
    induction es with
    | nil => simp
    | cons a l ih =>
      intro ha
      simp only [List.foldr_cons]
      rcases List.mem_cons.1 ha with rfl | ha
      · exact Nat.le_max_left _ _
      · exact Nat.le_trans (ih ha) (Nat.le_max_right _ _)
  exact this _ h

theorem Accepted.maxSlot_lt {cfg : StaticConfig} (h : Accepted cfg) : maxSlot cfg < 8 := by
  have : ∀ es : List Endpoint, (∀ e ∈ es, e.number.toNat < 8) →
      es.foldr (fun e m => max e.number.toNat m) 0 < 8 := by
    intro es
    induction es with
    | nil => simp
    | cons a l ih =>
      intro ha
      simp only [List.foldr_cons]
      exact Nat.max_lt.2 ⟨ha a (List.mem_cons_self ..), ih fun e he => ha e (List.mem_cons_of_mem _ he)⟩
  exact this _ fun e he => h.number_lt he

theorem ep0Entries_length (cfg : StaticConfig) : (ep0Entries cfg).length = maxSlot cfg + 1 := by
  simp [ep0Entries]

theorem allocation_entries_length (cfg : StaticConfig) :
    (allocation cfg).entries.length = maxSlot cfg + 1 := by
  simp [allocation, placeEndpoints_length, ep0Entries_length]

@[simp] theorem allocation_maxSlot (cfg : StaticConfig) : (allocation cfg).maxSlot = maxSlot cfg := rfl

/-- The offset of the buffer of the declared endpoint at position `j`. -/
def endpointOffset (cfg : StaticConfig) (j : Nat) : Nat :=
  offsetAt (declaredEndpoints cfg)
    (afterTable cfg + evenSize cfg.mps0.toNat + rxSize cfg.mps0.toNat) j

theorem endOff_eq (cfg : StaticConfig) :
    (allocation cfg).endOff = endpointOffset cfg (declaredEndpoints cfg).length :=
  placeEndpoints_end _ _ _

/-- The declared endpoint's half of its slot. -/
theorem slotAlloc_declared {cfg : StaticConfig} (h : Accepted cfg) {j : Nat} {e : Endpoint}
    (hj : (declaredEndpoints cfg)[j]? = some e) :
    halfAlloc e.dir (slotAlloc cfg e.number.toNat) = placedHalf (endpointOffset cfg j) e := by
  refine placeEndpoints_same _ _ _ ?_ ((accepted_iff cfg).1 h).2.2.2.1 hj
  intro f hf
  rw [ep0Entries_length]
  have := number_le_maxSlot hf
  omega

/-- Endpoint 0's entry. -/
theorem slotAlloc_zero {cfg : StaticConfig} (h : Accepted cfg) :
    slotAlloc cfg 0 =
      { addrTx := afterTable cfg
        txCap := evenSize cfg.mps0.toNat
        addrRx := afterTable cfg + evenSize cfg.mps0.toNat
        countRxInit := rxCountInit cfg.mps0.toNat } := by
  have hh : ∀ d, halfAlloc d (slotAlloc cfg 0) = halfAlloc d ((ep0Entries cfg).getD 0 SlotAlloc.empty) := by
    intro d
    refine placeEndpoints_other _ _ _ _ _ ?_
    intro e he hx
    have := h.number he
    omega
  have he : (ep0Entries cfg).getD 0 SlotAlloc.empty =
      { addrTx := afterTable cfg
        txCap := evenSize cfg.mps0.toNat
        addrRx := afterTable cfg + evenSize cfg.mps0.toNat
        countRxInit := rxCountInit cfg.mps0.toNat } := by
    unfold ep0Entries
    rw [getD_modify, if_pos ⟨rfl, by simp⟩]
    rfl
  have hi := hh .dirIn
  have ho := hh .dirOut
  rw [he] at hi ho
  simp only [halfAlloc, Prod.mk.injEq] at hi ho
  cases hs : slotAlloc cfg 0
  simp_all

/-- A half that no endpoint declares, on a slot other than 0, has no buffer. -/
theorem slotAlloc_undeclared {cfg : StaticConfig} {n : Nat} {d : Dir} (hn : n ≠ 0)
    (h : ∀ e ∈ declaredEndpoints cfg, ¬ (e.number.toNat = n ∧ e.dir = d)) :
    halfAlloc d (slotAlloc cfg n) = halfAlloc d SlotAlloc.empty := by
  refine (placeEndpoints_other _ _ _ _ _ h).trans ?_
  congr 1
  unfold ep0Entries
  rw [getD_modify, if_neg (by omega)]
  simp only [List.getD_eq_getElem?_getD, List.getElem?_replicate]
  split <;> rfl

theorem afterTable_eq (cfg : StaticConfig) : afterTable cfg = 8 * (maxSlot cfg + 1) := by
  simp [afterTable, bdtBase]

theorem offsetAt_even (es : List Endpoint) (off j : Nat) (h : off % 2 = 0) :
    offsetAt es off j % 2 = 0 := by
  induction es generalizing off j with
  | nil => simpa [offsetAt] using h
  | cons a l ih =>
    cases j with
    | zero => rwa [offsetAt_zero]
    | succ j =>
      rw [offsetAt_cons]
      apply ih
      have : bufferSize a % 2 = 0 := by
        unfold bufferSize; split
        · exact evenSize_even _
        · exact rxSize_even _
      omega

theorem endpointOffset_even (cfg : StaticConfig) (j : Nat) : endpointOffset cfg j % 2 = 0 := by
  apply offsetAt_even
  have h1 := evenSize_even cfg.mps0.toNat
  have h2 := rxSize_even cfg.mps0.toNat
  rw [afterTable_eq]
  omega

/-- Every buffer of a declared endpoint follows endpoint 0's. -/
theorem le_endpointOffset (cfg : StaticConfig) (j : Nat) :
    afterTable cfg + evenSize cfg.mps0.toNat + rxSize cfg.mps0.toNat ≤ endpointOffset cfg j := by
  simp [endpointOffset, offsetAt]

theorem endpointOffset_end {cfg : StaticConfig} {j : Nat} {e : Endpoint}
    (hj : (declaredEndpoints cfg)[j]? = some e) :
    endpointOffset cfg j + bufferSize e ≤ (allocation cfg).endOff := by
  rw [endOff_eq]
  exact offsetAt_lt hj (List.getElem?_eq_some_iff.1 hj).1

theorem ep0_end (cfg : StaticConfig) :
    afterTable cfg + evenSize cfg.mps0.toNat + rxSize cfg.mps0.toNat ≤ (allocation cfg).endOff := by
  rw [endOff_eq]; exact le_endpointOffset _ _

/-- A declared In endpoint's buffer: its place, its capacity, and where it lies. -/
theorem Accepted.in_buffer {cfg : StaticConfig} (h : Accepted cfg) {e : Endpoint}
    (he : e ∈ declaredEndpoints cfg) (hd : e.dir = .dirIn) :
    (slotAlloc cfg e.number.toNat).txCap = evenSize e.mps.toNat ∧
    (slotAlloc cfg e.number.toNat).addrTx % 2 = 0 ∧
    8 * (maxSlot cfg + 1) ≤ (slotAlloc cfg e.number.toNat).addrTx ∧
    (slotAlloc cfg e.number.toNat).addrTx + evenSize e.mps.toNat ≤ cfg.pmaSize := by
  obtain ⟨j, hj⟩ := List.getElem?_of_mem he
  have h1 := slotAlloc_declared h hj
  have h2 := endpointOffset_end hj
  have h3 := le_endpointOffset cfg j
  have h4 := h.endOff
  rw [afterTable_eq] at h3
  simp only [placedHalf, hd, halfAlloc, Prod.mk.injEq] at h1
  simp only [bufferSize, hd] at h2
  rw [h1.1, h1.2.1]
  have := endpointOffset_even cfg j
  refine ⟨rfl, this, by omega, by omega⟩

/-- A declared Out endpoint's buffer. -/
theorem Accepted.out_buffer {cfg : StaticConfig} (h : Accepted cfg) {e : Endpoint}
    (he : e ∈ declaredEndpoints cfg) (hd : e.dir = .dirOut) :
    rxCapOf (slotAlloc cfg e.number.toNat).countRxInit = rxSize e.mps.toNat ∧
    (slotAlloc cfg e.number.toNat).addrRx % 2 = 0 ∧
    8 * (maxSlot cfg + 1) ≤ (slotAlloc cfg e.number.toNat).addrRx ∧
    (slotAlloc cfg e.number.toNat).addrRx + rxSize e.mps.toNat ≤ cfg.pmaSize := by
  obtain ⟨j, hj⟩ := List.getElem?_of_mem he
  have h1 := slotAlloc_declared h hj
  have h2 := endpointOffset_end hj
  have h3 := le_endpointOffset cfg j
  have h4 := h.endOff
  have h5 := h.mps he
  rw [afterTable_eq] at h3
  simp only [placedHalf, hd, halfAlloc, Prod.mk.injEq] at h1
  simp only [bufferSize, hd] at h2
  rw [h1.1, h1.2.2, rxCapOf_rxCountInit h5.1 h5.2]
  have := endpointOffset_even cfg j
  refine ⟨rfl, this, by omega, by omega⟩

/-- Endpoint 0's buffers. -/
theorem Accepted.ep0_buffers {cfg : StaticConfig} (h : Accepted cfg) :
    (slotAlloc cfg 0).txCap = cfg.mps0.toNat ∧
    rxCapOf (slotAlloc cfg 0).countRxInit = cfg.mps0.toNat ∧
    (slotAlloc cfg 0).addrTx = 8 * (maxSlot cfg + 1) ∧
    (slotAlloc cfg 0).addrRx = 8 * (maxSlot cfg + 1) + cfg.mps0.toNat ∧
    8 * (maxSlot cfg + 1) + 2 * cfg.mps0.toNat ≤ cfg.pmaSize := by
  have h1 := slotAlloc_zero h
  have h2 := ep0_end cfg
  have h3 := h.endOff
  rw [h1, ← afterTable_eq]
  rcases h.mps0 with hm | hm <;> rw [hm] at h2 ⊢ <;>
    simp only [show evenSize 32 = 32 from rfl, show rxSize 32 = 32 from rfl,
      show evenSize 64 = 64 from rfl, show rxSize 64 = 64 from rfl] at h2 ⊢ <;>
    exact ⟨trivial, by decide, trivial, trivial, by omega⟩

/-- The addresses of an accepted allocation are offsets of packet memory, so they fit a halfword. -/
theorem Accepted.addr_lt {cfg : StaticConfig} (h : Accepted cfg) (n : Nat) :
    (slotAlloc cfg n).addrTx < 65536 ∧ (slotAlloc cfg n).addrRx < 65536 := by
  have hp := cfg.pmaSize_le
  by_cases h0 : n = 0
  · subst h0
    have := h.ep0_buffers
    have := h.mps0
    omega
  · constructor
    · by_cases hd : ∃ e ∈ declaredEndpoints cfg, e.number.toNat = n ∧ e.dir = .dirIn
      · obtain ⟨e, he, hn, hd⟩ := hd
        have := h.in_buffer he hd
        have h1 := (h.mps he).1
        have h2 := le_evenSize e.mps.toNat
        rw [hn] at this
        omega
      · have := slotAlloc_undeclared (cfg := cfg) (d := .dirIn) h0 (by
          intro e he hx; exact hd ⟨e, he, hx⟩)
        simp only [halfAlloc, Prod.mk.injEq, SlotAlloc.empty] at this
        omega
    · by_cases hd : ∃ e ∈ declaredEndpoints cfg, e.number.toNat = n ∧ e.dir = .dirOut
      · obtain ⟨e, he, hn, hd⟩ := hd
        have := h.out_buffer he hd
        have h1 := (h.mps he).1
        have h2 := le_rxSize e.mps.toNat
        rw [hn] at this
        omega
      · have := slotAlloc_undeclared (cfg := cfg) (d := .dirOut) h0 (by
          intro e he hx; exact hd ⟨e, he, hx⟩)
        simp only [halfAlloc, Prod.mk.injEq, SlotAlloc.empty] at this
        omega

end Sys2Proof.Machine
end

