-- ==== Sys2Proof/Laws/Resets.lean ====
section
/-! SUPPORT. What the endpoint resets write (45_device_controller.md R242 to R244). -/

namespace Sys2Proof.Machine

open Sys2Proof

/-! ### One slot -/

/-- The status that a reset gives to a declared half (R244). -/
def resetStat : Dir → Stat
  | .dirIn => .nak
  | .dirOut => .valid

/-- What a word holds after the reset of the endpoint `e`. -/
structure ResetHalf (e : Endpoint) (w : Half) : Prop where
  ea : Epr.ea w = e.number
  type : Epr.epType w = epTypeBits e.epType
  kind : Epr.epKind w = false
  done : halfCompletion e.dir w = false
  stat : halfStat e.dir w = resetStat e.dir

theorem endpointResetWord_self (e : Endpoint) (w : Half) : ResetHalf e (endpointResetWord e w) := by
  unfold endpointResetWord
  cases hd : e.dir <;> refine ⟨?_, ?_, ?_, ?_, ?_⟩ <;> simp [halfCompletion, halfStat, resetStat, hd]

/-- The reset of the other half of a slot, with the same type, keeps what the reset of `e` wrote. -/
theorem endpointResetWord_keeps {e f : Endpoint} {w : Half} (h : ResetHalf e w)
    (hn : f.number = e.number) (ht : f.epType = e.epType) : ResetHalf e (endpointResetWord f w) := by
  have hs := h.stat
  have hc := h.done
  unfold endpointResetWord
  cases hd : e.dir <;> cases hf : f.dir <;> refine ⟨?_, ?_, ?_, ?_, ?_⟩ <;>
    simp_all [halfCompletion, halfStat, resetStat]

/-- The half that the endpoint does not have is as before. -/
theorem endpointResetWord_other (e : Endpoint) (w : Half) {d : Dir} (h : e.dir ≠ d) :
    halfCompletion d (endpointResetWord e w) = halfCompletion d w ∧
    halfStat d (endpointResetWord e w) = halfStat d w := by
  unfold endpointResetWord
  cases hd : e.dir <;> cases d <;> simp_all [halfCompletion, halfStat]

/-- SETUP and the toggles are as before. -/
theorem endpointResetWord_rest (e : Endpoint) (w : Half) :
    Epr.setupFlag (endpointResetWord e w) = Epr.setupFlag w ∧
    Epr.dtogRx (endpointResetWord e w) = Epr.dtogRx w ∧
    Epr.dtogTx (endpointResetWord e w) = Epr.dtogTx w := by
  unfold endpointResetWord
  cases e.dir <;> simp

/-- No declared endpoint is a CONTROL endpoint. -/
theorem endpointResetWord_type (e : Endpoint) (w : Half) :
    Epr.epType (endpointResetWord e w) ≠ epTypeControl := by
  rw [(endpointResetWord_self e w).type]
  cases e.epType <;> decide

/-! ### The slots of a list of endpoints -/

theorem slotOfNumber_some {cfg : StaticConfig} {n : BitVec 4} {i : Fin 8} :
    slotOfNumber cfg n = some i ↔ i.val = n.toNat ∧ n.toNat < cfg.numEpSlots := by
  unfold slotOfNumber
  split
  · next h =>
    simp only [Option.some.injEq]
    exact ⟨fun hi => ⟨by rw [← hi], h⟩, fun hi => Fin.ext hi.1.symm⟩
  · next h => exact ⟨fun hi => by simp at hi, fun hi => absurd hi.2 h⟩

theorem slotOfNumber_eq {cfg : StaticConfig} {n : BitVec 4} (h : n.toNat < cfg.numEpSlots) :
    ∃ i : Fin 8, slotOfNumber cfg n = some i ∧ i.val = n.toNat :=
  ⟨⟨n.toNat, Nat.lt_of_lt_of_le h cfg.numEpSlots_le⟩, slotOfNumber_some.2 ⟨rfl, h⟩, rfl⟩

/-- The state after the resets of a list of endpoints. -/
def State.resetEndpoints : List Endpoint → State → State
  | [], s => s
  | e :: es, s =>
    State.resetEndpoints es
      (match slotOfNumber s.cfg e.number with
       | some n => s.modifyEpr n (endpointResetWord e)
       | none => s)

theorem State.resetEndpoints_rest (es : List Endpoint) (s : State) :
    { State.resetEndpoints es s with epr := s.epr } = s := by
  induction es generalizing s with
  | nil => rfl
  | cons e es ih =>
    rw [State.resetEndpoints]
    split
    · next n hn =>
      have := congrArg (fun t : State => { t with epr := s.epr }) (ih (s.modifyEpr n (endpointResetWord e)))
      exact this
    · exact ih s

@[simp] theorem State.resetEndpoints_cfg (es : List Endpoint) (s : State) :
    (State.resetEndpoints es s).cfg = s.cfg := by
  have := congrArg State.cfg (State.resetEndpoints_rest es s); exact this

theorem endpointsReset_ok {es : List Endpoint} {s : State}
    (h : ∀ e ∈ es, e.number.toNat < s.cfg.numEpSlots) :
    endpointsReset es s = .ok (State.resetEndpoints es s) := by
  induction es generalizing s with
  | nil => rfl
  | cons e es ih =>
    obtain ⟨i, he, -⟩ := slotOfNumber_eq (h e (List.mem_cons_self ..))
    simp only [endpointsReset, State.resetEndpoints, he]
    exact ih fun f hf => h f (List.mem_cons_of_mem _ hf)

theorem State.resetEndpoints_append (es fs : List Endpoint) (s : State) :
    State.resetEndpoints (es ++ fs) s = State.resetEndpoints fs (State.resetEndpoints es s) := by
  induction es generalizing s with
  | nil => rfl
  | cons e es ih => simp only [List.cons_append, State.resetEndpoints, ih]

theorem configsReset_ok {cs : List Configuration}
    {s : State} (h : ∀ e ∈ cs.flatMap Configuration.endpoints, e.number.toNat < s.cfg.numEpSlots) :
    configsReset cs s = .ok (State.resetEndpoints (cs.flatMap Configuration.endpoints) s) := by
  induction cs generalizing s with
  | nil => rfl
  | cons c cs ih =>
    simp only [List.flatMap_cons, List.mem_append] at h
    rw [configsReset, configReset, endpointsReset_ok (fun e he => h e (Or.inl he)), Flow.andThen_ok,
      ih (by simpa using fun e he => h e (Or.inr he)), List.flatMap_cons, State.resetEndpoints_append]

/-- Whatever the resets keep at a slot holds after them. -/
theorem State.resetEndpoints_induct {es : List Endpoint} {n : Fin 8} {P : Half → Prop}
    (hP : ∀ e ∈ es, n.val = e.number.toNat → ∀ w, P w → P (endpointResetWord e w)) {s : State}
    (h : P (s.eprAt n)) : P ((State.resetEndpoints es s).eprAt n) := by
  induction es generalizing s with
  | nil => exact h
  | cons e es ih =>
    rw [State.resetEndpoints]
    apply ih (fun f hf => hP f (List.mem_cons_of_mem _ hf))
    split
    · next m hm =>
      rw [State.eprAt_modifyEpr]
      split
      · next hnm =>
        subst hnm
        exact hP e (List.mem_cons_self ..) (slotOfNumber_some.1 hm).1 _ h
      · exact h
    · exact h

/-- A slot that no endpoint names is as before. -/
theorem State.resetEndpoints_slot {es : List Endpoint} {n : Fin 8}
    (h : ∀ e ∈ es, n.val ≠ e.number.toNat) (s : State) :
    (State.resetEndpoints es s).eprAt n = s.eprAt n :=
  State.resetEndpoints_induct (P := fun w => w = s.eprAt n)
    (fun e he hn => absurd hn (h e he)) rfl

/-- A half that no endpoint has is as before. -/
theorem State.resetEndpoints_half {es : List Endpoint} {n : Fin 8} {d : Dir}
    (h : ∀ e ∈ es, ¬ (n.val = e.number.toNat ∧ e.dir = d)) (s : State) :
    halfCompletion d ((State.resetEndpoints es s).eprAt n) = halfCompletion d (s.eprAt n) ∧
    halfStat d ((State.resetEndpoints es s).eprAt n) = halfStat d (s.eprAt n) := by
  refine State.resetEndpoints_induct
    (P := fun w => halfCompletion d w = halfCompletion d (s.eprAt n) ∧
      halfStat d w = halfStat d (s.eprAt n)) ?_ ⟨rfl, rfl⟩
  intro e he hn w hw
  have hd : e.dir ≠ d := fun hd => h e he ⟨hn, hd⟩
  have := endpointResetWord_other e w hd
  exact ⟨this.1.trans hw.1, this.2.trans hw.2⟩

/-- Each endpoint of the list is reset, where endpoints with one number have one type. -/
theorem State.resetEndpoints_declared {es : List Endpoint} {n : Fin 8} {e : Endpoint}
    (ht : ∀ e ∈ es, ∀ f ∈ es, e.number = f.number → e.epType = f.epType) (he : e ∈ es)
    (hn : n.val = e.number.toNat) {s : State} (hlt : e.number.toNat < s.cfg.numEpSlots) :
    ResetHalf e ((State.resetEndpoints es s).eprAt n) := by
  obtain ⟨before, after, rfl⟩ := List.append_of_mem he
  rw [State.resetEndpoints_append, State.resetEndpoints]
  refine State.resetEndpoints_induct ?_ ?_
  · intro f hf hfn w hw
    have hfe : f.number = e.number := BitVec.eq_of_toNat_eq (by omega)
    exact endpointResetWord_keeps hw hfe (ht f (by simp [hf]) e he hfe)
  · rw [slotOfNumber_some.2 ⟨hn, by simpa using hlt⟩]
    simp only [State.eprAt_modifyEpr_same]
    exact endpointResetWord_self e _

/-! ### Reset -/

/-- The word EP0_RESET writes (R243). -/
theorem ep0ResetWord :
    Epr.withStatTx (Epr.withStatRx (Epr.withEpType 0x0000#16 epTypeControl) .valid) .nak = 0x3220#16 := by
  decide

theorem ep0Reset_eq (s : State) : ep0Reset s = s.setEpr 0 0x3220#16 := by
  unfold ep0Reset; rw [ep0ResetWord]

/-- The state after `Reset()` (R242). -/
def State.afterReset (s : State) : State :=
  (State.resetEndpoints (declaredEndpoints s.cfg)
    (({ s.writeIstr 0x0000#16 with cntr := cntrBaseline }).setEpr 0 0x3220#16)).readdress

theorem resetOp_ok {s : State} (h : ∀ e ∈ declaredEndpoints s.cfg, e.number.toNat < s.cfg.numEpSlots) :
    resetOp s = .ok s.afterReset := by
  have hc := configsReset_ok (cs := s.cfg.configs)
    (s := ({ s.writeIstr 0x0000#16 with cntr := cntrBaseline }).setEpr 0 0x3220#16) (by exact h)
  unfold resetOp State.afterReset
  dsimp only at hc ⊢
  rw [ep0Reset_eq, hc, Flow.andThen_ok]
  rfl

theorem endpointsReset_eq_ok {es : List Endpoint} {s t : State} (h : endpointsReset es s = .ok t) :
    ∀ e ∈ es, e.number.toNat < s.cfg.numEpSlots := by
  induction es generalizing s with
  | nil => simp
  | cons e es ih =>
    rw [endpointsReset] at h
    split at h
    · next n hn =>
      have := slotOfNumber_some.1 hn
      intro f hf
      rcases List.mem_cons.1 hf with rfl | hf
      · exact this.2
      · exact ih h f hf
    · simp [refuseConfig] at h

theorem endpointsReset_cfg {es : List Endpoint} {s t : State} (h : endpointsReset es s = .ok t) :
    t.cfg = s.cfg := by
  rw [endpointsReset_ok (endpointsReset_eq_ok h)] at h
  injection h with h
  rw [← h, State.resetEndpoints_cfg]

theorem configsReset_eq_ok {cs : List Configuration} {s t : State} (h : configsReset cs s = .ok t) :
    ∀ e ∈ cs.flatMap Configuration.endpoints, e.number.toNat < s.cfg.numEpSlots := by
  induction cs generalizing s with
  | nil => simp
  | cons c cs ih =>
    rw [configsReset, Flow.andThen_eq_ok] at h
    obtain ⟨u, hu, ht⟩ := h
    intro e he
    simp only [List.flatMap_cons, List.mem_append] at he
    rcases he with he | he
    · exact endpointsReset_eq_ok hu e he
    · have := ih ht e he
      rwa [endpointsReset_cfg hu] at this

theorem configsReset_ne_raised {cs : List Configuration} {s t : State} :
    configsReset cs s ≠ .error (.raised t) := by
  have he : ∀ (es : List Endpoint) (s : State), endpointsReset es s ≠ .error (.raised t) := by
    intro es
    induction es with
    | nil => intro s; simp [endpointsReset]
    | cons e es ih =>
      intro s
      rw [endpointsReset]
      split
      · exact ih _
      · simp [refuseConfig]
  induction cs generalizing s with
  | nil => simp [configsReset]
  | cons c cs ih =>
    rw [configsReset]
    cases hc : configReset c s with
    | ok u => simpa using ih
    | error e =>
      intro h
      simp only [Flow.andThen_error, Except.error.injEq] at h
      subst h
      exact he _ _ hc

/-- RESET answers a next state only where every declared number has a slot; it never raises a fault. -/
theorem resetOp_next {s t : State} (h : (resetOp s).outcome = .next t) :
    (∀ e ∈ declaredEndpoints s.cfg, e.number.toNat < s.cfg.numEpSlots) ∧ t = s.afterReset := by
  rw [Flow.outcome_eq_next] at h
  have hok : resetOp s = .ok t := by
    rcases h with h | h
    · exact h
    · unfold resetOp at h
      cases hc : configsReset s.cfg.configs (ep0Reset { s.writeIstr 0x0000#16 with cntr := cntrBaseline }) with
      | ok u => simp only [hc, Flow.andThen_ok, reduceCtorEq] at h
      | error e =>
        simp only [hc, Flow.andThen_error, Except.error.injEq] at h
        subst h
        exact absurd hc configsReset_ne_raised
  have hn : ∀ e ∈ declaredEndpoints s.cfg, e.number.toNat < s.cfg.numEpSlots := by
    unfold resetOp at hok
    rw [Flow.andThen_eq_ok] at hok
    obtain ⟨u, hu, -⟩ := hok
    have := configsReset_eq_ok hu
    exact this
  refine ⟨hn, ?_⟩
  rw [resetOp_ok hn] at hok
  simpa using hok.symm

theorem State.afterReset_rest (s : State) :
    { s.afterReset with cntr := s.cntr, istr := s.istr, btable := s.btable, daddr := s.daddr,
                        epr := s.epr, pending := s.pending } = s := by
  have h := State.resetEndpoints_rest (declaredEndpoints s.cfg)
    (({ s.writeIstr 0x0000#16 with cntr := cntrBaseline }).setEpr 0 0x3220#16)
  unfold State.afterReset State.readdress
  exact congrArg (fun t : State => { t with
    cntr := s.cntr, istr := s.istr, btable := s.btable, daddr := s.daddr,
    epr := s.epr, pending := s.pending }) h

@[simp] theorem State.afterReset_cntr (s : State) : s.afterReset.cntr = cntrBaseline := by
  have h := congrArg State.cntr (State.resetEndpoints_rest (declaredEndpoints s.cfg)
    (({ s.writeIstr 0x0000#16 with cntr := cntrBaseline }).setEpr 0 0x3220#16))
  exact h
@[simp] theorem State.afterReset_istr (s : State) : s.afterReset.istr = 0#16 := by
  have h := congrArg State.istr (State.resetEndpoints_rest (declaredEndpoints s.cfg)
    (({ s.writeIstr 0x0000#16 with cntr := cntrBaseline }).setEpr 0 0x3220#16))
  refine Eq.trans h ?_
  exact State.writeIstr_zero s
@[simp] theorem State.afterReset_btable (s : State) : s.afterReset.btable = bdtBase := rfl
@[simp] theorem State.afterReset_daddr (s : State) : s.afterReset.daddr = daddrDefault := rfl
@[simp] theorem State.afterReset_cfg (s : State) : s.afterReset.cfg = s.cfg := by
  have h := congrArg State.cfg s.afterReset_rest; exact h
@[simp] theorem State.afterReset_params (s : State) : s.afterReset.params = s.params := by
  have h := congrArg State.params s.afterReset_rest; exact h
@[simp] theorem State.afterReset_pma (s : State) : s.afterReset.pma = s.pma := by
  have h := congrArg State.pma s.afterReset_rest; exact h
@[simp] theorem State.afterReset_irqEn (s : State) : s.afterReset.irqEn = s.irqEn := by
  have h := congrArg State.irqEn s.afterReset_rest; exact h
@[simp] theorem State.afterReset_pullup (s : State) : s.afterReset.pullup = s.pullup := by
  have h := congrArg State.pullup s.afterReset_rest; exact h
@[simp] theorem State.afterReset_enabled (s : State) : s.afterReset.enabled = s.enabled := by
  have h := congrArg State.enabled s.afterReset_rest; exact h
@[simp] theorem State.afterReset_fault (s : State) : s.afterReset.fault = s.fault := by
  have h := congrArg State.fault s.afterReset_rest; exact h
@[simp] theorem State.afterReset_hist (s : State) : s.afterReset.hist = s.hist := by
  have h := congrArg State.hist s.afterReset_rest; exact h
@[simp] theorem State.afterReset_inputs (s : State) : s.afterReset.inputs = s.inputs := by
  have h := congrArg State.inputs s.afterReset_rest; exact h
@[simp] theorem State.afterReset_padDraws (s : State) : s.afterReset.padDraws = s.padDraws := by
  have h := congrArg State.padDraws s.afterReset_rest; exact h
@[simp] theorem State.afterReset_epIdDraws (s : State) : s.afterReset.epIdDraws = s.epIdDraws := by
  have h := congrArg State.epIdDraws s.afterReset_rest; exact h
@[simp] theorem State.afterReset_handlerDraws (s : State) :
    s.afterReset.handlerDraws = s.handlerDraws := by
  have h := congrArg State.handlerDraws s.afterReset_rest; exact h
@[simp] theorem State.afterReset_drawCount (s : State) : s.afterReset.drawCount = s.drawCount := by
  have h := congrArg State.drawCount s.afterReset_rest; exact h
@[simp] theorem State.afterReset_result (s : State) : s.afterReset.result = s.result := by
  have h := congrArg State.result s.afterReset_rest; exact h

theorem State.resetEndpoints_params (es : List Endpoint) (s : State) :
    (State.resetEndpoints es s).params = s.params := by
  have h := congrArg State.params (State.resetEndpoints_rest es s); exact h
theorem State.resetEndpoints_pending (es : List Endpoint) (s : State) :
    (State.resetEndpoints es s).pending = s.pending := by
  have h := congrArg State.pending (State.resetEndpoints_rest es s); exact h

theorem State.afterReset_pending (s : State) :
    s.afterReset.pending = if s.params.resetClearsPending then 0x0000#16 else s.pending := by
  unfold State.afterReset
  simp only [State.readdress, State.resetEndpoints_params, State.resetEndpoints_pending]
  rfl

/-- The slots after `Reset()`. -/
theorem State.afterReset_eprAt (s : State) (n : Fin 8) :
    s.afterReset.eprAt n = (State.resetEndpoints (declaredEndpoints s.cfg)
      (({ s.writeIstr 0x0000#16 with cntr := cntrBaseline }).setEpr 0 0x3220#16)).eprAt n := rfl

theorem State.afterReset_zero {s : State} (h : Accepted s.cfg) : s.afterReset.eprAt 0 = 0x3220#16 := by
  rw [State.afterReset_eprAt, State.resetEndpoints_slot, State.eprAt_setEpr_same]
  intro e he hx
  have := h.number he
  simp at hx
  omega

theorem State.afterReset_declared {s : State} (h : Accepted s.cfg) {e : Endpoint}
    (he : e ∈ declaredEndpoints s.cfg) {n : Fin 8} (hn : n.val = e.number.toNat) :
    ResetHalf e (s.afterReset.eprAt n) :=
  State.resetEndpoints_declared (fun _ hx _ hy => h.type hx hy) he hn (h.number he).2

theorem State.afterReset_undeclared {s : State} {n : Fin 8} {d : Dir}
    (hr : registered s.cfg (BitVec.ofNat 4 n.val) d = false) :
    halfCompletion d (s.afterReset.eprAt n) = halfCompletion d (s.eprAt n) ∧
    halfStat d (s.afterReset.eprAt n) = halfStat d (s.eprAt n) := by
  rw [registered_eq_false] at hr
  have hv : (BitVec.ofNat 4 n.val).toNat = n.val := by
    rw [BitVec.toNat_ofNat]; exact Nat.mod_eq_of_lt (by omega)
  have hn0 : n ≠ 0 := fun h0 => hr.1 (by rw [h0]; rfl)
  rw [State.afterReset_eprAt]
  have := State.resetEndpoints_half (es := declaredEndpoints s.cfg) (n := n) (d := d) (by
    rintro e he ⟨hne, hd⟩
    exact hr.2 e he (BitVec.eq_of_toNat_eq (by omega)) hd)
    (({ s.writeIstr 0x0000#16 with cntr := cntrBaseline }).setEpr 0 0x3220#16)
  rwa [State.eprAt_setEpr_of_ne _ _ _ _ hn0] at this

/-- Only slot 0 is a CONTROL slot after the resets, if it was so before. -/
theorem State.afterReset_control {s : State}
    (hc : ∀ n : Fin 8, Epr.epType (s.eprAt n) = epTypeControl → n = 0) (n : Fin 8)
    (hn : Epr.epType (s.afterReset.eprAt n) = epTypeControl) : n = 0 := by
  by_contra hne
  refine absurd hn ?_
  rw [State.afterReset_eprAt]
  refine State.resetEndpoints_induct (P := fun w => Epr.epType w ≠ epTypeControl) ?_ ?_
  · intro e _ _ w _; exact endpointResetWord_type e w
  · rw [State.eprAt_setEpr_of_ne _ _ _ _ hne]
    exact fun hx => hne (hc n hx)

end Sys2Proof.Machine
end

