-- ==== Sys2Proof/Laws/Table.lean ====
section
/-! SUPPORT. What BM_INIT writes (41_buffer_manager.md R133): the entries of the table, and no other byte. -/

namespace Sys2Proof.Machine

open Sys2Proof

/-- An entry is written from 8n, and nothing else. -/
theorem State.readByte_writeEntry_outside (s : State) (n x : Nat) (a : SlotAlloc)
    (h : x < 8 * n ∨ 8 * n + 8 ≤ x) : (s.writeEntry n a).readByte x = s.readByte x := by
  have hb : bdtBase.toNat = 0 := rfl
  unfold State.writeEntry
  rw [State.readByte_writeHalf_outside _ _ _ _ (by omega),
    State.readByte_writeHalf_outside _ _ _ _ (by omega),
    State.readByte_writeHalf_outside _ _ _ _ (by omega),
    State.readByte_writeHalf_outside _ _ _ _ (by omega)]

theorem State.readHalf_writeEntry_outside (s : State) (n x : Nat) (a : SlotAlloc)
    (h : x + 2 ≤ 8 * n ∨ 8 * n + 8 ≤ x) : (s.writeEntry n a).readHalf x = s.readHalf x := by
  unfold State.readHalf
  rw [s.readByte_writeEntry_outside _ _ _ (by omega), s.readByte_writeEntry_outside _ _ _ (by omega)]

/-- The four halfwords of a written entry. -/
theorem State.writeEntry_halves (s : State) (n : Nat) (a : SlotAlloc) :
    (s.writeEntry n a).readHalf (8 * n) = BitVec.ofNat 16 a.addrTx ∧
    (s.writeEntry n a).readHalf (8 * n + 2) = 0x0000#16 ∧
    (s.writeEntry n a).readHalf (8 * n + 4) = BitVec.ofNat 16 a.addrRx ∧
    (s.writeEntry n a).readHalf (8 * n + 6) = a.countRxInit := by
  have hb : bdtBase.toNat = 0 := rfl
  unfold State.writeEntry
  simp only [hb, Nat.zero_add]
  refine ⟨?_, ?_, ?_, ?_⟩
  · rw [State.readHalf_writeHalf_outside _ _ _ _ (by omega),
      State.readHalf_writeHalf_outside _ _ _ _ (by omega),
      State.readHalf_writeHalf_outside _ _ _ _ (by omega), State.readHalf_writeHalf_same]
  · rw [State.readHalf_writeHalf_outside _ _ _ _ (by omega),
      State.readHalf_writeHalf_outside _ _ _ _ (by omega), State.readHalf_writeHalf_same]
  · rw [State.readHalf_writeHalf_outside _ _ _ _ (by omega), State.readHalf_writeHalf_same]
  · rw [State.readHalf_writeHalf_same]

theorem State.writeEntry_rest (s : State) (n : Nat) (a : SlotAlloc) :
    { s.writeEntry n a with pma := s.pma } = s := rfl

theorem State.writeEntries_rest (s : State) (n : Nat) (as : List SlotAlloc) :
    { s.writeEntries n as with pma := s.pma } = s := by
  induction as generalizing s n with
  | nil => rfl
  | cons a l ih =>
    have := ih (s.writeEntry n a) (n + 1)
    rw [State.writeEntries]
    have h2 := congrArg (fun t : State => { t with pma := s.pma }) this
    exact h2.trans (s.writeEntry_rest n a)

theorem State.readByte_writeEntries_outside (s : State) (n x : Nat) (as : List SlotAlloc)
    (h : x < 8 * n ∨ 8 * (n + as.length) ≤ x) : (s.writeEntries n as).readByte x = s.readByte x := by
  induction as generalizing s n with
  | nil => rfl
  | cons a l ih =>
    simp only [List.length_cons] at h
    rw [State.writeEntries, ih _ _ (by omega), State.readByte_writeEntry_outside _ _ _ _ (by omega)]

theorem State.readHalf_writeEntries_outside (s : State) (n x : Nat) (as : List SlotAlloc)
    (h : x + 2 ≤ 8 * n ∨ 8 * (n + as.length) ≤ x) : (s.writeEntries n as).readHalf x = s.readHalf x := by
  unfold State.readHalf
  rw [s.readByte_writeEntries_outside _ _ _ (by omega), s.readByte_writeEntries_outside _ _ _ (by omega)]

/-- The four halfwords of each written entry. -/
theorem State.writeEntries_halves (s : State) (n : Nat) (as : List SlotAlloc) (i : Nat)
    (h : i < as.length) :
    (s.writeEntries n as).readHalf (8 * (n + i)) = BitVec.ofNat 16 (as.getD i SlotAlloc.empty).addrTx ∧
    (s.writeEntries n as).readHalf (8 * (n + i) + 2) = 0x0000#16 ∧
    (s.writeEntries n as).readHalf (8 * (n + i) + 4) = BitVec.ofNat 16 (as.getD i SlotAlloc.empty).addrRx ∧
    (s.writeEntries n as).readHalf (8 * (n + i) + 6) = (as.getD i SlotAlloc.empty).countRxInit := by
  induction as generalizing s n i with
  | nil => simp at h
  | cons a l ih =>
    rw [State.writeEntries]
    cases i with
    | zero =>
      have := s.writeEntry_halves n a
      simp only [Nat.add_zero, List.getD_cons_zero]
      rw [State.readHalf_writeEntries_outside _ _ _ _ (by omega),
        State.readHalf_writeEntries_outside _ _ _ _ (by omega),
        State.readHalf_writeEntries_outside _ _ _ _ (by omega),
        State.readHalf_writeEntries_outside _ _ _ _ (by omega)]
      exact this
    | succ i =>
      have := ih (s.writeEntry n a) (n + 1) i (by simpa using h)
      have e : n + 1 + i = n + (i + 1) := by omega
      rw [e] at this
      simpa using this

theorem State.writeEntry_wf {s : State} (h : s.Canonical) (n : Nat) (a : SlotAlloc)
    (hn : 8 * (n + 1) ≤ s.cfg.pmaSize) : (s.writeEntry n a).Canonical := by
  have hb : bdtBase.toNat = 0 := rfl
  unfold State.writeEntry
  refine State.writeHalf_wf (State.writeHalf_wf (State.writeHalf_wf (State.writeHalf_wf h _ _ ?_) _ _ ?_)
    _ _ ?_) _ _ ?_ <;> show _ ≤ s.cfg.pmaSize <;> omega

theorem State.writeEntries_wf {s : State} (h : s.Canonical) (n : Nat) (as : List SlotAlloc)
    (hn : 8 * (n + as.length) ≤ s.cfg.pmaSize) : (s.writeEntries n as).Canonical := by
  induction as generalizing s n with
  | nil => exact h
  | cons a l ih =>
    simp only [List.length_cons] at hn
    rw [State.writeEntries]
    exact ih (State.writeEntry_wf h n a (by omega)) _ (show _ ≤ s.cfg.pmaSize by omega)

/-- BM_INIT of an accepted configuration. -/
theorem bmInit_ok {s : State} (h : Accepted s.cfg) :
    bmInit s = .ok (s.writeEntries 0 (allocation s.cfg).entries) := by
  have := (accepted_iff _).1 h
  have : allocateErrors s.cfg = [] := by simp [allocateErrors, this]
  simp [bmInit, bmAllocate, this]

/-- What the table holds after BM_INIT. -/
theorem writtenTable (s : State) (n : Nat) (h : n ≤ maxSlot s.cfg) :
    (s.writeEntries 0 (allocation s.cfg).entries).readHalf (8 * n) =
      BitVec.ofNat 16 (slotAlloc s.cfg n).addrTx ∧
    (s.writeEntries 0 (allocation s.cfg).entries).readHalf (8 * n + 2) = 0x0000#16 ∧
    (s.writeEntries 0 (allocation s.cfg).entries).readHalf (8 * n + 4) =
      BitVec.ofNat 16 (slotAlloc s.cfg n).addrRx ∧
    (s.writeEntries 0 (allocation s.cfg).entries).readHalf (8 * n + 6) =
      (slotAlloc s.cfg n).countRxInit := by
  have := s.writeEntries_halves 0 (allocation s.cfg).entries n (by
    rw [allocation_entries_length]; omega)
  simpa [slotAlloc] using this

@[simp] theorem State.writeEntries_cfg (s : State) (n : Nat) (as : List SlotAlloc) :
    (s.writeEntries n as).cfg = s.cfg := by
  have := congrArg State.cfg (s.writeEntries_rest n as); exact this
@[simp] theorem State.writeEntries_params (s : State) (n : Nat) (as : List SlotAlloc) :
    (s.writeEntries n as).params = s.params := by
  have := congrArg State.params (s.writeEntries_rest n as); exact this
@[simp] theorem State.writeEntries_epr (s : State) (n : Nat) (as : List SlotAlloc) :
    (s.writeEntries n as).epr = s.epr := by
  have := congrArg State.epr (s.writeEntries_rest n as); exact this
@[simp] theorem State.writeEntries_eprAt (s : State) (n : Nat) (as : List SlotAlloc) (m : Fin 8) :
    (s.writeEntries n as).eprAt m = s.eprAt m := State.eprAt_congr (by simp) m
@[simp] theorem State.writeEntries_istr (s : State) (n : Nat) (as : List SlotAlloc) :
    (s.writeEntries n as).istr = s.istr := by
  have := congrArg State.istr (s.writeEntries_rest n as); exact this
@[simp] theorem State.writeEntries_daddr (s : State) (n : Nat) (as : List SlotAlloc) :
    (s.writeEntries n as).daddr = s.daddr := by
  have := congrArg State.daddr (s.writeEntries_rest n as); exact this
@[simp] theorem State.writeEntries_btable (s : State) (n : Nat) (as : List SlotAlloc) :
    (s.writeEntries n as).btable = s.btable := by
  have := congrArg State.btable (s.writeEntries_rest n as); exact this
@[simp] theorem State.writeEntries_pending (s : State) (n : Nat) (as : List SlotAlloc) :
    (s.writeEntries n as).pending = s.pending := by
  have := congrArg State.pending (s.writeEntries_rest n as); exact this
@[simp] theorem State.writeEntries_pullup (s : State) (n : Nat) (as : List SlotAlloc) :
    (s.writeEntries n as).pullup = s.pullup := by
  have := congrArg State.pullup (s.writeEntries_rest n as); exact this
@[simp] theorem State.writeEntries_enabled (s : State) (n : Nat) (as : List SlotAlloc) :
    (s.writeEntries n as).enabled = s.enabled := by
  have := congrArg State.enabled (s.writeEntries_rest n as); exact this
@[simp] theorem State.writeEntries_irqEn (s : State) (n : Nat) (as : List SlotAlloc) :
    (s.writeEntries n as).irqEn = s.irqEn := by
  have := congrArg State.irqEn (s.writeEntries_rest n as); exact this
@[simp] theorem State.writeEntries_cntr (s : State) (n : Nat) (as : List SlotAlloc) :
    (s.writeEntries n as).cntr = s.cntr := by
  have := congrArg State.cntr (s.writeEntries_rest n as); exact this
@[simp] theorem State.writeEntries_fault (s : State) (n : Nat) (as : List SlotAlloc) :
    (s.writeEntries n as).fault = s.fault := by
  have := congrArg State.fault (s.writeEntries_rest n as); exact this
@[simp] theorem State.writeEntries_hist (s : State) (n : Nat) (as : List SlotAlloc) :
    (s.writeEntries n as).hist = s.hist := by
  have := congrArg State.hist (s.writeEntries_rest n as); exact this
@[simp] theorem State.writeEntries_inputs (s : State) (n : Nat) (as : List SlotAlloc) :
    (s.writeEntries n as).inputs = s.inputs := by
  have := congrArg State.inputs (s.writeEntries_rest n as); exact this
@[simp] theorem State.writeEntries_padDraws (s : State) (n : Nat) (as : List SlotAlloc) :
    (s.writeEntries n as).padDraws = s.padDraws := by
  have := congrArg State.padDraws (s.writeEntries_rest n as); exact this
@[simp] theorem State.writeEntries_epIdDraws (s : State) (n : Nat) (as : List SlotAlloc) :
    (s.writeEntries n as).epIdDraws = s.epIdDraws := by
  have := congrArg State.epIdDraws (s.writeEntries_rest n as); exact this
@[simp] theorem State.writeEntries_handlerDraws (s : State) (n : Nat) (as : List SlotAlloc) :
    (s.writeEntries n as).handlerDraws = s.handlerDraws := by
  have := congrArg State.handlerDraws (s.writeEntries_rest n as); exact this
@[simp] theorem State.writeEntries_drawCount (s : State) (n : Nat) (as : List SlotAlloc) :
    (s.writeEntries n as).drawCount = s.drawCount := by
  have := congrArg State.drawCount (s.writeEntries_rest n as); exact this
@[simp] theorem State.writeEntries_result (s : State) (n : Nat) (as : List SlotAlloc) :
    (s.writeEntries n as).result = s.result := by
  have := congrArg State.result (s.writeEntries_rest n as); exact this

end Sys2Proof.Machine
end

