-- ==== Sys2Proof/Laws/Ready.lean ====
section
/-! SUPPORT. What the buffer-descriptor table gives a ready block (41_buffer_manager.md R131, R133,
43_control_transfer.md R187): where endpoint 0's buffers and every declared endpoint's buffer lie, and
that no request can overrun them. -/

namespace Sys2Proof.Machine

open Sys2Proof

/-! ### Reading the table -/

theorem toNat_ofNat16 {a : Nat} (h : a < 65536) : (BitVec.ofNat 16 a).toNat = a := by
  rw [BitVec.toNat_ofNat]; omega

theorem Ready.bdt {s : State} (h : Ready s) (n : Nat) : s.bdt n = 8 * n := State.bdt_of_base h.inv.base n

theorem bdtBase_toNat : bdtBase.toNat = 0 := rfl

theorem Ready.addrTx {s : State} (h : Ready s) {n : Nat} (hn : n ≤ maxSlot s.cfg) :
    (s.readHalf (s.bdt n)).toNat = (slotAlloc s.cfg n).addrTx := by
  have := (h.inv.table h.enabled n hn).1
  rw [bdtBase_toNat, Nat.zero_add] at this
  rw [h.bdt, this, toNat_ofNat16 (h.accepted.addr_lt n).1]

theorem Ready.addrRx {s : State} (h : Ready s) {n : Nat} (hn : n ≤ maxSlot s.cfg) :
    (s.readHalf (s.bdt n + 4)).toNat = (slotAlloc s.cfg n).addrRx := by
  have := (h.inv.table h.enabled n hn).2.1
  rw [bdtBase_toNat, Nat.zero_add] at this
  rw [h.bdt, this, toNat_ofNat16 (h.accepted.addr_lt n).2]

/-- The capacity is that of the size field alone (R39). -/
theorem rxCapOf_congr {v w : Half} (h : field v 10 6 = field w 10 6) : rxCapOf v = rxCapOf w := by
  have hb : ∀ i, i < 6 → v.getLsbD (10 + i) = w.getLsbD (10 + i) := by
    intro i hi
    have := congrArg (fun x => x.getLsbD i) h
    simpa [field, BitVec.getLsbD_extractLsb', hi] using this
  have h15 : v.getLsbD 15 = w.getLsbD 15 := hb 5 (by decide)
  have hf : field v 10 5 = field w 10 5 := by
    apply BitVec.eq_of_getLsbD_eq
    intro i hi
    simp only [field, BitVec.getLsbD_extractLsb', hi, decide_true, Bool.true_and]
    exact hb i (by omega)
  unfold rxCapOf
  rw [h15, hf]

theorem Ready.rxCap {s : State} (h : Ready s) {n : Nat} (hn : n ≤ maxSlot s.cfg) :
    rxCapOf (s.readHalf (s.bdt n + 6)) = rxCapOf (slotAlloc s.cfg n).countRxInit := by
  have := (h.inv.table h.enabled n hn).2.2
  rw [bdtBase_toNat, Nat.zero_add] at this
  rw [h.bdt]
  exact rxCapOf_congr this

/-- The table lies in packet memory. -/
theorem Ready.entry {s : State} (h : Ready s) {n k : Nat} (hn : n ≤ maxSlot s.cfg) (hk : k ≤ 6)
    (he : k % 2 = 0) : s.accessOk (s.bdt n + k) 2 = true := by
  have := h.accepted.ep0_buffers
  rw [h.bdt]
  exact State.accessOk_of (by omega) (by omega)

theorem Ready.entry0 {s : State} (h : Ready s) {n : Nat} (hn : n ≤ maxSlot s.cfg) :
    s.accessOk (s.bdt n) 2 = true := h.entry hn (k := 0) (by decide) rfl

/-! ### Endpoint 0 -/

theorem Ready.txAddr0 {s : State} (h : Ready s) : s.txAddr0 = (slotAlloc s.cfg 0).addrTx :=
  h.addrTx (Nat.zero_le _)

theorem Ready.rxAddr0 {s : State} (h : Ready s) : s.rxAddr0 = (slotAlloc s.cfg 0).addrRx :=
  h.addrRx (Nat.zero_le _)

/-- A response that fits endpoint 0's transmit buffer can be staged. -/
theorem Ready.ep0Tx {s : State} (h : Ready s) {k : Nat} (hk : k ≤ (slotAlloc s.cfg 0).txCap) :
    Ep0TxReady s k := by
  have h0 := h.accepted.ep0_buffers
  refine ⟨h.entry0 (Nat.zero_le _), ?_, ?_, ?_⟩
  · exact State.accessOk_of (by decide) (by rw [bdtBase_toNat]; omega)
  · rw [h.txAddr0]
    exact State.accessOk_of (by omega) (by omega)
  · rw [h.txAddr0, bdtBase_toNat]
    omega

theorem Ready.ep0Rx {s : State} (h : Ready s) : Ep0RxReady s := by
  have h0 := h.accepted.ep0_buffers
  have h1 := h.accepted.mps0
  refine ⟨h.entry (Nat.zero_le _) (by decide) rfl, ?_⟩
  rw [h.rxAddr0]
  exact State.accessOk_of (by omega) (by omega)

/-! ### The declared endpoints -/

/-- What the footprint of a declared endpoint is. -/
def declaredFootprint (e : Endpoint) (i : Fin 8) (s : State) : Footprint :=
  match e.dir with
  | .dirIn => ⟨i, .dirIn, 8 * e.number.toNat + 2, (slotAlloc s.cfg e.number.toNat).addrTx, bufferSize e,
      s.cfg.pmaSize⟩
  | .dirOut => ⟨i, .dirOut, 8 * e.number.toNat + 6, (slotAlloc s.cfg e.number.toNat).addrRx, bufferSize e,
      s.cfg.pmaSize⟩

theorem Ready.footprint {s : State} (h : Ready s) {e : Endpoint} (he : e ∈ declaredEndpoints s.cfg)
    {i : Fin 8} (hi : i.val = e.number.toNat) :
    footprint i e.dir s = .ok (declaredFootprint e i s) := by
  have hn := number_le_maxSlot he
  unfold Machine.footprint declaredFootprint
  cases hd : e.dir with
  | dirIn =>
    have hb := h.accepted.in_buffer he hd
    simp only [hi]
    rw [addrTx_ok (h.entry0 hn), Flow.andThen_ok, countTx_ok (h.entry hn (by decide) rfl),
      Flow.andThen_ok, h.addrTx hn, h.bdt, hb.1]
    simp only [bufferSize, hd]
  | dirOut =>
    have hb := h.accepted.out_buffer he hd
    simp only [hi]
    rw [addrRx_ok (h.entry hn (by decide) rfl), Flow.andThen_ok,
      rxCap_ok (h.entry hn (by decide) rfl), Flow.andThen_ok, h.addrRx hn, h.rxCap hn, h.bdt, hb.1]
    simp only [bufferSize, hd]

theorem declaredFootprint_fields (e : Endpoint) (i : Fin 8) (s : State) :
    (declaredFootprint e i s).slot = i ∧ (declaredFootprint e i s).dir = e.dir ∧
    (declaredFootprint e i s).countAt = (match e.dir with
      | .dirIn => 8 * e.number.toNat + 2 | .dirOut => 8 * e.number.toNat + 6) ∧
    (declaredFootprint e i s).base = (match e.dir with
      | .dirIn => (slotAlloc s.cfg e.number.toNat).addrTx
      | .dirOut => (slotAlloc s.cfg e.number.toNat).addrRx) ∧
    (declaredFootprint e i s).cap = bufferSize e ∧
    (declaredFootprint e i s).limit = s.cfg.pmaSize := by
  unfold declaredFootprint
  cases e.dir <;> exact ⟨rfl, rfl, rfl, rfl, rfl, rfl⟩

/-- The buffer of a declared endpoint lies after the table and in packet memory. -/
theorem Accepted.buffer {cfg : StaticConfig} (h : Accepted cfg) {e : Endpoint}
    (he : e ∈ declaredEndpoints cfg) :
    (match e.dir with
      | .dirIn => (slotAlloc cfg e.number.toNat).addrTx
      | .dirOut => (slotAlloc cfg e.number.toNat).addrRx) % 2 = 0 ∧
    8 * (maxSlot cfg + 1) ≤ (match e.dir with
      | .dirIn => (slotAlloc cfg e.number.toNat).addrTx
      | .dirOut => (slotAlloc cfg e.number.toNat).addrRx) ∧
    (match e.dir with
      | .dirIn => (slotAlloc cfg e.number.toNat).addrTx
      | .dirOut => (slotAlloc cfg e.number.toNat).addrRx) + bufferSize e ≤ cfg.pmaSize := by
  cases hd : e.dir with
  | dirIn =>
    have := h.in_buffer he hd
    simp only [bufferSize, hd]
    omega
  | dirOut =>
    have := h.out_buffer he hd
    simp only [bufferSize, hd]
    omega

theorem Ready.footprint_separate {s : State} (h : Ready s) {e : Endpoint}
    (he : e ∈ declaredEndpoints s.cfg) (i : Fin 8) :
    (declaredFootprint e i s).Separate ∧ (declaredFootprint e i s).countAt + 2 ≤ (declaredFootprint e i s).limit ∧
    (declaredFootprint e i s).base % 2 = 0 ∧
    8 * (maxSlot s.cfg + 1) ≤ (declaredFootprint e i s).base ∧
    (declaredFootprint e i s).base + bufferSize e ≤ s.cfg.pmaSize := by
  have hf := declaredFootprint_fields e i s
  have hb := h.accepted.buffer he
  rw [← hf.2.2.2.1] at hb
  have hn := number_le_maxSlot he
  have hp := h.accepted.ep0_buffers
  have hc : (declaredFootprint e i s).countAt + 2 ≤ 8 * (maxSlot s.cfg + 1) := by
    rw [hf.2.2.1]
    cases e.dir <;> simp only <;> omega
  refine ⟨?_, by omega, hb.1, hb.2.1, by omega⟩
  intro x hx hr
  rw [Footprint.covers_iff] at hx
  unfold InRange at hr
  omega

/-- A declared endpoint's handler is found. -/
theorem extHandler_declared {s : State} (h : Ready s) {e : Endpoint} (he : e ∈ declaredEndpoints s.cfg) :
    ∃ i : Fin 8, i.val = e.number.toNat ∧
      extHandler e.number e.dir s = extHandlerOn (declaredFootprint e i s) s := by
  have hn := h.accepted.number he
  have hr : registered s.cfg e.number e.dir = true := (registered_iff _ _ _).2 (Or.inr ⟨e, he, rfl, rfl⟩)
  have h0 : e.number ≠ 0#4 := fun h0 => by rw [h0] at hn; simp at hn
  obtain ⟨i, hi, hiv⟩ := slotOfNumber_eq hn.2
  refine ⟨i, hiv, ?_⟩
  unfold extHandler
  rw [if_neg (by simp [h0, hr]), hi]
  simp only
  rw [h.footprint he hiv, Flow.andThen_ok]

end Sys2Proof.Machine
end

