-- ==== Sys2Proof/Laws/Requests.lean ====
section
/-! SUPPORT. What a standard request, the SETUP stage and the endpoint-0 handler do in a ready block
(43_control_transfer.md R173 to R187). -/

namespace Sys2Proof.Machine

open Sys2Proof

/-! ### What keeps the table -/

/-- The addresses and the size fields of the table are as before. -/
structure KeepsTable (s t : State) : Prop where
  cfg : t.cfg = s.cfg
  addr : ∀ x, x < 8 * (maxSlot s.cfg + 1) → x % 4 < 2 → t.readByte x = s.readByte x
  size : ∀ n, n ≤ maxSlot s.cfg →
    field (t.readHalf (8 * n + 6)) 10 6 = field (s.readHalf (8 * n + 6)) 10 6

theorem KeepsTable.trans {s t u : State} (h : KeepsTable s t) (h' : KeepsTable t u) : KeepsTable s u where
  cfg := h'.cfg.trans h.cfg
  addr := fun x hx hm => (h'.addr x (by rw [h.cfg]; exact hx) hm).trans (h.addr x hx hm)
  size := fun n hn => (h'.size n (by rw [h.cfg]; exact hn)).trans (h.size n hn)

theorem KeepsTable.of_bytes {s t : State} (hc : t.cfg = s.cfg)
    (h : ∀ x, x < 8 * (maxSlot s.cfg + 1) → x % 8 ≠ 2 → x % 8 ≠ 3 → t.readByte x = s.readByte x) :
    KeepsTable s t where
  cfg := hc
  addr := fun x hx hm => h x hx (by omega) (by omega)
  size := fun n hn => by
    have : t.readHalf (8 * n + 6) = s.readHalf (8 * n + 6) := by
      unfold State.readHalf
      rw [h _ (by omega) (by omega) (by omega), h _ (by omega) (by omega) (by omega)]
    rw [this]

theorem KeepsTable.of_pma {s t : State} (hc : t.cfg = s.cfg) (h : t.pma = s.pma) : KeepsTable s t :=
  KeepsTable.of_bytes hc fun x _ _ _ => State.readByte_congr h x

theorem TableIntact.keep {s t : State} (h : TableIntact s) (hk : KeepsTable s t) : TableIntact t := by
  intro n hn
  rw [hk.cfg] at hn ⊢
  obtain ⟨h1, h2, h3⟩ := h n hn
  rw [bdtBase_toNat, Nat.zero_add] at h1 h2 h3 ⊢
  refine ⟨?_, ?_, (hk.size n hn).trans h3⟩
  · rw [← h1]
    unfold State.readHalf
    rw [hk.addr _ (by omega) (by omega), hk.addr _ (by omega) (by omega)]
  · rw [← h2]
    unfold State.readHalf
    rw [hk.addr _ (by omega) (by omega), hk.addr _ (by omega) (by omega)]

/-! ### What keeps a block ready -/

/-- What an operation on slot 0 leaves: the other slots, every register but DADDR and `pending`, the
table, and the canonical form. -/
structure Ep0Frame (s t : State) : Prop where
  slots : SlotsSameBut s t 0
  table : KeepsTable s t
  wf : s.Canonical → t.Canonical
  reserved : s.daddr &&& 0xFF00#16 = 0#16 → t.daddr &&& 0xFF00#16 = 0#16
  rest : { t with epr := s.epr, pma := s.pma, daddr := s.daddr, pending := s.pending,
                  padDraws := s.padDraws, drawCount := s.drawCount } = s

theorem Ep0Frame.trans {s t u : State} (h : Ep0Frame s t) (h' : Ep0Frame t u) : Ep0Frame s u where
  slots := fun m hm => (h'.slots m hm).trans (h.slots m hm)
  table := h.table.trans h'.table
  wf := h'.wf ∘ h.wf
  reserved := h'.reserved ∘ h.reserved
  rest := by
    have h1 : _ = s := h.rest
    have h2 : _ = t := h'.rest
    rw [← h2] at h1
    exact h1

theorem Ep0Frame.refl (s : State) : Ep0Frame s s :=
  ⟨fun _ _ => rfl, .of_pma rfl rfl, id, id, rfl⟩

/-- A change of slot 0's register alone. -/
theorem Ep0Frame.ofEpr (s : State) (f : Half → Half) : Ep0Frame s (s.modifyEpr 0 f) where
  slots := fun m hm => by rw [State.eprAt_modifyEpr, if_neg hm]
  table := .of_pma rfl rfl
  wf := id
  reserved := id
  rest := rfl

section fields
variable {s t : State} (h : Ep0Frame s t)
include h
theorem Ep0Frame.cntr : t.cntr = s.cntr := by
  have h := congrArg State.cntr h.rest; exact h
theorem Ep0Frame.istr : t.istr = s.istr := by
  have h := congrArg State.istr h.rest; exact h
theorem Ep0Frame.btable : t.btable = s.btable := by
  have h := congrArg State.btable h.rest; exact h
theorem Ep0Frame.irqEn : t.irqEn = s.irqEn := by
  have h := congrArg State.irqEn h.rest; exact h
theorem Ep0Frame.pullup : t.pullup = s.pullup := by
  have h := congrArg State.pullup h.rest; exact h
theorem Ep0Frame.enabled : t.enabled = s.enabled := by
  have h := congrArg State.enabled h.rest; exact h
theorem Ep0Frame.fault : t.fault = s.fault := by
  have h := congrArg State.fault h.rest; exact h
theorem Ep0Frame.hist : t.hist = s.hist := by
  have h := congrArg State.hist h.rest; exact h
theorem Ep0Frame.cfg : t.cfg = s.cfg := by
  have h := congrArg State.cfg h.rest; exact h
theorem Ep0Frame.params : t.params = s.params := by
  have h := congrArg State.params h.rest; exact h
theorem Ep0Frame.inputs : t.inputs = s.inputs := by
  have h := congrArg State.inputs h.rest; exact h
theorem Ep0Frame.epIdDraws : t.epIdDraws = s.epIdDraws := by
  have h := congrArg State.epIdDraws h.rest; exact h
theorem Ep0Frame.handlerDraws : t.handlerDraws = s.handlerDraws := by
  have h := congrArg State.handlerDraws h.rest; exact h
theorem Ep0Frame.result : t.result = s.result := by
  have h := congrArg State.result h.rest; exact h

theorem Ep0Frame.inv (hi : Inv s) : Inv t where
  memory := h.wf hi.memory
  base := h.btable.trans hi.base
  reserved := ⟨by rw [h.istr]; exact hi.reserved.1, h.reserved hi.reserved.2⟩
  table := fun he => (hi.table (h.enabled ▸ he)).keep h.table
  powered := fun he => by
    have := hi.powered (h.enabled ▸ he)
    refine ⟨h.cntr.trans this.1, h.irqEn.trans this.2.1, ?_⟩
    rw [← this.2.2]
    unfold State.pullupLine
    rw [h.params, h.pullup]
  slots := by
    intro n d hr
    rw [h.cfg] at hr
    have hn : n ≠ 0 := by
      intro h0
      rw [registered_eq_false] at hr
      exact hr.1 (by rw [h0]; rfl)
    rw [h.slots n hn]
    exact hi.slots n d hr
  control := by
    intro n hn
    by_cases h0 : n = 0
    · exact h0
    · rw [h.slots n h0] at hn
      exact hi.control n hn

theorem Ep0Frame.ready (hr : Ready s) : Ready t :=
  ⟨h.cfg ▸ hr.accepted, h.inv hr.inv, h.enabled.trans hr.enabled⟩
end fields

/-! ### The requests -/

/-- The state a request stages its response from: SET_ADDRESS has stored its value (R177). -/
def requestBase (r : Request) (p : SetupPacket) (s : State) : State :=
  match r with
  | .setAddress => { s with pending := p.wValue }
  | _ => s

/-- Every request is its response, staged, or a stall (R176 to R184). -/
theorem runRequest_eq (r : Request) (p : SetupPacket) (s : State) :
    runRequest r p s =
      match response s.cfg (requestInstr r p) with
      | some b => Flow.andThen (send b p.wLength (requestBase r p s)) fun u =>
          .ok (if r = .setConfiguration ∧ u.params.setConfigFallthrough = true then u.stallTx else u)
      | none => .ok s.stallTx := by
  have hid : ∀ x : Flow State, x = Flow.andThen x fun u => .ok u := by
    intro x; cases x <;> rfl
  cases r with
  | getDescriptorConfiguration =>
    simp only [runRequest, getDescriptorConfiguration, response, requestInstr, requestBase]
    cases s.cfg.configs[p.descIndex.toNat]? with
    | none => rfl
    | some c => simpa using hid _
  | getDescriptorReport =>
    simp only [runRequest, getDescriptorReport, response, requestInstr, requestBase]
    cases reportSource s.cfg with
    | none => rfl
    | some c => simpa using hid _
  | getStatus =>
    simp only [runRequest, getStatus, response, requestInstr, requestBase]; simpa using hid _
  | setAddress =>
    simp only [runRequest, setAddress, response, requestInstr, requestBase]; simpa using hid _
  | getDescriptorDevice =>
    simp only [runRequest, getDescriptorDevice, response, requestInstr, requestBase]; simpa using hid _
  | getDescriptorOther => rfl
  | setConfiguration =>
    simp only [runRequest, setConfiguration, response, requestInstr, requestBase]; simp
  | otherRequest => rfl

/-- An operation of a request runs the request. -/
theorem exec_requestInstr (r : Request) (p : SetupPacket) (s : State) :
    exec (requestInstr r p) s = (runRequest r p s).outcome := by
  cases r <;> rfl

theorem composeConfig_length (c : Configuration) : (composeConfig c).length = configTotal c := by
  simp [composeConfig, headerRecord, configTotal, le16]; omega

/-- Every response fits endpoint 0's transmit buffer (R187). -/
theorem Accepted.response_fits {cfg : StaticConfig} (h : Accepted cfg) {i : Instr} {b : List Byte}
    (hb : response cfg i = some b) : b.length ≤ (slotAlloc cfg 0).txCap := by
  have h0 := h.ep0_buffers
  have h1 := h.mps0
  rw [h0.1]
  cases i <;> simp only [response, Option.some.injEq, reduceCtorEq] at hb
  case getStatus => subst hb; simp; omega
  case setAddress => subst hb; simp
  case getDescriptorDevice => subst hb; simp [deviceDescriptor, le16]; omega
  case getDescriptorConfiguration t d x l =>
    cases hc : cfg.configs[d.toNat]? with
    | none => simp [hc] at hb
    | some c =>
      simp only [hc, Option.map_some, Option.some.injEq] at hb
      subst hb
      rw [composeConfig_length]
      exact h.total (List.mem_of_getElem? hc)
  case getDescriptorReport => exact h.blob hb
  case setConfiguration => subst hb; simp

theorem requestBase_frame (r : Request) (p : SetupPacket) (s : State) : Ep0Frame s (requestBase r p s) := by
  cases r <;> exact ⟨fun _ _ => rfl, .of_pma rfl rfl, id, id, rfl⟩

theorem requestBase_eprAt (r : Request) (p : SetupPacket) (s : State) (n : Fin 8) :
    (requestBase r p s).eprAt n = s.eprAt n := by cases r <;> rfl

theorem requestBase_pma (r : Request) (p : SetupPacket) (s : State) : (requestBase r p s).pma = s.pma := by
  cases r <;> rfl

/-- The state after a request of a ready block. -/
def State.afterRequest (s : State) (r : Request) (p : SetupPacket) : State :=
  match response s.cfg (requestInstr r p) with
  | some b =>
    if r = .setConfiguration ∧ s.params.setConfigFallthrough = true then
      ((requestBase r p s).stage b p.wLength).stallTx
    else (requestBase r p s).stage b p.wLength
  | none => s.stallTx

/-- A request of a ready block completes. -/
theorem Ready.runRequest {s : State} (h : Ready s) (r : Request) (p : SetupPacket) :
    runRequest r p s = .ok (s.afterRequest r p) := by
  rw [runRequest_eq]
  unfold State.afterRequest
  cases hb : response s.cfg (requestInstr r p) with
  | none => rfl
  | some b =>
    have hf := requestBase_frame r p s
    have hr := hf.ready h
    have hl : stagedLength b p.wLength ≤ (slotAlloc (requestBase r p s).cfg 0).txCap := by
      rw [hf.cfg]
      exact Nat.le_trans (stagedLength_le _ _) (h.accepted.response_fits hb)
    simp only
    rw [(send_spec (hr.ep0Tx hl)).1, Flow.andThen_ok, State.stage_params, hf.params]

/-- Staging a response that fits keeps a ready block ready. -/
theorem State.stage_frame {s : State} (h : Ready s) {b : List Byte} (l : Half)
    (hb : b.length ≤ (slotAlloc s.cfg 0).txCap) : Ep0Frame s (s.stage b l) := by
  have hl : stagedLength b l ≤ (slotAlloc s.cfg 0).txCap := Nat.le_trans (stagedLength_le _ _) hb
  have ht := h.ep0Tx hl
  have h0 := h.accepted.ep0_buffers
  have hs := s.stage_spec b l ht.apart
  refine ⟨hs.slots, ?_, ?_, by simp, ?_⟩
  · refine KeepsTable.of_bytes (by simp) ?_
    intro x hx h2 h3
    refine hs.memory x ?_ ?_
    · rw [h.txAddr0, h0.2.2.1]
      unfold InRange
      omega
    · rw [bdtBase_toNat]
      unfold InRange
      omega
  · intro hw
    refine State.writeHalf_wf (State.writeBuffer_wf hw _ _ ?_) _ _ ?_
    · rw [take_stagedLength]
      exact ht.buffer
    · simpa using (State.accessOk_bound ht.count (by decide)).2
  · apply State.ext_of <;> simp [State.stage]

/-- What a request of a ready block leaves: STAT_TX of slot 0 is VALID or STALL and the rest of it as
before, and of packet memory only endpoint 0's transmit buffer and COUNT_TX(0) may differ. -/
theorem State.afterRequest_done {s : State} (h : Ready s) (r : Request) (p : SetupPacket) :
    Ep0Frame s (s.afterRequest r p) ∧ (s.afterRequest r p).daddr = s.daddr ∧
    (∃ st, (st = Stat.valid ∨ st = Stat.stall) ∧
      (s.afterRequest r p).eprAt 0 = Epr.withStatTx (s.eprAt 0) st) ∧
    BytesSameOutside s (s.afterRequest r p) (slotAlloc s.cfg 0).addrTx (slotAlloc s.cfg 0).txCap
      (bdtBase.toNat + 2) 2 := by
  unfold State.afterRequest
  cases hb : response s.cfg (requestInstr r p) with
  | none =>
    refine ⟨.ofEpr s _, rfl, ⟨.stall, Or.inr rfl, s.stallTx_spec.1⟩, fun _ _ _ => rfl⟩
  | some b =>
    have hfit := h.accepted.response_fits hb
    have hf := requestBase_frame r p s
    have hr := hf.ready h
    have hd : (requestBase r p s).daddr = s.daddr := by cases r <;> rfl
    have hst := State.stage_frame hr p.wLength (by rw [hf.cfg]; exact hfit)
    have hl : stagedLength b p.wLength ≤ (slotAlloc s.cfg 0).txCap :=
      Nat.le_trans (stagedLength_le _ _) hfit
    have hs := (requestBase r p s).stage_spec b p.wLength
      (hr.ep0Tx (k := stagedLength b p.wLength) (by rw [hf.cfg]; exact hl)).apart
    have h0 := h.accepted.ep0_buffers
    have h1 := h.accepted.mps0
    have hbytes : BytesSameOutside s ((requestBase r p s).stage b p.wLength) (slotAlloc s.cfg 0).addrTx
        (slotAlloc s.cfg 0).txCap (bdtBase.toNat + 2) 2 := by
      intro x hx1 hx2
      rw [hs.memory x ?_ hx2]
      · exact State.readByte_congr (requestBase_pma r p s) x
      · rw [hr.txAddr0, hf.cfg]
        unfold InRange at hx1 ⊢
        omega
    have hslot : ((requestBase r p s).stage b p.wLength).eprAt 0 = Epr.withStatTx (s.eprAt 0) .valid := by
      rw [hs.slot, requestBase_eprAt]
    simp only
    split
    · refine ⟨(hf.trans hst).trans (.ofEpr _ _), by simp [State.stallTx, hd], ⟨.stall, Or.inr rfl, ?_⟩,
        fun x h1 h2 => ?_⟩
      · rw [(State.stallTx_spec _).1, hslot]
        simp only [Epr.withStatTx]
        rw [withField_withField_same _ _ _ _ _ (by decide)]
      · exact hbytes x h1 h2
    · exact ⟨hf.trans hst, by simp [hd], ⟨.valid, Or.inl rfl, hslot⟩, hbytes⟩

/-! ### The SETUP stage -/

theorem State.clearCtrRx0_frame (s : State) : Ep0Frame s s.clearCtrRx0 := .ofEpr s _
theorem State.rearmRx_frame (s : State) : Ep0Frame s s.rearmRx := .ofEpr s _
theorem State.clearCtrTx0_frame (s : State) : Ep0Frame s s.clearCtrTx0 := .ofEpr s _

/-- The packet in endpoint 0's receive buffer. -/
def State.packet (s : State) : List Byte := s.readBytes s.rxAddr0 8

@[simp] theorem State.packet_length (s : State) : s.packet.length = 8 := by simp [State.packet]

/-- The state after the SETUP stage of a ready block. -/
def State.afterSetup (s : State) : State :=
  (s.clearCtrRx0.afterRequest (decodeRequest (setupKey s.packet)) (setupPacketOf s.packet)).rearmRx

theorem setupStage_eq {s : State} (h : Ep0RxReady s) :
    setupStage s = Flow.andThen (runRequest (decodeRequest (setupKey s.packet)) (setupPacketOf s.packet)
      s.clearCtrRx0) fun s1 => .ok s1.rearmRx := by
  unfold setupStage
  rw [addrRx_ok h.entry, Flow.andThen_ok]
  exact (congrArg (fun x => Flow.andThen x _) (memRead_ok h.buffer)).trans rfl

theorem Ready.setupStage {s : State} (h : Ready s) : setupStage s = .ok s.afterSetup := by
  rw [setupStage_eq h.ep0Rx, (s.clearCtrRx0_frame.ready h).runRequest, Flow.andThen_ok]
  rfl

/-- What the SETUP stage of a ready block leaves. -/
theorem State.afterSetup_done {s : State} (h : Ready s) :
    Ep0Frame s s.afterSetup ∧ s.afterSetup.daddr = s.daddr ∧
    (∃ st, (st = Stat.valid ∨ st = Stat.stall) ∧
      s.afterSetup.eprAt 0 =
        Epr.withStatRx (Epr.withStatTx (Epr.withCtrRx (s.eprAt 0) false) st) .valid) ∧
    BytesSameOutside s s.afterSetup (slotAlloc s.cfg 0).addrTx (slotAlloc s.cfg 0).txCap
      (bdtBase.toNat + 2) 2 := by
  have h1 := State.afterRequest_done (s.clearCtrRx0_frame.ready h)
    (decodeRequest (setupKey s.packet)) (setupPacketOf s.packet)
  obtain ⟨hf, hd, ⟨st, hst, he⟩, hb⟩ := h1
  refine ⟨(s.clearCtrRx0_frame.trans hf).trans (State.rearmRx_frame _), hd, ⟨st, hst, ?_⟩, hb⟩
  unfold State.afterSetup State.rearmRx
  rw [State.eprAt_modifyEpr_same, he]
  simp [State.clearCtrRx0]

/-! ### The other stages -/

theorem Daddr.enabledAt_reserved (a : BitVec 7) : Daddr.enabledAt a &&& 0xFF00#16 = 0#16 := by
  revert a; decide

theorem State.commitAddress_frame (s : State) : Ep0Frame s s.commitAddress := by
  unfold State.commitAddress
  split
  · exact .refl s
  · exact ⟨fun _ _ => rfl, .of_pma rfl rfl, id, fun _ => Daddr.enabledAt_reserved _, rfl⟩

theorem txStage_frame (s : State) : Ep0Frame s (txStage s) :=
  (s.clearCtrTx0_frame.trans (State.commitAddress_frame _)).trans (State.rearmRx_frame _)

theorem outStage_frame (s : State) : Ep0Frame s (outStage s) :=
  s.clearCtrRx0_frame.trans (State.rearmRx_frame _)

theorem txStage_eprAt (s : State) :
    (txStage s).eprAt 0 = Epr.withStatRx (Epr.withCtrTx (s.eprAt 0) false) .valid := by
  simp [txStage, State.rearmRx, State.clearCtrTx0]

theorem outStage_eprAt (s : State) :
    (outStage s).eprAt 0 = Epr.withStatRx (Epr.withCtrRx (s.eprAt 0) false) .valid := by
  simp [outStage, State.rearmRx, State.clearCtrRx0]

theorem txStage_pma (s : State) : (txStage s).pma = s.pma := by simp [txStage]

/-- The receive side of the handler of a ready block. -/
def State.afterReceive (s : State) : State :=
  if Epr.ctrRx (s.eprAt 0) = true then
    if Epr.setupFlag (s.eprAt 0) = true then s.afterSetup else outStage s
  else s

theorem Ready.ep0Receive {s : State} (h : Ready s) : ep0Receive s = .ok s.afterReceive := by
  unfold Machine.ep0Receive State.afterReceive
  split
  · split
    · exact h.setupStage
    · rfl
  · rfl

/-- The state after the endpoint-0 handler of a ready block. -/
def State.afterEp0 (s : State) : State :=
  if Epr.ctrTx (s.afterReceive.eprAt 0) = true then txStage s.afterReceive else s.afterReceive

theorem Ready.ep0Handler {s : State} (h : Ready s) : ep0Handler s = .ok s.afterEp0 := by
  unfold Machine.ep0Handler State.afterEp0
  rw [h.ep0Receive, Flow.andThen_ok]

theorem State.afterReceive_done {s : State} (h : Ready s) :
    Ep0Frame s s.afterReceive ∧ s.afterReceive.daddr = s.daddr ∧
    Epr.ctrRx (s.afterReceive.eprAt 0) = false ∧
    Epr.ctrTx (s.afterReceive.eprAt 0) = Epr.ctrTx (s.eprAt 0) ∧
    Epr.setupFlag (s.afterReceive.eprAt 0) = Epr.setupFlag (s.eprAt 0) ∧
    Epr.ea (s.afterReceive.eprAt 0) = Epr.ea (s.eprAt 0) ∧
    Epr.epType (s.afterReceive.eprAt 0) = Epr.epType (s.eprAt 0) ∧
    (Epr.ctrRx (s.eprAt 0) = true → Epr.statRx (s.afterReceive.eprAt 0) = .valid) ∧
    BytesSameOutside s s.afterReceive (slotAlloc s.cfg 0).addrTx (slotAlloc s.cfg 0).txCap
      (bdtBase.toNat + 2) 2 := by
  unfold State.afterReceive
  split
  · split
    · obtain ⟨hf, hd, ⟨st, hst, he⟩, hb⟩ := State.afterSetup_done h
      refine ⟨hf, hd, ?_, ?_, ?_, ?_, ?_, ?_, hb⟩ <;> simp [he]
    · have he := outStage_eprAt s
      refine ⟨outStage_frame s, rfl, ?_, ?_, ?_, ?_, ?_, ?_, fun _ _ _ => rfl⟩ <;> simp [he]
  · next hc =>
    refine ⟨.refl s, rfl, by simpa using hc, rfl, rfl, rfl, rfl, fun hx => absurd hx hc, fun _ _ _ => rfl⟩

/-- What the endpoint-0 handler of a ready block leaves. -/
theorem State.afterEp0_done {s : State} (h : Ready s) :
    Ep0Frame s s.afterEp0 ∧
    Epr.ctrRx (s.afterEp0.eprAt 0) = false ∧ Epr.ctrTx (s.afterEp0.eprAt 0) = false ∧
    Epr.setupFlag (s.afterEp0.eprAt 0) = Epr.setupFlag (s.eprAt 0) ∧
    Epr.ea (s.afterEp0.eprAt 0) = Epr.ea (s.eprAt 0) ∧
    Epr.epType (s.afterEp0.eprAt 0) = Epr.epType (s.eprAt 0) ∧
    (Epr.ctrRx (s.eprAt 0) = true ∨ Epr.ctrTx (s.eprAt 0) = true →
      Epr.statRx (s.afterEp0.eprAt 0) = .valid) ∧
    BytesSameOutside s s.afterEp0 (slotAlloc s.cfg 0).addrTx (slotAlloc s.cfg 0).txCap
      (bdtBase.toNat + 2) 2 := by
  obtain ⟨hf, _, h1, h2, h3, h4, h5, h6, hb⟩ := State.afterReceive_done h
  unfold State.afterEp0
  split
  · have he := txStage_eprAt s.afterReceive
    refine ⟨hf.trans (txStage_frame _), ?_, ?_, ?_, ?_, ?_, ?_, ?_⟩
    iterate 6 (simp [he, h1, h3, h4, h5])
    intro x hx1 hx2
    rw [State.readByte_congr (txStage_pma _)]
    exact hb x hx1 hx2
  · next hc =>
    have hc' : Epr.ctrTx (s.afterReceive.eprAt 0) = false := by simpa using hc
    refine ⟨hf, h1, hc', h3, h4, h5, ?_, hb⟩
    rintro (hx | hx)
    · exact h6 hx
    · rw [h2, hx] at hc'; exact absurd hc' (by decide)

end Sys2Proof.Machine
end

