-- ==== Sys2Proof/Laws/Frames.lean ====
section
/-! SUPPORT. What every operation leaves alone, in any state: one lemma for each operation, and the
composition of them (60_exceptions.md R293). -/

namespace Sys2Proof.Machine

open Sys2Proof

/-! ### How an operation ends -/

/-- However the operation ends, its state is related to the one it began in; where it was left by a
fault, a fault is recorded. -/
structure Flow.Leaves (R : State → State → Prop) (s : State) (x : Flow State) : Prop where
  ok : ∀ t, x = .ok t → R s t
  raised : ∀ t, x = .error (.raised t) → R s t ∧ t.fault ≠ none

theorem Flow.Leaves.of_ok {R : State → State → Prop} {s t : State} (h : R s t) :
    Flow.Leaves R s (.ok t) where
  ok := fun u hu => by injection hu with hu; rwa [← hu]
  raised := fun u hu => by simp at hu

theorem Flow.Leaves.of_raise {R : State → State → Prop} {s : State} {f : Fault}
    (h : R s (s.recordFault f)) : Flow.Leaves R s (raise f s) where
  ok := fun u hu => by simp at hu
  raised := fun u hu => by
    simp only [raise_eq, Except.error.injEq, Stop.raised.injEq] at hu
    subst hu
    exact ⟨h, State.recordFault_ne_none _ _⟩

theorem Flow.Leaves.of_refuse {R : State → State → Prop} {s : State} (cs : List ConfigError) :
    Flow.Leaves R s (refuseConfig cs) where
  ok := fun u hu => by simp [refuseConfig] at hu
  raised := fun u hu => by simp [refuseConfig] at hu

theorem Flow.Leaves.andThen {R : State → State → Prop} (htr : ∀ {a b c}, R a b → R b c → R a c)
    {s : State} {x : Flow State} {f : State → Flow State} (h : Flow.Leaves R s x)
    (hf : ∀ u, x = .ok u → Flow.Leaves R u (f u)) : Flow.Leaves R s (Flow.andThen x f) := by
  cases x with
  | ok u =>
    have hu := h.ok u rfl
    have := hf u rfl
    exact ⟨fun t ht => htr hu (this.ok t ht), fun t ht => ⟨htr hu (this.raised t ht).1, (this.raised t ht).2⟩⟩
  | error e => exact ⟨fun t ht => by simp at ht, fun t ht => h.raised t ht⟩

/-- The same, after an operand is read. -/
theorem Flow.Leaves.operand {α : Type} {R : State → State → Prop} {s : State} {x : Flow α}
    {f : α → Flow State} {op : Operation}
    (hx : (∃ a, x = .ok a) ∨ x = raise (.unmodelled op) s)
    (h : R s (s.recordFault (.unmodelled op))) (hf : ∀ a, x = .ok a → Flow.Leaves R s (f a)) :
    Flow.Leaves R s (Flow.andThen x f) := by
  rcases hx with ⟨a, ha⟩ | ha
  · rw [ha, Flow.andThen_ok]; exact hf a ha
  · rw [ha]
    have := Flow.Leaves.of_raise h
    exact ⟨fun t ht => by simp at ht, fun t ht => this.raised t ht⟩

theorem Flow.Leaves.outcome {R : State → State → Prop} {s t : State} {x : Flow State}
    (h : Flow.Leaves R s x) (ht : x.outcome = .next t) : R s t := by
  rw [Flow.outcome_eq_next] at ht
  rcases ht with ht | ht
  · exact h.ok t ht
  · exact (h.raised t ht).1

/-- An outcome without a fault is the end of the operation. -/
theorem Flow.Leaves.outcome_ok {R : State → State → Prop} {s t : State} {x : Flow State}
    (h : Flow.Leaves R s x) (ht : x.outcome = .next t) (hf : t.fault = none) : x = .ok t := by
  rw [Flow.outcome_eq_next] at ht
  rcases ht with ht | ht
  · exact ht
  · exact absurd hf (h.raised t ht).2

/-! ### The accesses to packet memory -/

theorem memRead_cases (op : Operation) (a n : Nat) (s : State) :
    (∃ bs, memRead op a n s = .ok bs) ∨ memRead op a n s = raise (.unmodelled op) s := by
  unfold memRead; split
  · exact Or.inl ⟨_, rfl⟩
  · exact Or.inr rfl

theorem memRead16_cases (op : Operation) (a : Nat) (s : State) :
    (∃ v, memRead16 op a s = .ok v) ∨ memRead16 op a s = raise (.unmodelled op) s := by
  unfold memRead16; split
  · exact Or.inl ⟨_, rfl⟩
  · exact Or.inr rfl

theorem Flow.andThen_ok_cases {α β : Type} {x : Flow α} {g : α → β} {op : Operation} {s : State}
    (h : (∃ v, x = .ok v) ∨ x = raise (.unmodelled op) s) :
    (∃ b, Flow.andThen x (fun v => Except.ok (g v)) = .ok b) ∨
      Flow.andThen x (fun v => Except.ok (g v)) = raise (.unmodelled op) s := by
  rcases h with ⟨v, hv⟩ | hv
  · rw [hv]; exact Or.inl ⟨_, rfl⟩
  · rw [hv]; exact Or.inr rfl

theorem addrTx_cases (op : Operation) (n : Nat) (s : State) :
    (∃ v, addrTx op n s = .ok v) ∨ addrTx op n s = raise (.unmodelled op) s :=
  Flow.andThen_ok_cases (memRead16_cases op _ s)
theorem countTx_cases (op : Operation) (n : Nat) (s : State) :
    (∃ v, countTx op n s = .ok v) ∨ countTx op n s = raise (.unmodelled op) s :=
  Flow.andThen_ok_cases (memRead16_cases op _ s)
theorem addrRx_cases (op : Operation) (n : Nat) (s : State) :
    (∃ v, addrRx op n s = .ok v) ∨ addrRx op n s = raise (.unmodelled op) s :=
  Flow.andThen_ok_cases (memRead16_cases op _ s)
theorem rxCap_cases (op : Operation) (n : Nat) (s : State) :
    (∃ v, rxCap op n s = .ok v) ∨ rxCap op n s = raise (.unmodelled op) s :=
  Flow.andThen_ok_cases (memRead16_cases op _ s)

theorem memWrite_leaves {R : State → State → Prop} {op : Operation} {a : Nat} {bs : List Byte} {s : State}
    (h : R s (s.writeBuffer a bs)) (h' : R s (s.recordFault (.unmodelled op))) :
    Flow.Leaves R s (memWrite op a bs s) := by
  unfold memWrite; split
  · exact .of_ok h
  · exact .of_raise h'

theorem memWrite16_leaves {R : State → State → Prop} {op : Operation} {a : Nat} {v : Half} {s : State}
    (h : R s (s.writeHalf a v)) (h' : R s (s.recordFault (.unmodelled op))) :
    Flow.Leaves R s (memWrite16 op a v s) := by
  unfold memWrite16; split
  · exact .of_ok h
  · exact .of_raise h'

theorem setCountRx_leaves {R : State → State → Prop} {op : Operation} {n : Nat} {k : BitVec 10} {s : State}
    (h : ∀ v, R s (s.writeHalf (s.bdt n + 6) v)) (h' : R s (s.recordFault (.unmodelled op))) :
    Flow.Leaves R s (setCountRx op n k s) := by
  unfold setCountRx
  exact Flow.Leaves.operand (memRead16_cases op _ s) h' fun v _ => memWrite16_leaves (h _) h'

/-! ### The fault register and the flags that are never cleared -/

/-- What every operation of the block leaves: the configuration, the history, the schedule, the flags
that are never cleared, a recorded fault. -/
structure BlockFrame (s t : State) : Prop where
  cfg : t.cfg = s.cfg
  params : t.params = s.params
  hist : t.hist = s.hist
  inputs : t.inputs = s.inputs
  enabled : s.enabled = true → t.enabled = true
  irqEn : s.irqEn = true → t.irqEn = true
  pullup : s.pullup = true → t.pullup = true
  fault : ∀ f, s.fault = some f → t.fault = some f

theorem BlockFrame.refl (s : State) : BlockFrame s s := ⟨rfl, rfl, rfl, rfl, id, id, id, fun _ => id⟩

theorem BlockFrame.trans {s t u : State} (h : BlockFrame s t) (h' : BlockFrame t u) : BlockFrame s u :=
  ⟨h'.cfg.trans h.cfg, h'.params.trans h.params, h'.hist.trans h.hist, h'.inputs.trans h.inputs,
   h'.enabled ∘ h.enabled, h'.irqEn ∘ h.irqEn, h'.pullup ∘ h.pullup, fun f hf => h'.fault f (h.fault f hf)⟩

/-- An operation that changes none of them. -/
theorem BlockFrame.of_eq {s t : State} (h1 : t.cfg = s.cfg) (h2 : t.params = s.params)
    (h3 : t.hist = s.hist) (h4 : t.inputs = s.inputs) (h5 : t.enabled = s.enabled)
    (h6 : t.irqEn = s.irqEn) (h7 : t.pullup = s.pullup) (h8 : t.fault = s.fault) : BlockFrame s t :=
  ⟨h1, h2, h3, h4, fun h => h5.trans h, fun h => h6.trans h, fun h => h7.trans h, fun _ h => h8.trans h⟩

theorem BlockFrame.recordFault (f : Fault) (s : State) : BlockFrame s (s.recordFault f) := by
  refine ⟨by simp, by simp, by simp, by simp, by simp, by simp, by simp, ?_⟩
  intro g hg
  simp [State.recordFault, hg]

theorem BlockFrame.ofEpr0 {s t : State} (h : Ep0Frame s t) : BlockFrame s t :=
  .of_eq h.cfg h.params h.hist h.inputs h.enabled h.irqEn h.pullup h.fault

theorem send_leaves (b : List Byte) (l : Half) (s : State) : Flow.Leaves BlockFrame s (send b l s) := by
  unfold send
  refine Flow.Leaves.operand (addrTx_cases _ _ s) (.recordFault _ s) fun a _ => ?_
  refine Flow.Leaves.andThen (R := BlockFrame) BlockFrame.trans (memWrite_leaves (.of_eq ?_ ?_ ?_ ?_ ?_ ?_ ?_ ?_)
    (.recordFault _ s)) fun u _ => ?_
  iterate 8 simp
  refine Flow.Leaves.andThen (R := BlockFrame) BlockFrame.trans (memWrite16_leaves (.of_eq ?_ ?_ ?_ ?_ ?_ ?_ ?_ ?_)
    (.recordFault _ u)) fun v _ => ?_
  iterate 8 simp
  exact .of_ok (.of_eq rfl rfl rfl rfl rfl rfl rfl rfl)

theorem runRequest_leaves (r : Request) (p : SetupPacket) (s : State) :
    Flow.Leaves BlockFrame s (runRequest r p s) := by
  rw [runRequest_eq]
  split
  · next b _ =>
    have hb : BlockFrame s (requestBase r p s) := .ofEpr0 (requestBase_frame r p s)
    have h1 : Flow.Leaves BlockFrame s (send b p.wLength (requestBase r p s)) := by
      have := send_leaves b p.wLength (requestBase r p s)
      exact ⟨fun t ht => hb.trans (this.ok t ht),
        fun t ht => ⟨hb.trans (this.raised t ht).1, (this.raised t ht).2⟩⟩
    refine Flow.Leaves.andThen (R := BlockFrame) BlockFrame.trans h1 fun u _ => .of_ok ?_
    split
    · exact .of_eq rfl rfl rfl rfl rfl rfl rfl rfl
    · exact .refl u
  · exact .of_ok (.of_eq rfl rfl rfl rfl rfl rfl rfl rfl)

theorem setupStage_leaves (s : State) : Flow.Leaves BlockFrame s (setupStage s) := by
  unfold setupStage
  refine Flow.Leaves.operand (addrRx_cases _ _ s) (.recordFault _ s) fun a _ => ?_
  refine Flow.Leaves.operand (memRead_cases _ _ _ s) (.recordFault _ s) fun p _ => ?_
  have hc : BlockFrame s s.clearCtrRx0 := .ofEpr0 s.clearCtrRx0_frame
  have h1 := runRequest_leaves (decodeRequest (setupKey p)) (setupPacketOf p) s.clearCtrRx0
  have h2 : Flow.Leaves BlockFrame s
      (runRequest (decodeRequest (setupKey p)) (setupPacketOf p) s.clearCtrRx0) :=
    ⟨fun t ht => hc.trans (h1.ok t ht), fun t ht => ⟨hc.trans (h1.raised t ht).1, (h1.raised t ht).2⟩⟩
  exact Flow.Leaves.andThen (R := BlockFrame) BlockFrame.trans h2 fun u _ => .of_ok (.ofEpr0 u.rearmRx_frame)

theorem ep0Receive_leaves (s : State) : Flow.Leaves BlockFrame s (ep0Receive s) := by
  unfold ep0Receive
  split
  · split
    · exact setupStage_leaves s
    · exact .of_ok (.ofEpr0 (outStage_frame s))
  · exact .of_ok (.refl s)

theorem ep0Handler_leaves (s : State) : Flow.Leaves BlockFrame s (ep0Handler s) := by
  unfold ep0Handler
  refine Flow.Leaves.andThen (R := BlockFrame) BlockFrame.trans (ep0Receive_leaves s) fun u _ => .of_ok ?_
  split
  · exact .ofEpr0 (txStage_frame u)
  · exact .refl u

theorem handlerWrite_blockFrame (fp : Footprint) (w : HandlerWrite) (s : State) :
    BlockFrame s (handlerWrite fp w s) := by
  cases w <;> unfold handlerWrite
  case ctr => cases fp.dir <;> exact .of_eq rfl rfl rfl rfl rfl rfl rfl rfl
  case stat => cases fp.dir <;> exact .of_eq rfl rfl rfl rfl rfl rfl rfl rfl
  case count => cases fp.dir <;> exact .of_eq rfl rfl rfl rfl rfl rfl rfl rfl
  case byte => exact .of_eq rfl rfl rfl rfl rfl rfl rfl rfl
  case half => exact .of_eq rfl rfl rfl rfl rfl rfl rfl rfl
  case reg => exact .refl s

theorem handlerWrites_leaves (fp : Footprint) (ws : List HandlerWrite) (s : State) :
    Flow.Leaves BlockFrame s (handlerWrites fp ws s) := by
  induction ws generalizing s with
  | nil => exact .of_ok (.refl s)
  | cons w ws ih =>
    unfold handlerWrites
    split
    · have hb := handlerWrite_blockFrame fp w s
      have := ih (handlerWrite fp w s)
      exact ⟨fun t ht => hb.trans (this.ok t ht),
        fun t ht => ⟨hb.trans (this.raised t ht).1, (this.raised t ht).2⟩⟩
    · exact .of_raise (.recordFault _ s)

theorem admittedWrites_blockFrame (fp : Footprint) (ws : List HandlerWrite) (s : State) :
    BlockFrame s (admittedWrites fp ws s) := by
  induction ws generalizing s with
  | nil => exact .refl s
  | cons w ws ih =>
    unfold admittedWrites
    split
    · exact (handlerWrite_blockFrame fp w s).trans (ih _)
    · exact ih s

theorem extHandlerOn_leaves (fp : Footprint) (s : State) :
    Flow.Leaves BlockFrame s (extHandlerOn fp s) := by
  unfold extHandlerOn
  split
  · next ws rest _ =>
    have hb : BlockFrame s { s with handlerDraws := rest } := .of_eq rfl rfl rfl rfl rfl rfl rfl rfl
    have := handlerWrites_leaves fp ws { s with handlerDraws := rest }
    exact ⟨fun t ht => hb.trans (this.ok t ht),
      fun t ht => ⟨hb.trans (this.raised t ht).1, (this.raised t ht).2⟩⟩
  · have hb : BlockFrame s { s with drawCount := s.drawCount + 1 } :=
      .of_eq rfl rfl rfl rfl rfl rfl rfl rfl
    exact .of_ok (hb.trans (admittedWrites_blockFrame _ _ _))

/-- The footprint is found, or an access to its entry faults. -/
theorem footprint_cases (n : Fin 8) (d : Dir) (s : State) :
    (∃ fp, footprint n d s = .ok fp) ∨ footprint n d s = raise (.unmodelled .extHandler) s := by
  cases d with
  | dirIn =>
    rcases addrTx_cases .extHandler n.val s with ⟨a, ha⟩ | ha
    · rcases countTx_cases .extHandler n.val s with ⟨c, hc⟩ | hc
      · simp only [footprint, ha, hc, Flow.andThen_ok]; exact Or.inl ⟨_, rfl⟩
      · simp only [footprint, ha, hc, Flow.andThen_ok]; exact Or.inr rfl
    · simp only [footprint, ha]; exact Or.inr rfl
  | dirOut =>
    rcases addrRx_cases .extHandler n.val s with ⟨a, ha⟩ | ha
    · rcases rxCap_cases .extHandler n.val s with ⟨c, hc⟩ | hc
      · simp only [footprint, ha, hc, Flow.andThen_ok]; exact Or.inl ⟨_, rfl⟩
      · simp only [footprint, ha, hc, Flow.andThen_ok]; exact Or.inr rfl
    · simp only [footprint, ha]; exact Or.inr rfl

theorem extHandler_leaves (n : BitVec 4) (d : Dir) (s : State) :
    Flow.Leaves BlockFrame s (extHandler n d s) := by
  unfold extHandler
  split
  · exact .of_raise (.recordFault _ s)
  · split
    · exact .of_raise (.recordFault _ s)
    · exact Flow.Leaves.operand (footprint_cases _ _ s) (.recordFault _ s) fun fp _ =>
        extHandlerOn_leaves fp s

theorem dispatchTo_leaves (n : BitVec 4) (b : BitVec 1) (s : State) :
    Flow.Leaves BlockFrame s (dispatchTo n b s) := by
  unfold dispatchTo
  split
  · exact ep0Handler_leaves s
  · split
    · exact .of_raise (.recordFault _ s)
    · split
      · exact .of_raise (.recordFault _ s)
      · exact extHandler_leaves n _ s

theorem State.takeEpId_blockFrame (s : State) : BlockFrame s s.takeEpId := by
  refine .of_eq ?_ ?_ ?_ ?_ ?_ ?_ ?_ ?_ <;> simp

theorem dispatch_leaves (s : State) : Flow.Leaves BlockFrame s (dispatch s) := by
  have hb := s.takeEpId_blockFrame
  have := dispatchTo_leaves s.istrEpId s.istrDir s.takeEpId
  exact ⟨fun t ht => hb.trans (this.ok t ht),
    fun t ht => ⟨hb.trans (this.raised t ht).1, (this.raised t ht).2⟩⟩

theorem State.afterReset_blockFrame (s : State) : BlockFrame s s.afterReset := by
  refine .of_eq ?_ ?_ ?_ ?_ ?_ ?_ ?_ ?_ <;> simp

theorem resetOp_leaves (s : State) : Flow.Leaves BlockFrame s (resetOp s) where
  ok := fun t ht => by
    have := resetOp_next (s := s) (t := t) (by rw [ht]; rfl)
    rw [this.2]
    exact s.afterReset_blockFrame
  raised := fun t ht => by
    have := resetOp_next (s := s) (t := t) (by rw [ht]; rfl)
    rw [resetOp_ok this.1] at ht
    exact absurd ht (by simp)

theorem handlerOp_leaves (s : State) : Flow.Leaves BlockFrame s (handlerOp s) := by
  unfold handlerOp
  refine Flow.Leaves.andThen (R := BlockFrame) BlockFrame.trans (x := handlerReset s) ?_ fun u _ => ?_
  · unfold handlerReset
    split
    · exact resetOp_leaves s
    · exact .of_ok (.refl s)
  · refine Flow.Leaves.andThen (R := BlockFrame) BlockFrame.trans (x := handlerComplete u) ?_ fun v _ => .of_ok (.refl v)
    unfold handlerComplete
    split
    · exact dispatch_leaves u
    · exact .of_ok (.refl u)

theorem enableOp_leaves (s : State) : Flow.Leaves BlockFrame s (enableOp s) := by
  unfold enableOp
  split
  · exact .of_refuse _
  · next h =>
    split
    · exact .of_raise (.recordFault _ s)
    · unfold peripheralClockEnable
      rw [bmInit_ok h, Flow.andThen_ok]
      refine .of_ok ⟨?_, ?_, ?_, ?_, ?_, ?_, ?_, ?_⟩ <;> simp [State.startUp]
      exact Or.inr

/-! ### The bus -/

/-- What every transaction leaves: only the endpoint registers, packet memory, the history and the pad
draws may differ, and a fault may be recorded. -/
structure BusFrame (s t : State) : Prop where
  rest : { t with epr := s.epr, pma := s.pma, hist := s.hist, fault := s.fault,
                  padDraws := s.padDraws, drawCount := s.drawCount } = s
  fault : ∀ f, s.fault = some f → t.fault = some f

theorem BusFrame.refl (s : State) : BusFrame s s := ⟨rfl, fun _ => id⟩

theorem BusFrame.trans {s t u : State} (h : BusFrame s t) (h' : BusFrame t u) : BusFrame s u where
  rest := by
    have h1 : _ = s := h.rest
    have h2 : _ = t := h'.rest
    rw [← h2] at h1
    exact h1
  fault := fun f hf => h'.fault f (h.fault f hf)

theorem BusFrame.recordFault (f : Fault) (s : State) : BusFrame s (s.recordFault f) := by
  refine ⟨by apply State.ext_of <;> simp, ?_⟩
  intro g hg
  simp [State.recordFault, hg]

theorem BusFrame.writeBuffer (s : State) (a : Nat) (bs : List Byte) : BusFrame s (s.writeBuffer a bs) := by
  refine ⟨by apply State.ext_of <;> simp, ?_⟩
  intro g hg
  simpa using hg

end Sys2Proof.Machine
end

