-- ==== Sys2Proof/Laws/Step.lean ====
section
/-! SUPPORT. What one step can be (00_scope.md R14, 45_device_controller.md R247, 46_bus_environment.md
R269), and what each agent's step leaves. -/

namespace Sys2Proof.Machine

open Sys2Proof

/-! ### The bus operations, as flows -/

theorem busSetup_leaves {a : BitVec 7} {ep : BitVec 4} {data : List Byte} {s : State} :
    Flow.Leaves BusFrame s (busSetup a ep data s) := by
  unfold busSetup
  split
  · exact .of_ok ⟨rfl, fun _ => id⟩
  · next n _ =>
    refine Flow.Leaves.operand (addrRx_cases _ _ s) (.recordFault _ s) fun off _ => ?_
    refine Flow.Leaves.andThen (R := BusFrame) BusFrame.trans
      (memWrite_leaves (.writeBuffer s off data) (.recordFault _ s)) fun u _ => ?_
    refine Flow.Leaves.andThen (R := BusFrame) BusFrame.trans
      (setCountRx_leaves (fun _ => ⟨rfl, fun _ => id⟩) (.recordFault _ u)) fun v _ => ?_
    exact .of_ok ⟨rfl, fun _ => id⟩

theorem busOutValid_leaves {a : BitVec 7} {ep : BitVec 4} {data : List Byte} {n : Fin 8} {s : State} :
    Flow.Leaves BusFrame s (busOutValid a ep data n s) := by
  unfold busOutValid
  refine Flow.Leaves.operand (rxCap_cases _ _ s) (.recordFault _ s) fun cap _ => ?_
  split
  · refine Flow.Leaves.operand (addrRx_cases _ _ s) (.recordFault _ s) fun off _ => ?_
    refine Flow.Leaves.andThen (R := BusFrame) BusFrame.trans
      (memWrite_leaves (.writeBuffer s off data) (.recordFault _ s)) fun u _ => ?_
    refine Flow.Leaves.andThen (R := BusFrame) BusFrame.trans
      (setCountRx_leaves (fun _ => ⟨rfl, fun _ => id⟩) (.recordFault _ u)) fun v _ => ?_
    exact .of_ok ⟨rfl, fun _ => id⟩
  · exact .of_ok ⟨rfl, fun _ => id⟩

theorem busOut_leaves {a : BitVec 7} {ep : BitVec 4} {data : List Byte} {s : State} :
    Flow.Leaves BusFrame s (busOut a ep data s) := by
  unfold busOut
  split
  · exact .of_ok ⟨rfl, fun _ => id⟩
  · split
    · exact .of_ok ⟨rfl, fun _ => id⟩
    · exact .of_ok ⟨rfl, fun _ => id⟩
    · exact .of_ok ⟨rfl, fun _ => id⟩
    · exact busOutValid_leaves

theorem busInValid_leaves {a : BitVec 7} {ep : BitVec 4} {n : Fin 8} {s : State} :
    Flow.Leaves BusFrame s (busInValid a ep n s) := by
  unfold busInValid
  refine Flow.Leaves.operand (countTx_cases _ _ s) (.recordFault _ s) fun c _ => ?_
  refine Flow.Leaves.operand (addrTx_cases _ _ s) (.recordFault _ s) fun off _ => ?_
  refine Flow.Leaves.operand (memRead_cases _ _ _ s) (.recordFault _ s) fun bytes _ => ?_
  exact .of_ok ⟨rfl, fun _ => id⟩

theorem busIn_leaves {a : BitVec 7} {ep : BitVec 4} {s : State} :
    Flow.Leaves BusFrame s (busIn a ep s) := by
  unfold busIn
  split
  · exact .of_ok ⟨rfl, fun _ => id⟩
  · split
    · exact .of_ok ⟨rfl, fun _ => id⟩
    · exact .of_ok ⟨rfl, fun _ => id⟩
    · exact .of_ok ⟨rfl, fun _ => id⟩
    · exact busInValid_leaves

/-! ### The history -/

/-- The history is as before or longer by one observation (R270). -/
def HistGrows (s t : State) : Prop := t.hist = s.hist ∨ ∃ o, t.hist = s.hist ++ [o]

theorem hist_of_andThen {α : Type} {x : Flow α} {f : α → Flow State} {P : State → Prop}
    (hx : ∀ t, x = .error (.raised t) → P t) (hf : ∀ a, x = .ok a → ∀ t, (f a).outcome = .next t → P t)
    {t : State} (h : (Flow.andThen x f).outcome = .next t) : P t := by
  cases x with
  | ok a => exact hf a rfl t h
  | error e =>
    cases e with
    | raised u =>
      simp only [Flow.andThen_error, Flow.outcome_raised] at h
      injection h with h
      exact h ▸ hx u rfl
    | refused r => simp [Flow.outcome] at h

/-- A flow that raises, raises in the state it began in. -/
theorem raised_hist {α : Type} {x : Flow α} {op : Operation} {s : State}
    (hx : (∃ a, x = .ok a) ∨ x = raise (.unmodelled op) s) (t : State) (h : x = .error (.raised t)) :
    t.hist = s.hist := by
  rcases hx with ⟨a, ha⟩ | ha
  · rw [ha] at h; simp at h
  · rw [ha] at h
    simp only [raise_eq, Except.error.injEq, Stop.raised.injEq] at h
    rw [← h]; simp

/-- Before its observation a transaction leaves the history. -/
def SameHist (s t : State) : Prop := t.hist = s.hist

theorem memWrite_hist {op : Operation} {a : Nat} {bs : List Byte} {s : State} :
    Flow.Leaves SameHist s (memWrite op a bs s) :=
  memWrite_leaves (by simp [SameHist]) (by simp [SameHist])

theorem setCountRx_hist {op : Operation} {n : Nat} {k : BitVec 10} {s : State} :
    Flow.Leaves SameHist s (setCountRx op n k s) :=
  setCountRx_leaves (fun _ => rfl) (by simp [SameHist])

theorem busSetup_hist {a : BitVec 7} {ep : BitVec 4} {data : List Byte} {s t : State}
    (h : (busSetup a ep data s).outcome = .next t) : HistGrows s t := by
  unfold busSetup at h
  split at h
  · injection h with h; rw [← h]; exact Or.inr ⟨_, rfl⟩
  · refine hist_of_andThen (P := HistGrows s) (fun u hu => Or.inl (raised_hist (addrRx_cases _ _ s) u hu))
      (fun off _ t ht => ?_) h
    refine hist_of_andThen (P := HistGrows s) (fun u hu => Or.inl (memWrite_hist.raised u hu).1)
      (fun u hu t ht => ?_) ht
    have h1 : u.hist = s.hist := memWrite_hist.ok u hu
    refine hist_of_andThen (P := HistGrows s)
      (fun v hv => Or.inl ((setCountRx_hist.raised v hv).1.trans h1)) (fun v hv t ht => ?_) ht
    have h2 : v.hist = u.hist := setCountRx_hist.ok v hv
    injection ht with ht
    rw [← ht]
    exact Or.inr ⟨.setup a ep data .ack, by simp [State.observe, h2, h1]⟩

theorem busOut_hist {a : BitVec 7} {ep : BitVec 4} {data : List Byte} {s t : State}
    (h : (busOut a ep data s).outcome = .next t) : HistGrows s t := by
  unfold busOut at h
  split at h
  · injection h with h; rw [← h]; exact Or.inr ⟨_, rfl⟩
  · split at h
    · injection h with h; rw [← h]; exact Or.inr ⟨_, rfl⟩
    · injection h with h; rw [← h]; exact Or.inr ⟨_, rfl⟩
    · injection h with h; rw [← h]; exact Or.inr ⟨_, rfl⟩
    · unfold busOutValid at h
      refine hist_of_andThen (P := HistGrows s)
        (fun u hu => Or.inl (raised_hist (rxCap_cases _ _ s) u hu)) (fun cap _ t ht => ?_) h
      split at ht
      · refine hist_of_andThen (P := HistGrows s)
          (fun u hu => Or.inl (raised_hist (addrRx_cases _ _ s) u hu)) (fun off _ t ht => ?_) ht
        refine hist_of_andThen (P := HistGrows s) (fun u hu => Or.inl (memWrite_hist.raised u hu).1)
          (fun u hu t ht => ?_) ht
        have h1 : u.hist = s.hist := memWrite_hist.ok u hu
        refine hist_of_andThen (P := HistGrows s)
          (fun v hv => Or.inl ((setCountRx_hist.raised v hv).1.trans h1)) (fun v hv t ht => ?_) ht
        have h2 : v.hist = u.hist := setCountRx_hist.ok v hv
        injection ht with ht
        rw [← ht]
        exact Or.inr ⟨.out a ep data .ack, by simp [State.observe, h2, h1]⟩
      · injection ht with ht; rw [← ht]; exact Or.inr ⟨_, rfl⟩

theorem busIn_hist {a : BitVec 7} {ep : BitVec 4} {s t : State}
    (h : (busIn a ep s).outcome = .next t) : HistGrows s t := by
  unfold busIn at h
  split at h
  · injection h with h; rw [← h]; exact Or.inr ⟨_, rfl⟩
  · split at h
    · injection h with h; rw [← h]; exact Or.inr ⟨_, rfl⟩
    · injection h with h; rw [← h]; exact Or.inr ⟨_, rfl⟩
    · injection h with h; rw [← h]; exact Or.inr ⟨_, rfl⟩
    · unfold busInValid at h
      refine hist_of_andThen (P := HistGrows s)
        (fun u hu => Or.inl (raised_hist (countTx_cases _ _ s) u hu)) (fun c _ t ht => ?_) h
      refine hist_of_andThen (P := HistGrows s)
        (fun u hu => Or.inl (raised_hist (addrTx_cases _ _ s) u hu)) (fun off _ t ht => ?_) ht
      refine hist_of_andThen (P := HistGrows s)
        (fun u hu => Or.inl (raised_hist (memRead_cases _ _ _ s) u hu)) (fun bytes _ t ht => ?_) ht
      injection ht with ht; rw [← ht]; exact Or.inr ⟨_, rfl⟩

/-! ### What one step is -/

theorem decodeBus_instr {bs : List Byte} {i : Instr} (h : decodeBus bs = .ok i) : BusInstr i := by
  rcases decodeBus_cases h with ⟨-, rfl⟩ | ⟨a, ep, d, hl, -, rfl⟩ | ⟨a, ep, d, hl, -, rfl⟩ | ⟨a, ep, -, rfl⟩
  · exact .reset
  · exact .setup a ep d hl
  · exact .out a ep d hl
  · exact .inToken a ep

/-- A step is idle, or one agent's operation, which that agent's rule enables. -/
inductive StepKind (s t : State) : Prop where
  | idle (xs) (h : t = s.withInputs xs)
  | enable (xs) (hf : s.fault = none) (h : exec .enable (s.withInputs xs) = .next t)
  | handler (xs) (he : s.handlerEnabled = true) (h : exec .handler (s.withInputs xs) = .next t)
  | bus (xs i) (ha : s.attached = true) (hi : BusInstr i) (h : exec i (s.withInputs xs) = .next t)

theorem step_cases {s t : State} (h : step s = .next t) : Accepted s.cfg ∧ StepKind s t := by
  unfold step at h
  cases hc : configErrors s.cfg with
  | cons c cs =>
    simp only [State.nextAction, hc] at h
    simp at h
  | nil =>
    refine ⟨hc, ?_⟩
    simp only [State.nextAction, hc] at h
    cases hx : s.inputs with
    | nil =>
      have hs : s = s.withInputs [] := by rw [← hx]; rfl
      simp only [hx, State.unscheduled] at h
      split at h
      · next i u hu =>
        split at hu
        · next he =>
          injection hu with h1 h2
          subst h1; subst h2
          exact .handler [] he (hs ▸ h)
        · simp at hu
      · next u hu =>
        split at hu
        · simp at hu
        · injection hu with h1
          subst h1
          injection h with h
          exact .idle [] (h ▸ hs)
      · simp at h
    | cons x xs =>
      simp only [hx] at h
      by_cases he : s.inputEnabled x = true
      · simp only [he, if_true] at h
        cases hd : decodeInput x with
        | error e => simp [hd] at h
        | ok i =>
          simp only [hd] at h
          cases x with
          | enable =>
            simp only [decodeInput, Except.ok.injEq] at hd
            subst hd
            exact .enable xs (by simpa [State.inputEnabled] using he) h
          | irq =>
            simp only [decodeInput, Except.ok.injEq] at hd
            subst hd
            exact .handler xs he h
          | bus bs => exact .bus xs i he (decodeBus_instr hd) h
      · simp only [he] at h
        simp only [Bool.false_eq_true, if_false] at h
        injection h with h
        exact .idle xs h.symm

/-- From a faulted state a step only uses up an input, or runs a bus operation (60_exceptions.md R293). -/
theorem step_of_fault {s t : State} (hf : s.fault ≠ none) (h : step s = .next t) :
    t = s.withInputs s.inputs.tail ∨ ∃ bs i, s.inputs.head? = some (.bus bs) ∧
      decode (.input (.bus bs)) = .ok i ∧ BusInstr i ∧ exec i (s.withInputs s.inputs.tail) = .next t := by
  have hn : s.fault.isNone = false := by cases hx : s.fault <;> simp_all
  have hh : s.handlerEnabled = false := by simp [State.handlerEnabled, hn]
  unfold step State.nextAction at h
  cases hc : configErrors s.cfg with
  | cons c cs => simp [hc] at h
  | nil =>
    cases hx : s.inputs with
    | nil =>
      simp only [hc, hx, State.unscheduled, hh, Bool.false_eq_true, if_false] at h
      injection h with h
      exact Or.inl (by rw [← h, List.tail_nil, ← hx]; rfl)
    | cons x xs =>
      simp only [hc, hx] at h
      cases x with
      | enable =>
        simp only [State.inputEnabled, hn, Bool.false_eq_true, if_false] at h
        injection h with h
        exact Or.inl h.symm
      | irq =>
        simp only [State.inputEnabled, hh, Bool.false_eq_true, if_false] at h
        injection h with h
        exact Or.inl h.symm
      | bus bs =>
        by_cases he : s.inputEnabled (.bus bs) = true
        · cases hd : decodeInput (.bus bs) with
          | error e => simp [he, hd] at h
          | ok i =>
            simp only [he, if_true, hd] at h
            exact Or.inr ⟨bs, i, rfl, hd, decodeBus_instr hd, h⟩
        · simp only [he, Bool.false_eq_true, if_false] at h
          injection h with h
          exact Or.inl h.symm

theorem exec_enable (s : State) : exec .enable s = (enableOp s).outcome := rfl
theorem exec_handler (s : State) : exec .handler s = (handlerOp s).outcome := rfl
theorem exec_busSetup {a : BitVec 7} {ep : BitVec 4} {data : List Byte} (h : data.length = 8) (s : State) :
    exec (.busSetup a ep data) s = (busSetup a ep data s).outcome := by
  simp [exec, execBusSetup, h]
theorem exec_busOut {a : BitVec 7} {ep : BitVec 4} {data : List Byte} (h : data.length ≤ 1023) (s : State) :
    exec (.busOut a ep data) s = (busOut a ep data s).outcome := by
  simp [exec, execBusOut, h]
theorem exec_busIn {a : BitVec 7} {ep : BitVec 4} (s : State) :
    exec (.busIn a ep) s = (busIn a ep s).outcome := rfl
theorem exec_busReset (s : State) : exec .busReset s = .next (busReset s) := rfl

/-- What the bus leaves: a transaction leaves its frame, and a bus reset clears the device. -/
theorem bus_cases {i : Instr} (hi : BusInstr i) {s t : State} (h : exec i s = .next t) :
    (BusFrame s t ∧ HistGrows s t) ∨ (s.attached = true ∧ t = busReset s) := by
  cases hi with
  | setup a ep data hl =>
    rw [exec_busSetup hl] at h
    exact Or.inl ⟨busSetup_leaves.outcome h, busSetup_hist h⟩
  | out a ep data hl =>
    rw [exec_busOut hl] at h
    exact Or.inl ⟨busOut_leaves.outcome h, busOut_hist h⟩
  | inToken a ep =>
    rw [exec_busIn] at h
    exact Or.inl ⟨busIn_leaves.outcome h, busIn_hist h⟩
  | reset =>
    rw [exec_busReset] at h
    injection h with h
    by_cases ha : s.attached = true
    · exact Or.inr ⟨ha, h.symm⟩
    · left
      rw [← h]
      have : busReset s = s := by simp [busReset, ha]
      rw [this]
      exact ⟨.refl s, Or.inl rfl⟩

end Sys2Proof.Machine
end

