-- ==== Sys2Proof/Laws/Address.lean ====
section
/-! SUPPORT. What writes DADDR (43_control_transfer.md R188): in any state, only the transmit stage of
endpoint 0, `Reset()` and a bus reset. -/

namespace Sys2Proof.Machine

open Sys2Proof

/-- The receive side of endpoint 0 leaves DADDR and the transmit completion of slot 0. -/
def ReceiveFrame (s t : State) : Prop :=
  t.daddr = s.daddr ∧ t.istr = s.istr ∧ Epr.ctrTx (t.eprAt 0) = Epr.ctrTx (s.eprAt 0)

theorem ReceiveFrame.trans {s t u : State} (h : ReceiveFrame s t) (h' : ReceiveFrame t u) :
    ReceiveFrame s u := ⟨h'.1.trans h.1, h'.2.1.trans h.2.1, h'.2.2.trans h.2.2⟩

theorem ReceiveFrame.refl (s : State) : ReceiveFrame s s := ⟨rfl, rfl, rfl⟩

theorem ReceiveFrame.recordFault (f : Fault) (s : State) : ReceiveFrame s (s.recordFault f) :=
  ⟨by simp, by simp, by simp⟩

theorem Flow.Leaves.after {R : State → State → Prop} (htr : ∀ {a b c}, R a b → R b c → R a c)
    {s u : State} {x : Flow State} (hu : R s u) (h : Flow.Leaves R u x) : Flow.Leaves R s x :=
  ⟨fun t ht => htr hu (h.ok t ht), fun t ht => ⟨htr hu (h.raised t ht).1, (h.raised t ht).2⟩⟩

theorem send_receive (b : List Byte) (l : Half) (s : State) : Flow.Leaves ReceiveFrame s (send b l s) := by
  unfold send
  refine Flow.Leaves.operand (addrTx_cases _ _ s) (.recordFault _ s) fun a _ => ?_
  refine Flow.Leaves.andThen (R := ReceiveFrame) ReceiveFrame.trans
    (memWrite_leaves ⟨by simp, by simp, by simp⟩ (.recordFault _ s)) fun u _ => ?_
  refine Flow.Leaves.andThen (R := ReceiveFrame) ReceiveFrame.trans
    (memWrite16_leaves ⟨by simp, by simp, by simp⟩ (.recordFault _ u)) fun v _ => ?_
  exact .of_ok ⟨rfl, rfl, by simp⟩

theorem runRequest_receive (r : Request) (p : SetupPacket) (s : State) :
    Flow.Leaves ReceiveFrame s (runRequest r p s) := by
  rw [runRequest_eq]
  split
  · next b _ =>
    have hb : ReceiveFrame s (requestBase r p s) := by cases r <;> exact ⟨rfl, rfl, rfl⟩
    refine Flow.Leaves.andThen (R := ReceiveFrame) ReceiveFrame.trans
      (Flow.Leaves.after (R := ReceiveFrame) ReceiveFrame.trans hb (send_receive b p.wLength _)) fun u _ => .of_ok ?_
    split
    · exact ⟨rfl, rfl, by simp [State.stallTx]⟩
    · exact .refl u
  · exact .of_ok ⟨rfl, rfl, by simp [State.stallTx]⟩

theorem setupStage_receive (s : State) : Flow.Leaves ReceiveFrame s (setupStage s) := by
  unfold setupStage
  refine Flow.Leaves.operand (addrRx_cases _ _ s) (.recordFault _ s) fun a _ => ?_
  refine Flow.Leaves.operand (memRead_cases _ _ _ s) (.recordFault _ s) fun p _ => ?_
  have hc : ReceiveFrame s s.clearCtrRx0 := ⟨rfl, rfl, by simp [State.clearCtrRx0]⟩
  refine Flow.Leaves.andThen (R := ReceiveFrame) ReceiveFrame.trans
    (Flow.Leaves.after (R := ReceiveFrame) ReceiveFrame.trans hc (runRequest_receive _ _ _)) fun u _ => .of_ok ?_
  exact ⟨rfl, rfl, by simp [State.rearmRx]⟩

theorem ep0Receive_receive (s : State) : Flow.Leaves ReceiveFrame s (ep0Receive s) := by
  unfold ep0Receive
  split
  · split
    · exact setupStage_receive s
    · exact .of_ok ⟨rfl, rfl, by rw [outStage_eprAt]; simp⟩
  · exact .of_ok (.refl s)

/-- DADDR is as before, or a transmit completion of endpoint 0 was served. -/
def AddressCommit (s t : State) : Prop :=
  t.istr = s.istr ∧ (t.daddr = s.daddr ∨
    (Epr.ctrTx (s.eprAt 0) = true ∧ Epr.ctrTx (t.eprAt 0) = false ∧ t.pending = 0#16 ∧
      ∃ a, t.daddr = Daddr.enabledAt a))

theorem txStage_commit (s : State) (h : Epr.ctrTx (s.eprAt 0) = true) : AddressCommit s (txStage s) := by
  refine ⟨by simp [txStage], ?_⟩
  by_cases hp : s.pending = 0#16
  · left
    simp [txStage, State.commitAddress, hp]
  · right
    refine ⟨h, by rw [txStage_eprAt]; simp, ?_, ?_⟩
    · simp [txStage, State.commitAddress, hp]
    · exact ⟨field s.pending 0 7, by simp [txStage, State.commitAddress, hp]⟩

theorem ep0Handler_commit (s : State) : Flow.Leaves AddressCommit s (ep0Handler s) := by
  have hr := ep0Receive_receive s
  unfold ep0Handler
  cases hx : ep0Receive s with
  | ok u =>
    obtain ⟨h1, h2, h3⟩ := hr.ok u hx
    rw [Flow.andThen_ok]
    refine .of_ok ?_
    split
    · next hc =>
      obtain ⟨g1, g2⟩ := txStage_commit u hc
      refine ⟨g1.trans h2, ?_⟩
      rw [← h1, ← h3]
      exact g2
    · exact ⟨h2, Or.inl h1⟩
  | error e =>
    rw [hx] at hr
    refine ⟨fun t ht => by simp at ht, fun t ht => ?_⟩
    have := hr.raised t ht
    exact ⟨⟨this.1.2.1, Or.inl this.1.1⟩, this.2⟩

/-- An endpoint handler leaves every register but its slot's. -/
def HandlerRest (s t : State) : Prop :=
  { t with epr := s.epr, pma := s.pma, fault := s.fault, handlerDraws := s.handlerDraws,
           drawCount := s.drawCount } = s

theorem HandlerRest.trans {s t u : State} (h : HandlerRest s t) (h' : HandlerRest t u) :
    HandlerRest s u := by
  have h1 : _ = s := h
  have h2 : _ = t := h'
  rw [← h2] at h1
  exact h1

theorem HandlerRest.recordFault (f : Fault) (s : State) : HandlerRest s (s.recordFault f) := by
  unfold HandlerRest
  apply State.ext_of <;> simp

theorem handlerWrite_rest (fp : Footprint) (w : HandlerWrite) (s : State) :
    HandlerRest s (handlerWrite fp w s) := by
  cases w <;> unfold handlerWrite
  case ctr => cases fp.dir <;> exact rfl
  case stat => cases fp.dir <;> exact rfl
  case count => cases fp.dir <;> exact rfl
  case byte => exact rfl
  case half => exact rfl
  case reg => exact rfl

theorem handlerWrites_rest (fp : Footprint) (ws : List HandlerWrite) (s : State) :
    Flow.Leaves HandlerRest s (handlerWrites fp ws s) := by
  induction ws generalizing s with
  | nil => exact .of_ok rfl
  | cons w ws ih =>
    unfold handlerWrites
    split
    · exact Flow.Leaves.after (R := HandlerRest) HandlerRest.trans (handlerWrite_rest fp w s) (ih _)
    · exact .of_raise (.recordFault _ s)

theorem admittedWrites_rest (fp : Footprint) (ws : List HandlerWrite) (s : State) :
    HandlerRest s (admittedWrites fp ws s) := by
  induction ws generalizing s with
  | nil => exact rfl
  | cons w ws ih =>
    unfold admittedWrites
    split
    · exact (handlerWrite_rest fp w s).trans (ih _)
    · exact ih s

theorem extHandler_rest (n : BitVec 4) (d : Dir) (s : State) :
    Flow.Leaves HandlerRest s (extHandler n d s) := by
  unfold extHandler
  split
  · exact .of_raise (.recordFault _ s)
  · split
    · exact .of_raise (.recordFault _ s)
    · refine Flow.Leaves.operand (footprint_cases _ _ s) (.recordFault _ s) fun fp _ => ?_
      unfold extHandlerOn
      split
      · next ws rest _ =>
        have hb : HandlerRest s { s with handlerDraws := rest } := rfl
        exact Flow.Leaves.after (R := HandlerRest) HandlerRest.trans hb (handlerWrites_rest fp ws _)
      · have hb : HandlerRest s { s with drawCount := s.drawCount + 1 } := rfl
        exact .of_ok (hb.trans (admittedWrites_rest _ _ _))

theorem HandlerRest.commit {s t : State} (h : HandlerRest s t) : AddressCommit s t := by
  have h1 := congrArg State.istr h
  have h2 := congrArg State.daddr h
  exact ⟨h1, Or.inl h2⟩

theorem dispatchTo_commit (n : BitVec 4) (b : BitVec 1) (s : State) :
    Flow.Leaves AddressCommit s (dispatchTo n b s) := by
  have hf : ∀ f, AddressCommit s (s.recordFault f) := fun f => (HandlerRest.recordFault f s).commit
  unfold dispatchTo
  split
  · exact ep0Handler_commit s
  · split
    · exact .of_raise (hf _)
    · split
      · exact .of_raise (hf _)
      · have := extHandler_rest n (dirOfBit b) s
        exact ⟨fun t ht => (this.ok t ht).commit, fun t ht => ⟨(this.raised t ht).1.commit, (this.raised t ht).2⟩⟩

theorem dispatch_commit (s : State) : Flow.Leaves AddressCommit s (dispatch s) := by
  have h := dispatchTo_commit s.istrEpId s.istrDir s.takeEpId
  have he : ∀ t, AddressCommit s.takeEpId t → AddressCommit s t := by
    intro t ht
    simpa [AddressCommit] using ht
  exact ⟨fun t ht => he t (h.ok t ht), fun t ht => ⟨he t (h.raised t ht).1, (h.raised t ht).2⟩⟩

/-- DISPATCH of a slot other than 0 leaves DADDR. -/
theorem dispatchTo_daddr {n : BitVec 4} (hn : n ≠ 0#4) (b : BitVec 1) (s : State) :
    Flow.Leaves HandlerRest s (dispatchTo n b s) := by
  unfold dispatchTo
  rw [if_neg hn]
  split
  · exact .of_raise (.recordFault _ s)
  · split
    · exact .of_raise (.recordFault _ s)
    · exact extHandler_rest n _ s

end Sys2Proof.Machine
end

