-- ==== Sys2Proof/Laws/Invariant.lean ====
section
/-! SUPPORT. The invariant through each agent's step (Safety.lean, `Inv`). -/

namespace Sys2Proof.Machine

open Sys2Proof

/-! ### The invariant does not read the schedule or the draws -/

theorem Inv.withInputs {s : State} (h : Inv s) (xs : List Input) : Inv (s.withInputs xs) :=
  ⟨h.memory, h.base, h.reserved, h.table, h.powered, h.slots, h.control⟩

theorem Ready.withInputs {s : State} (h : Ready s) (xs : List Input) : Ready (s.withInputs xs) :=
  ⟨h.accepted, h.inv.withInputs xs, h.enabled⟩

theorem Inv.recordFault {s : State} (h : Inv s) (f : Fault) : Inv (s.recordFault f) := by
  unfold State.recordFault
  split
  · exact ⟨h.memory, h.base, h.reserved, h.table, h.powered, h.slots, h.control⟩
  · exact h

/-! ### Slots -/

/-- A half that is not DISABLED belongs to slot 0 or to a declared endpoint. -/
theorem Inv.declared {s : State} (h : Inv s) {n : Fin 8} {d : Dir} (hd : halfStat d (s.eprAt n) ≠ .disabled) :
    n = 0 ∨ ∃ e ∈ declaredEndpoints s.cfg, e.number.toNat = n.val ∧ e.dir = d := by
  have hv : (BitVec.ofNat 4 n.val).toNat = n.val := by
    rw [BitVec.toNat_ofNat]; exact Nat.mod_eq_of_lt (by omega)
  cases hr : registered s.cfg (BitVec.ofNat 4 n.val) d with
  | false => exact absurd (h.slots n d hr).1 hd
  | true =>
    rcases (registered_iff _ _ _).1 hr with h0 | ⟨e, he, hn, hd⟩
    · left
      have := congrArg BitVec.toNat h0
      rw [hv] at this
      exact Fin.ext (by simpa using this)
    · right
      exact ⟨e, he, by rw [hn, hv], hd⟩

/-- Where the receive buffer of a slot that receives lies. -/
theorem Ready.receiveBuffer {s : State} (h : Ready s) {n : Fin 8}
    (hd : Epr.statRx (s.eprAt n) ≠ .disabled) :
    n.val ≤ maxSlot s.cfg ∧ (slotAlloc s.cfg n.val).addrRx % 2 = 0 ∧
    rxCapOf (slotAlloc s.cfg n.val).countRxInit % 2 = 0 ∧
    8 * (maxSlot s.cfg + 1) ≤ (slotAlloc s.cfg n.val).addrRx ∧
    (slotAlloc s.cfg n.val).addrRx + rxCapOf (slotAlloc s.cfg n.val).countRxInit ≤ s.cfg.pmaSize := by
  rcases h.inv.declared (d := .dirOut) hd with rfl | ⟨e, he, hn, hdir⟩
  · have h0 := h.accepted.ep0_buffers
    have h1 := h.accepted.mps0
    refine ⟨Nat.zero_le _, ?_, ?_, ?_, ?_⟩ <;> simp only [Fin.val_zero] <;> omega
  · have h1 := h.accepted.out_buffer he hdir
    have h2 := number_le_maxSlot he
    have h3 := rxSize_even e.mps.toNat
    rw [hn] at h1 h2
    refine ⟨h2, h1.2.1, ?_, h1.2.2.1, ?_⟩ <;> rw [h1.1]
    · exact h3
    · exact h1.2.2.2

/-- The transmit buffer of a slot that transmits. -/
theorem Ready.transmitSlot {s : State} (h : Ready s) {n : Fin 8}
    (hd : Epr.statTx (s.eprAt n) ≠ .disabled) : n.val ≤ maxSlot s.cfg := by
  rcases h.inv.declared (d := .dirIn) hd with rfl | ⟨e, he, hn, hdir⟩
  · exact Nat.zero_le _
  · have h2 := number_le_maxSlot he
    rwa [hn] at h2

/-! ### A received packet -/

/-- The two ranges a received packet writes have no offset in common. -/
theorem Ready.receive_apart {s : State} (h : Ready s) {n : Fin 8}
    (hd : Epr.statRx (s.eprAt n) ≠ .disabled) (k : Nat) :
    ∀ x, ¬ (InRange x (s.readHalf (s.bdt n.val + 4)).toNat k ∧ InRange x (s.bdt n.val + 6) 2) := by
  have hb := h.receiveBuffer hd
  intro x
  rw [h.addrRx hb.1, h.bdt]
  unfold InRange
  omega

theorem Ready.receive_access {s : State} (h : Ready s) {n : Fin 8}
    (hd : Epr.statRx (s.eprAt n) ≠ .disabled) {k : Nat}
    (hk : k ≤ rxCapOf (s.readHalf (s.bdt n.val + 6))) :
    s.accessOk (s.readHalf (s.bdt n.val + 4)).toNat k = true := by
  have hb := h.receiveBuffer hd
  rw [h.addrRx hb.1]
  rw [h.rxCap hb.1] at hk
  exact State.accessOk_of hb.2.1 (by omega)

/-- Storing a packet that fits keeps the invariant, where the slot's register keeps its type and what the
halves that no endpoint has say. -/
theorem Ready.receive {s : State} (h : Ready s) {n : Fin 8} (hd : Epr.statRx (s.eprAt n) ≠ .disabled)
    {data : List Byte} (hk : data.length ≤ rxCapOf (s.readHalf (s.bdt n.val + 6))) {f : Half → Half}
    (o : Observation) (hf : Epr.epType (f (s.eprAt n)) = Epr.epType (s.eprAt n))
    (hs : ∀ d, registered s.cfg (BitVec.ofNat 4 n.val) d = false →
      halfStat d (f (s.eprAt n)) = .disabled ∧ halfCompletion d (f (s.eprAt n)) = false) :
    Inv (s.receive n data f o) := by
  have hb := h.receiveBuffer hd
  have hm := h.accepted.maxSlot_lt
  obtain ⟨-, hcount, hslot, -, hslots, hbytes, hrest⟩ :=
    s.receive_spec n data f o (h.receive_apart hd _)
  have hacc := h.receive_access hd hk
  have ha := h.addrRx hb.1
  have hbdt := h.bdt n.val
  rw [h.rxCap hb.1] at hk
  have hcfg : (s.receive n data f o).cfg = s.cfg := by have := congrArg State.cfg hrest; exact this
  have hen : (s.receive n data f o).enabled = s.enabled := by
    have := congrArg State.enabled hrest; exact this
  refine ⟨?_, ?_, ?_, ?_, ?_, ?_, ?_⟩
  · refine State.writeHalf_wf (State.writeBuffer_wf h.inv.memory _ _ hacc) _ _ ?_
    rw [State.writeBuffer_cfg]
    omega
  · have := congrArg State.btable hrest; exact this.trans h.inv.base
  · have h1 := congrArg State.istr hrest
    have h2 := congrArg State.daddr hrest
    simp only at h1 h2
    rw [h1, h2]; exact h.inv.reserved
  · intro _
    refine (h.inv.table h.enabled).keep ⟨hcfg, ?_, ?_⟩
    · intro x hx hxm
      refine hbytes x ?_ ?_ <;> unfold InRange
      · rw [ha]; omega
      · omega
    · intro m hmle
      by_cases hmn : m = n.val
      · subst hmn
        rw [← hbdt, hcount]
        exact field_withField_other _ _ _ _ _ _ (by decide) (by decide)
      · have : (s.receive n data f o).readHalf (8 * m + 6) = s.readHalf (8 * m + 6) := by
          unfold State.readHalf
          rw [hbytes, hbytes] <;> unfold InRange <;> omega
        rw [this]
  · intro _
    have h1 := congrArg State.cntr hrest
    have h2 := congrArg State.irqEn hrest
    have h3 := congrArg State.pullup hrest
    have h4 := congrArg State.params hrest
    simp only at h1 h2 h3 h4
    have := h.inv.powered h.enabled
    refine ⟨h1.trans this.1, h2.trans this.2.1, ?_⟩
    rw [← this.2.2]
    unfold State.pullupLine
    rw [h4, h3]
  · intro m d hr
    rw [hcfg] at hr
    by_cases hmn : m = n
    · subst hmn
      rw [hslot]
      exact hs d hr
    · rw [hslots m hmn]
      exact h.inv.slots m d hr
  · intro m hmt
    by_cases hmn : m = n
    · subst hmn
      rw [hslot, hf] at hmt
      exact h.inv.control m hmt
    · rw [hslots m hmn] at hmt
      exact h.inv.control m hmt

/-! ### Each transaction -/

theorem setupSlot_some {s : State} {a : BitVec 7} {ep : BitVec 4} {n : Fin 8}
    (h : s.setupSlot a ep = some n) :
    s.forThisDevice a = true ∧ s.slotFor ep .dirOut = some n ∧
      Epr.epType (s.eprAt n) = epTypeControl := by
  unfold State.setupSlot at h
  split at h
  · next hd =>
    rw [Option.filter_eq_some_iff] at h
    exact ⟨hd, h.1, by simpa using h.2⟩
  · simp at h

theorem tokenSlot_some {s : State} {a : BitVec 7} {ep : BitVec 4} {d : Dir} {n : Fin 8}
    (h : s.tokenSlot a ep d = some n) : s.forThisDevice a = true ∧ s.slotFor ep d = some n := by
  unfold State.tokenSlot at h
  split at h
  · next hd => exact ⟨hd, h⟩
  · simp at h

/-- A SETUP accepted by a ready block (R263). -/
theorem Ready.busSetup {s : State} (h : Ready s) {a : BitVec 7} {ep : BitVec 4} {data : List Byte}
    (hl : data.length = 8) {n : Fin 8} (hs : s.setupSlot a ep = some n) :
    busSetup a ep data s = .ok (s.receive n data setupWord (.setup a ep data .ack)) ∧ n = 0 ∧
      data.length ≤ rxCapOf (s.readHalf (s.bdt n.val + 6)) ∧ Epr.statRx (s.eprAt n) ≠ .disabled := by
  obtain ⟨-, hslot, ht⟩ := setupSlot_some hs
  have hd : Epr.statRx (s.eprAt n) ≠ .disabled := (slotFor_some hslot).2
  have hn : n = 0 := h.inv.control n ht
  have hb := h.receiveBuffer hd
  have hcap : data.length ≤ rxCapOf (s.readHalf (s.bdt n.val + 6)) := by
    rw [h.rxCap hb.1, hn]
    have := h.accepted.ep0_buffers
    have := h.accepted.mps0
    simp only [Fin.val_zero]
    omega
  refine ⟨?_, hn, hcap, hd⟩
  unfold Machine.busSetup
  rw [hs]
  simp only
  rw [addrRx_ok (h.entry hb.1 (by decide) rfl), Flow.andThen_ok,
    memWrite_ok (h.receive_access hd hcap), Flow.andThen_ok,
    setCountRx_ok (by simpa using h.entry hb.1 (k := 6) (by decide) rfl), Flow.andThen_ok]
  simp [State.receive, hl]

/-- An OUT stored by a ready block (R264). -/
theorem Ready.busOutValid {s : State} (h : Ready s) {a : BitVec 7} {ep : BitVec 4} {data : List Byte}
    {n : Fin 8} (hd : Epr.statRx (s.eprAt n) = .valid) :
    busOutValid a ep data n s =
      if data.length ≤ rxCapOf (s.readHalf (s.bdt n.val + 6)) then
        .ok (s.receive n data outWord (.out a ep data .ack))
      else .ok (s.observe (.out a ep data .noResponse)) := by
  have hd' : Epr.statRx (s.eprAt n) ≠ .disabled := by rw [hd]; decide
  have hb := h.receiveBuffer hd'
  unfold Machine.busOutValid
  rw [rxCap_ok (h.entry hb.1 (by decide) rfl), Flow.andThen_ok]
  split
  · next hcap =>
    rw [addrRx_ok (h.entry hb.1 (by decide) rfl), Flow.andThen_ok,
      memWrite_ok (h.receive_access hd' hcap), Flow.andThen_ok,
      setCountRx_ok (by simpa using h.entry hb.1 (k := 6) (by decide) rfl), Flow.andThen_ok]
    simp [State.receive]
  · rfl

/-- An IN of a ready block whose transmit half is VALID: answered, or the count a handler set reaches
beyond packet memory (log entry 22). -/
theorem Ready.busInValid {s : State} (h : Ready s) {a : BitVec 7} {ep : BitVec 4} {n : Fin 8}
    (hd : Epr.statTx (s.eprAt n) = .valid) :
    busInValid a ep n s =
      if s.accessOk (slotAlloc s.cfg n.val).addrTx (field (s.readHalf (s.bdt n.val + 2)) 0 10).toNat = true then
        .ok ((s.modifyEpr n inWord).observe (.inToken a ep (.data
          (s.readBytes (slotAlloc s.cfg n.val).addrTx (field (s.readHalf (s.bdt n.val + 2)) 0 10).toNat))))
      else .error (.raised (s.recordFault (.unmodelled .busIn))) := by
  have hn := h.transmitSlot (n := n) (by rw [hd]; decide)
  unfold Machine.busInValid
  rw [countTx_ok (h.entry hn (by decide) rfl), Flow.andThen_ok, addrTx_ok (h.entry0 hn), Flow.andThen_ok,
    h.addrTx hn]
  split
  · next hacc => rw [memRead_ok hacc, Flow.andThen_ok]
  · next hacc => rw [memRead_raised (by simpa using hacc), Flow.andThen_error]

theorem Inv.observe {s : State} (h : Inv s) (o : Observation) : Inv (s.observe o) :=
  ⟨h.memory, h.base, h.reserved, h.table, h.powered, h.slots, h.control⟩

theorem registered_zero (cfg : StaticConfig) (d : Dir) : registered cfg 0#4 d = true := by
  simp [registered]

/-- A SETUP keeps the invariant. -/
theorem Ready.busSetup_inv {s : State} (h : Ready s) {a : BitVec 7} {ep : BitVec 4} {data : List Byte}
    (hl : data.length = 8) : ∃ t, Machine.busSetup a ep data s = .ok t ∧ Inv t ∧ t.fault = s.fault := by
  cases hs : s.setupSlot a ep with
  | none =>
    refine ⟨_, ?_, h.inv.observe (.setup a ep data .noResponse), rfl⟩
    unfold Machine.busSetup; rw [hs]
  | some n =>
    obtain ⟨he, hn, hcap, hd⟩ := h.busSetup hl hs
    have hr := (s.receive_spec n data setupWord (.setup a ep data .ack) (h.receive_apart hd _)).2.2.2.2.2.2
    refine ⟨_, he, h.receive hd hcap _ (by simp [setupWord]) ?_, by have := congrArg State.fault hr; exact this⟩
    intro d hr
    rw [hn] at hr
    simp [registered_zero] at hr

/-- An OUT keeps the invariant. -/
theorem Ready.busOut_inv {s : State} (h : Ready s) {a : BitVec 7} {ep : BitVec 4} {data : List Byte} :
    ∃ t, Machine.busOut a ep data s = .ok t ∧ Inv t ∧ t.fault = s.fault := by
  have hobs : ∀ r, ∃ t, Except.ok (s.observe (.out a ep data r)) = (.ok t : Flow State) ∧ Inv t ∧
      t.fault = s.fault := fun r => ⟨_, rfl, h.inv.observe _, rfl⟩
  unfold Machine.busOut
  split
  · exact hobs _
  · next n hs =>
    split
    · exact hobs _
    · exact hobs _
    · exact hobs _
    · next hd =>
      rw [h.busOutValid hd]
      split
      · next hcap =>
        have hd' : Epr.statRx (s.eprAt n) ≠ .disabled := by rw [hd]; decide
        have hr := (s.receive_spec n data outWord (.out a ep data .ack) (h.receive_apart hd' _)).2.2.2.2.2.2
        refine ⟨_, rfl, h.receive hd' hcap _ (by simp [outWord]) ?_, by have := congrArg State.fault hr; exact this⟩
        intro d hr
        have := h.inv.slots n d hr
        cases d with
        | dirIn => simpa [halfStat, halfCompletion, outWord] using this
        | dirOut => exact absurd this.1 hd'
      · exact hobs _

/-- An IN keeps the invariant. -/
theorem Ready.busIn_inv {s t : State} (h : Ready s) {a : BitVec 7} {ep : BitVec 4}
    (ht : (Machine.busIn a ep s).outcome = .next t) : Inv t := by
  have hobs : ∀ r, (Flow.outcome (.ok (s.observe (.inToken a ep r)))) = .next t → Inv t := by
    intro r hr
    injection hr with hr
    rw [← hr]; exact h.inv.observe _
  unfold Machine.busIn at ht
  split at ht
  · exact hobs _ ht
  · next n hs =>
    split at ht
    · exact hobs _ ht
    · exact hobs _ ht
    · exact hobs _ ht
    · next hd =>
      rw [h.busInValid hd] at ht
      split at ht
      · injection ht with ht
        rw [← ht]
        refine Inv.observe ?_ _
        refine ⟨h.inv.memory, h.inv.base, h.inv.reserved, h.inv.table, h.inv.powered, ?_, ?_⟩
        · intro m d hr
          have hr : registered s.cfg (BitVec.ofNat 4 m.val) d = false := hr
          rw [State.eprAt_modifyEpr]
          split
          · next hmn =>
            subst hmn
            have := h.inv.slots m d hr
            cases d with
            | dirOut => simpa [halfStat, halfCompletion, inWord] using this
            | dirIn => rw [show halfStat .dirIn (s.eprAt m) = .valid from hd] at this; exact absurd this.1 (by decide)
          · exact h.inv.slots m d hr
        · intro m hm
          rw [State.eprAt_modifyEpr] at hm
          split at hm
          · next hmn =>
            subst hmn
            exact h.inv.control m (by simpa [inWord] using hm)
          · exact h.inv.control m hm
      · injection ht with ht
        rw [← ht]; exact h.inv.recordFault _

/-! ### Bus reset, Reset and the handlers -/

theorem eprAt_replicate (s : State) (n : Fin 8) :
    ({ s with epr := Vector.replicate 8 0x0000#16 } : State).eprAt n = 0x0000#16 := by
  simp [State.eprAt, Vector.get]

theorem Istr.withReset_reserved {w : Half} (h : w &&& ~~~Istr.storedMask = 0#16) :
    Istr.withReset w &&& ~~~Istr.storedMask = 0#16 := by
  apply BitVec.eq_of_getLsbD_eq
  intro i hi
  have := congrArg (fun x => x.getLsbD i) h
  simp only [Istr.withReset, BitVec.getLsbD_and, getLsbD_withField _ _ _ _ (show 10 + 1 ≤ 16 by decide)]
  simp only [BitVec.getLsbD_and] at this
  split
  · next hb =>
    have : i = 10 := by omega
    subst this
    simp [Istr.storedMask]
  · exact this

theorem busReset_inv {s : State} (h : Inv s) : Inv (busReset s) := by
  unfold busReset
  split
  · refine ⟨h.memory, h.base, ⟨Istr.withReset_reserved h.reserved.1, BitVec.zero_and⟩, h.table, h.powered, ?_, ?_⟩
    · intro n d _
      simp only [State.eprAt]
      cases d <;> simp [Vector.get] <;> decide
    · intro n hn
      simp only [State.eprAt] at hn
      simp [Vector.get] at hn
      exact absurd hn (by decide)
  · exact h

theorem afterReset_inv {s : State} (h : Inv s) : Inv s.afterReset := by
  refine ⟨h.memory.congr (by simp) (by simp), rfl, ⟨by simp, by simp [daddrDefault]⟩, ?_, ?_, ?_, ?_⟩
  · intro he
    rw [State.afterReset_enabled] at he
    exact (h.table he).keep (.of_pma (by simp) (by simp))
  · intro he
    rw [State.afterReset_enabled] at he
    have := h.powered he
    refine ⟨by simp, by simpa using this.2.1, ?_⟩
    rw [← this.2.2]
    simp [State.pullupLine]
  · intro n d hr
    rw [State.afterReset_cfg] at hr
    have := State.afterReset_undeclared hr
    rw [this.1, this.2]
    exact h.slots n d hr
  · exact State.afterReset_control h.control

theorem Ready.afterReset {s : State} (h : Ready s) : Ready s.afterReset :=
  ⟨by simpa using h.accepted, afterReset_inv h.inv, by simpa using h.enabled⟩

/-- The handler of a declared endpoint keeps the invariant. -/
theorem HandlerDone.inv {s t : State} (h : Ready s) {e : Endpoint} (he : e ∈ declaredEndpoints s.cfg)
    {i : Fin 8} (hi : i.val = e.number.toNat) (hd : HandlerDone (declaredFootprint e i s) s t) : Inv t := by
  have hf := declaredFootprint_fields e i s
  have hsep := h.footprint_separate he i
  have hn := number_le_maxSlot he
  have hm := h.accepted.maxSlot_lt
  have hrest := hd.frame.rest
  have hcfg : t.cfg = s.cfg := by have := congrArg State.cfg hrest; exact this
  have hen : t.enabled = s.enabled := by have := congrArg State.enabled hrest; exact this
  obtain ⟨c, st, hhalf⟩ := hd.frame.half
  rw [hf.1, hf.2.1] at hhalf
  have hfields := halfWord_fields e.dir (s.eprAt i) c st
  have hbytes : ∀ x, x < 8 * (maxSlot s.cfg + 1) →
      ¬ InRange x (declaredFootprint e i s).countAt 2 → t.readByte x = s.readByte x := by
    intro x hx hc
    refine hd.frame.bytes x ?_ hc
    rw [← Bool.not_eq_true, Footprint.covers_iff]
    omega
  have hmem : t.Canonical := by
    have := hd.wf (by rw [hf.2.2.2.2.2]; exact h.inv.memory)
    rwa [hf.2.2.2.2.2, ← hcfg] at this
  refine ⟨hmem, ?_, ?_, ?_, ?_, ?_, ?_⟩
  · have := congrArg State.btable hrest; exact this.trans h.inv.base
  · have h1 := congrArg State.istr hrest
    have h2 := congrArg State.daddr hrest
    simp only at h1 h2
    rw [h1, h2]; exact h.inv.reserved
  · intro _
    refine (h.inv.table h.enabled).keep ⟨hcfg, ?_, ?_⟩
    · intro x hx hxm
      refine hbytes x hx ?_
      rw [hf.2.2.1]
      unfold InRange
      cases e.dir <;> simp only <;> omega
    · intro m hmle
      by_cases hc : e.dir = .dirOut ∧ m = e.number.toNat
      · obtain ⟨hdir, rfl⟩ := hc
        have := hd.frame.size (by rw [hf.2.1, hdir])
        rw [hf.2.2.1, hdir] at this
        exact this
      · have : t.readHalf (8 * m + 6) = s.readHalf (8 * m + 6) := by
          have hx : ∀ x, x = 8 * m + 6 ∨ x = 8 * m + 7 → t.readByte x = s.readByte x := by
            intro x hx
            refine hbytes x (by omega) ?_
            rw [hf.2.2.1]
            unfold InRange
            cases hdir : e.dir with
            | dirIn => simp only; omega
            | dirOut =>
              have : m ≠ e.number.toNat := fun h => hc ⟨hdir, h⟩
              simp only; omega
          unfold State.readHalf
          rw [hx _ (Or.inl rfl), hx _ (Or.inr rfl)]
        rw [this]
  · intro _
    have h1 := congrArg State.cntr hrest
    have h2 := congrArg State.irqEn hrest
    have h3 := congrArg State.pullup hrest
    have h4 := congrArg State.params hrest
    simp only at h1 h2 h3 h4
    have := h.inv.powered h.enabled
    refine ⟨h1.trans this.1, h2.trans this.2.1, ?_⟩
    rw [← this.2.2]
    unfold State.pullupLine
    rw [h4, h3]
  · intro m d hr
    rw [hcfg] at hr
    by_cases hmi : m = i
    · subst hmi
      have hne : d ≠ e.dir := by
        intro hde
        have hv : BitVec.ofNat 4 m.val = e.number := by
          apply BitVec.eq_of_toNat_eq
          rw [BitVec.toNat_ofNat, hi, Nat.mod_eq_of_lt e.number.isLt]
        have : registered s.cfg (BitVec.ofNat 4 m.val) d = true :=
          (registered_iff _ _ _).2 (Or.inr ⟨e, he, hv.symm, hde.symm⟩)
        rw [hr] at this
        exact absurd this (by decide)
      have := hfields.2.2.1 d hne
      rw [hhalf, this.1, this.2]
      exact h.inv.slots m d hr
    · rw [hd.frame.slots m (by rw [hf.1]; exact hmi)]
      exact h.inv.slots m d hr
  · intro m hmt
    by_cases hmi : m = i
    · subst hmi
      rw [hhalf, hfields.2.2.2.1] at hmt
      exact h.inv.control m hmt
    · rw [hd.frame.slots m (by rw [hf.1]; exact hmi)] at hmt
      exact h.inv.control m hmt

/-- However the handler of a declared endpoint ends. -/
theorem extHandlerOn_cases {s : State} (h : Ready s) {e : Endpoint} (he : e ∈ declaredEndpoints s.cfg)
    (i : Fin 8) :
    (∃ t, extHandlerOn (declaredFootprint e i s) s = .ok t ∧ HandlerDone (declaredFootprint e i s) s t) ∨
    (∃ t, extHandlerOn (declaredFootprint e i s) s =
        .error (.raised (t.recordFault (.unmodelled .extHandler))) ∧
      HandlerDone (declaredFootprint e i s) s t) := by
  have hsep := h.footprint_separate he i
  have hdraw : ∀ (hd : List (List HandlerWrite)) (k : Nat),
      HandlerDone (declaredFootprint e i s) s { s with handlerDraws := hd, drawCount := k } :=
    fun hd k => ⟨⟨⟨_, _, (halfWord_same _ _).symm⟩, fun _ _ => rfl, fun _ _ _ => rfl, fun _ => rfl, rfl⟩, id⟩
  unfold extHandlerOn
  split
  · next ws rest _ =>
    have h0 := hdraw rest s.drawCount
    rcases handlerWrites_cases hsep.1 hsep.2.1 ws { s with handlerDraws := rest } with ⟨t, ht, hd⟩ | ⟨t, ht, hd⟩
    · exact Or.inl ⟨t, ht, h0.trans hd⟩
    · exact Or.inr ⟨t, ht, h0.trans hd⟩
  · next hnil =>
    have h0 := hdraw s.handlerDraws (s.drawCount + 1)
    exact Or.inl ⟨_, rfl, h0.trans (admittedWrites_done hsep.1 hsep.2.1 _ _)⟩

theorem Ready.takeEpId {s : State} (h : Ready s) : Ready s.takeEpId := by
  have hc : s.takeEpId.cfg = s.cfg := by simp
  refine ⟨by rw [hc]; exact h.accepted, ?_, by simpa using h.enabled⟩
  refine ⟨by exact h.inv.memory.congr (by simp) (by simp), by simpa using h.inv.base, by simpa using h.inv.reserved,
    ?_, ?_, ?_, ?_⟩
  · intro _
    exact (h.inv.table h.enabled).keep (.of_pma hc (by simp))
  · intro _
    have := h.inv.powered h.enabled
    refine ⟨by simpa using this.1, by simpa using this.2.1, ?_⟩
    rw [← this.2.2]
    simp [State.pullupLine]
  · intro n d hr
    rw [hc] at hr
    rw [State.takeEpId_eprAt]
    exact h.inv.slots n d hr
  · intro n hn
    rw [State.takeEpId_eprAt] at hn
    exact h.inv.control n hn

/-- Under the invariant what ISTR reports is slot 0 or a declared endpoint in its direction (R154). -/
theorem Inv.reported {s : State} (h : Inv s) (hc : s.istrCtr = true) :
    (s.epIdChoice = 0 ∧ s.istrEpId = 0#4) ∨
    ∃ e ∈ declaredEndpoints s.cfg, e.number.toNat = s.epIdChoice.val ∧ s.istrEpId = e.number ∧
      s.istrEpId ≠ 0#4 ∧ dirOfBit s.istrDir = e.dir := by
  have hv : s.istrEpId.toNat = s.epIdChoice.val := by
    unfold State.istrEpId
    rw [BitVec.toNat_ofNat]
    exact Nat.mod_eq_of_lt (by have := s.epIdChoice.isLt; omega)
  have hm := (State.mem_pendingSet _ _).1 (s.epIdChoice_mem hc)
  have hdone : halfCompletion (dirOfBit s.istrDir) (s.eprAt s.epIdChoice) = true := by
    unfold State.istrDir dirOfBit
    rw [hc]
    cases hx : Epr.ctrRx (s.eprAt s.epIdChoice) with
    | true => simp [halfCompletion, hx]
    | false =>
      simp only [hx, Bool.false_eq_true, false_or] at hm
      simp [halfCompletion, hm]
  cases hr : registered s.cfg s.istrEpId (dirOfBit s.istrDir) with
  | false =>
    rw [(h.slots s.epIdChoice _ hr).2] at hdone
    exact absurd hdone (by decide)
  | true =>
    by_cases h0 : s.epIdChoice = 0
    · left; exact ⟨h0, by unfold State.istrEpId; rw [h0]; rfl⟩
    · right
      rcases (registered_iff _ _ _).1 hr with hz | ⟨e, he, hn, hd⟩
      · rw [hz] at hv
        exact absurd (Fin.ext (by simpa using hv.symm)) h0
      · refine ⟨e, he, by rw [hn, hv], hn.symm, ?_, hd.symm⟩
        intro hz
        rw [hz] at hv
        exact h0 (Fin.ext (by simpa using hv.symm))

theorem dispatchTo_declared {s : State} {e : Endpoint} (he : e ∈ declaredEndpoints s.cfg)
    (hn : e.number ≠ 0#4) {b : BitVec 1} (hb : dirOfBit b = e.dir) :
    dispatchTo e.number b s = extHandler e.number e.dir s := by
  have hr : registered s.cfg e.number e.dir = true := (registered_iff _ _ _).2 (Or.inr ⟨e, he, rfl, rfl⟩)
  have hr2 : registeredNumber s.cfg e.number = true := by
    unfold registeredNumber
    cases hd : e.dir <;> rw [hd] at hr <;> simp [hr]
  unfold dispatchTo
  rw [if_neg hn, hr2, hb, hr]
  simp

/-- DISPATCH of a ready block with a completion pending: the endpoint-0 handler, or the handler of a
declared endpoint. -/
theorem Ready.dispatch {s : State} (h : Ready s) (hc : s.istrCtr = true) :
    (s.epIdChoice = 0 ∧ dispatch s = .ok s.takeEpId.afterEp0) ∨
    ∃ e ∈ declaredEndpoints s.cfg, ∃ i : Fin 8, i.val = e.number.toNat ∧ i = s.epIdChoice ∧
      dispatch s = extHandlerOn (declaredFootprint e i s.takeEpId) s.takeEpId := by
  have ht := h.takeEpId
  unfold Machine.dispatch
  rcases h.inv.reported hc with ⟨h0, hz⟩ | ⟨e, he, hi, hz, hz0, hd⟩
  · left
    refine ⟨h0, ?_⟩
    unfold dispatchTo
    rw [if_pos hz, ht.ep0Handler]
  · right
    have he' : e ∈ declaredEndpoints s.takeEpId.cfg := by simpa using he
    obtain ⟨i, hin, hx⟩ := extHandler_declared ht he'
    refine ⟨e, he, i, hin, Fin.ext (by omega), ?_⟩
    rw [← hx, hz]
    exact dispatchTo_declared he' (hz ▸ hz0) hd

/-- DISPATCH keeps the invariant, and raises no dispatch fault. -/
theorem Ready.dispatch_leaves {s : State} (h : Ready s) (hc : s.istrCtr = true) :
    Flow.Leaves (fun _ t => Inv t ∧ (t.fault = s.fault ∨ t.fault = some (.unmodelled .extHandler))) s
      (Machine.dispatch s) := by
  have ht := h.takeEpId
  have hfe : s.takeEpId.fault = s.fault := by simp
  rcases h.dispatch hc with ⟨-, hd⟩ | ⟨e, he, i, hi, -, hd⟩
  · rw [hd]
    have hf := (State.afterEp0_done ht).1
    exact .of_ok ⟨hf.inv ht.inv, Or.inl (hf.fault.trans hfe)⟩
  · rw [hd]
    have he' : e ∈ declaredEndpoints s.takeEpId.cfg := by simpa using he
    rcases extHandlerOn_cases ht he' i with ⟨t, hx, hdone⟩ | ⟨t, hx, hdone⟩
    · rw [hx]
      have hf : t.fault = s.takeEpId.fault := by have := congrArg State.fault hdone.frame.rest; exact this
      exact .of_ok ⟨hdone.inv ht he' hi, Or.inl (hf.trans hfe)⟩
    · rw [hx]
      have hf : t.fault = s.takeEpId.fault := by have := congrArg State.fault hdone.frame.rest; exact this
      have hinv := hdone.inv ht he' hi
      refine ⟨fun u hu => by simp at hu, fun u hu => ?_⟩
      simp only [Except.error.injEq, Stop.raised.injEq] at hu
      subst hu
      refine ⟨⟨hinv.recordFault _, ?_⟩, State.recordFault_ne_none _ _⟩
      cases hx : t.fault with
      | none => right; simp [State.recordFault, hx]
      | some f => left; rw [← hfe, ← hf]; simp [State.recordFault, hx]

/-- HANDLER keeps the invariant, and raises no dispatch fault. -/
theorem Ready.handler {s t : State} (h : Ready s) (ht : (handlerOp s).outcome = .next t) :
    Inv t ∧ (t.fault = s.fault ∨ t.fault = some (.unmodelled .extHandler)) := by
  have key : ∀ u, Ready u → u.fault = s.fault →
      (Flow.andThen (handlerComplete u) fun s2 => .ok (ackInterrupt s2)).outcome = .next t →
      Inv t ∧ (t.fault = s.fault ∨ t.fault = some (.unmodelled .extHandler)) := by
    intro u hu huf hx
    unfold handlerComplete at hx
    split at hx
    · next hc =>
      have hl := hu.dispatch_leaves hc
      rw [huf] at hl
      have : (Machine.dispatch u).outcome = .next t := by
        cases hy : Machine.dispatch u with
        | ok v => rw [hy] at hx; exact hx
        | error e => rw [hy] at hx; exact hx
      exact hl.outcome this
    · injection hx with hx
      subst hx
      exact ⟨hu.inv, Or.inl huf⟩
  unfold handlerOp handlerReset at ht
  split at ht
  · rw [resetOp_ok (fun e he => (h.accepted.number he).2), Flow.andThen_ok] at ht
    exact key _ h.afterReset (by simp) ht
  · exact key _ h rfl ht

/-- ENABLE keeps the invariant. -/
theorem enable_inv {s t : State} (hacc : Accepted s.cfg) (h : Inv s)
    (ht : (enableOp s).outcome = .next t) :
    Inv t ∧ (t.fault = s.fault ∨ t = s.recordFault (.unmodelled .enable)) := by
  have hacc' : configErrors s.cfg = [] := hacc
  unfold enableOp at ht
  rw [hacc'] at ht
  simp only at ht
  split at ht
  · injection ht with ht
    exact ⟨ht ▸ h.recordFault _, Or.inr ht.symm⟩
  · next hen =>
    unfold peripheralClockEnable at ht
    rw [bmInit_ok hacc, Flow.andThen_ok] at ht
    injection ht with ht
    subst ht
    have hm := hacc.ep0_buffers
    refine ⟨⟨?_, ?_, ?_, ?_, ?_, ?_, ?_⟩, Or.inl (by simp [State.startUp])⟩
    · simp only [State.startUp]
      refine State.writeEntries_wf h.memory _ _ ?_
      rw [allocation_entries_length]
      omega
    · simpa [State.startUp] using h.base
    · refine ⟨by simp [State.startUp], by simpa [State.startUp] using h.reserved.2⟩
    · intro _ n hn
      have hn : n ≤ maxSlot s.cfg := by simpa [State.startUp] using hn
      have hw := writtenTable s n hn
      rw [bdtBase_toNat, Nat.zero_add]
      have hc : ((s.writeEntries 0 (allocation s.cfg).entries).startUp).cfg = s.cfg := by
        simp [State.startUp]
      rw [hc]
      exact ⟨hw.1, hw.2.2.1, by rw [show ((s.writeEntries 0 (allocation s.cfg).entries).startUp).readHalf
        (8 * n + 6) = (s.writeEntries 0 (allocation s.cfg).entries).readHalf (8 * n + 6) from rfl, hw.2.2.2]⟩
    · intro _
      refine ⟨rfl, rfl, ?_⟩
      simp only [State.startUp, State.pullupLine, State.writeIstr_params, State.writeEntries_params]
      split <;> rfl
    · intro n d hr
      have hr : registered s.cfg (BitVec.ofNat 4 n.val) d = false := by simpa [State.startUp] using hr
      rw [State.startUp_eprAt, State.writeEntries_eprAt]
      exact h.slots n d hr
    · intro n hn
      rw [State.startUp_eprAt, State.writeEntries_eprAt] at hn
      exact h.control n hn

end Sys2Proof.Machine
end

