-- ==== Sys2Proof/Laws/PerInstr.lean ====
section
/-! SUPPORT. Statements made once for each operation: the code of an operation fits its row of
spec/opcode_table.json (30_encoding.md R93, R104, R105, R111). -/

namespace Sys2Proof.Laws.RowFormat

open Sys2Proof Sys2Proof.Machine

/-- A row of the table: its format, and the mask and the match of a format that has them. -/
inductive Row where
  | setup32 (mask mtch : BitVec 32)
  | istr16 (mask mtch : Half)
  | epr016 (mask mtch : Half)
  | token (pid : Byte)
  | noPacket
  | entry
  deriving DecidableEq, Repr

/-- The row of an operation. -/
def row : Instr → Row
  | .getStatus _ _ _ _ => .setup32 0x0000FF00#32 0x00000000#32
  | .setAddress _ _ _ _ => .setup32 0x0000FF00#32 0x00000500#32
  | .getDescriptorDevice _ _ _ _ => .setup32 0xFF00FF00#32 0x01000600#32
  | .getDescriptorConfiguration _ _ _ _ => .setup32 0xFF00FF00#32 0x02000600#32
  | .getDescriptorReport _ _ _ _ => .setup32 0xFF00FF00#32 0x22000600#32
  | .getDescriptorOther _ _ _ _ _ => .setup32 0x0000FF00#32 0x00000600#32
  | .setConfiguration _ _ _ _ => .setup32 0x0000FF00#32 0x00000900#32
  | .otherRequest _ _ _ _ _ => .setup32 0x00000000#32 0x00000000#32
  | .evBusReset => .istr16 0x0400#16 0x0400#16
  | .evCtrEp0 _ => .istr16 0x800F#16 0x8000#16
  | .evCtrEpn _ _ => .istr16 0x8000#16 0x8000#16
  | .evEp0Setup => .epr016 0x8800#16 0x8800#16
  | .evEp0Out => .epr016 0x8800#16 0x8000#16
  | .evEp0Tx => .epr016 0x0080#16 0x0080#16
  | .busSetup _ _ _ => .token 0x2D#8
  | .busOut _ _ _ => .token 0xE1#8
  | .busIn _ _ => .token 0x69#8
  | .busReset => .noPacket
  | .enable => .entry
  | .handler => .entry
  | .reset => .entry
  | .ep0Reset => .entry
  | .configReset _ => .entry
  | .ackInterrupt => .entry
  | .dispatch => .entry
  | .extHandler _ _ => .entry
  | .bmAllocate => .entry
  | .bmInit => .entry
  | .deviceDescriptorBytes => .entry
  | .composeConfig _ => .entry
  | .send _ _ => .entry
  | .stallTx => .entry

/-- The code is one that the row's format, mask and match admit. -/
def Fits (r : Row) (c : Option Code) : Prop :=
  match r with
  | .setup32 m v => ∃ p, c = some (.setup p) ∧ p.length = 8 ∧ setupKey p &&& m = v
  | .istr16 m v => ∃ w, c = some (.istr w) ∧ w &&& m = v
  | .epr016 m v => ∃ w, c = some (.epr0 w) ∧ w &&& m = v
  | .token pid => ∃ rest, c = some (.input (.bus (pid :: rest)))
  | .noPacket => c = some (.input (.bus [noPid]))
  | .entry => ∀ k, c = some k → k = .input .enable ∨ k = .input .irq

/-- The code of a well-formed operation fits the operation's row. -/
def Statement (i : Instr) : Prop := WellFormed i → Fits (row i) (encode i)

theorem key_bRequest (t r : Byte) (v x l : Half) :
    setupKey (setupBytes t r v x l) &&& 0x0000FF00#32 = r.setWidth 32 <<< 8 := by
  rw [key_and_bRequest, setupKey_setupBytes_bRequest]

theorem key_descType (t r di dt : Byte) (x l : Half) :
    setupKey (setupBytes t r (u16le di dt) x l) &&& 0xFF00FF00#32 =
      (r.setWidth 32 <<< 8) ||| (dt.setWidth 32 <<< 24) := by
  rw [key_and_descType, setupKey_setupBytes_bRequest, setupKey_setupBytes_descType, u16le_high]

theorem getStatus (t : Byte) (v x l : Half) : Statement (.getStatus t v x l) :=
  fun _ => ⟨_, rfl, rfl, key_bRequest ..⟩
theorem setAddress (t : Byte) (v x l : Half) : Statement (.setAddress t v x l) :=
  fun _ => ⟨_, rfl, rfl, key_bRequest ..⟩
theorem getDescriptorDevice (t di : Byte) (x l : Half) : Statement (.getDescriptorDevice t di x l) :=
  fun _ => ⟨_, rfl, rfl, key_descType ..⟩
theorem getDescriptorConfiguration (t di : Byte) (x l : Half) :
    Statement (.getDescriptorConfiguration t di x l) := fun _ => ⟨_, rfl, rfl, key_descType ..⟩
theorem getDescriptorReport (t di : Byte) (x l : Half) : Statement (.getDescriptorReport t di x l) :=
  fun _ => ⟨_, rfl, rfl, key_descType ..⟩
theorem getDescriptorOther (t dt di : Byte) (x l : Half) :
    Statement (.getDescriptorOther t dt di x l) := fun _ => ⟨_, rfl, rfl, key_bRequest ..⟩
theorem setConfiguration (t : Byte) (v x l : Half) : Statement (.setConfiguration t v x l) :=
  fun _ => ⟨_, rfl, rfl, key_bRequest ..⟩
theorem otherRequest (t r : Byte) (v x l : Half) : Statement (.otherRequest t r v x l) :=
  fun _ => ⟨_, rfl, rfl, BitVec.and_zero⟩
theorem evBusReset : Statement .evBusReset := fun _ => ⟨_, rfl, rfl⟩
theorem evCtrEp0 (d : BitVec 1) : Statement (.evCtrEp0 d) := fun _ => ⟨_, rfl, by revert d; decide⟩
theorem evCtrEpn (n : BitVec 4) (d : BitVec 1) : Statement (.evCtrEpn n d) :=
  fun _ => ⟨_, rfl, by revert n d; decide⟩
theorem evEp0Setup : Statement .evEp0Setup := fun _ => ⟨_, rfl, rfl⟩
theorem evEp0Out : Statement .evEp0Out := fun _ => ⟨_, rfl, rfl⟩
theorem evEp0Tx : Statement .evEp0Tx := fun _ => ⟨_, rfl, rfl⟩
theorem busSetup (a : BitVec 7) (ep : BitVec 4) (data : List Byte) : Statement (.busSetup a ep data) :=
  fun _ => ⟨_, rfl⟩
theorem busOut (a : BitVec 7) (ep : BitVec 4) (data : List Byte) : Statement (.busOut a ep data) :=
  fun _ => ⟨_, rfl⟩
theorem busIn (a : BitVec 7) (ep : BitVec 4) : Statement (.busIn a ep) := fun _ => ⟨_, rfl⟩
theorem busReset : Statement .busReset := fun _ => rfl

/-- An entry row without a code. -/
theorem entry_none : Fits .entry none := fun _ h => absurd h (by simp)

theorem enable : Statement .enable := fun _ _ h => Or.inl (Option.some.inj h).symm
theorem handler : Statement .handler := fun _ _ h => Or.inr (Option.some.inj h).symm
theorem reset : Statement .reset := fun _ => entry_none
theorem ep0Reset : Statement .ep0Reset := fun _ => entry_none
theorem configReset (c : Configuration) : Statement (.configReset c) := fun _ => entry_none
theorem ackInterrupt : Statement .ackInterrupt := fun _ => entry_none
theorem dispatch : Statement .dispatch := fun _ => entry_none
theorem extHandler (n : BitVec 4) (d : Dir) : Statement (.extHandler n d) := fun _ => entry_none
theorem bmAllocate : Statement .bmAllocate := fun _ => entry_none
theorem bmInit : Statement .bmInit := fun _ => entry_none
theorem deviceDescriptorBytes : Statement .deviceDescriptorBytes := fun _ => entry_none
theorem composeConfig (c : Configuration) : Statement (.composeConfig c) := fun _ => entry_none
theorem send (bytes : List Byte) (l : Half) : Statement (.send bytes l) := fun _ => entry_none
theorem stallTx : Statement .stallTx := fun _ => entry_none

end Sys2Proof.Laws.RowFormat
end

