-- ==== Sys2Proof/Laws/Runs.lean ====
section
/-! SUPPORT. Runs of several steps at a waiting device: the scheduled operation of a step, a SETUP and the
Handler call that serves it (70_reset_and_hazards.md R325, 43_control_transfer.md R173, R174). -/

namespace Sys2Proof.Machine

open Sys2Proof

/-- A scheduled operation whose agent may move is the next step. -/
theorem step_input {s : State} {x : Input} {xs : List Input} {i : Instr} (h : Accepted s.cfg)
    (hx : s.inputs = x :: xs) (he : s.inputEnabled x = true) (hd : decode (.input x) = .ok i) :
    step s = exec i (s.withInputs xs) := by
  have hc : configErrors s.cfg = [] := h
  have hd' : decodeInput x = .ok i := hd
  simp only [step, State.nextAction, hc, hx, he, if_true, hd']

theorem Ready.attached {s : State} (h : Ready s) : s.attached = true := by
  have hp := h.inv.powered h.enabled
  simp [State.attached, h.enabled, hp, Cntr.pdwn, Cntr.fres, cntrBaseline]

theorem Ready.handlerEnabled {s : State} (h : Ready s) (hf : s.fault = none)
    (he : s.istrCtr = true ∨ Istr.resetFlag s.istr = true) : s.handlerEnabled = true := by
  have hp := h.inv.powered h.enabled
  have h1 : Cntr.ctrm cntrBaseline = true := by decide
  have h2 : Cntr.resetm cntrBaseline = true := by decide
  simp [State.handlerEnabled, h.enabled, hp, hf, State.line, h1, h2, he]

theorem Daddr.add_enabledAt (a : BitVec 7) : Daddr.add (Daddr.enabledAt a) = a := by revert a; decide
theorem Daddr.ef_enabledAt (a : BitVec 7) : Daddr.ef (Daddr.enabledAt a) = true := by revert a; decide

theorem Ready.forThisDevice {s : State} (h : Ready s) {a : BitVec 7} (hd : s.daddr = Daddr.enabledAt a) :
    s.forThisDevice a = true := by
  simp [State.forThisDevice, h.attached, hd, Daddr.add_enabledAt, Daddr.ef_enabledAt]

theorem slotFor_zero {s : State} {d : Dir} (h1 : Epr.ea (s.eprAt 0) = 0#4)
    (h2 : halfStat d (s.eprAt 0) ≠ .disabled) : s.slotFor 0#4 d = some 0 := by
  simp [State.slotFor, allSlots, State.answers, hasSlot, s.cfg.numEpSlots_pos, h1, h2]

/-- Only slot 0 has a completion. -/
theorem pendingSet_zero {s : State} (h : Epr.completion (s.eprAt 0) = true)
    (h' : ∀ n : Fin 8, n ≠ 0 → n.val < s.cfg.numEpSlots → Epr.completion (s.eprAt n) = false) :
    s.pendingSet = [0] := by
  have h0 : hasSlot s.cfg 0 = true := by simp [hasSlot, s.cfg.numEpSlots_pos]
  have hr : [1, 2, 3, 4, 5, 6, 7].filter
      (fun n : Fin 8 => hasSlot s.cfg n && Epr.completion (s.eprAt n)) = [] := by
    rw [List.filter_eq_nil_iff]
    intro n hn
    have := h' n (by rintro rfl; revert hn; decide)
    simpa [hasSlot] using this
  rw [State.pendingSet, allSlots, List.filter_cons_of_pos (by rw [h0, h]; rfl), hr]

theorem pendingSet_nil_iff {s : State} :
    s.pendingSet = [] ↔ ∀ n : Fin 8, n.val < s.cfg.numEpSlots → Epr.completion (s.eprAt n) = false := by
  simp [State.pendingSet, mem_allSlots, hasSlot]

/-- A handler call of a ready block in which only slot 0 has a completion. -/
theorem Ready.handler_zero {s : State} (h : Ready s) (hr : Istr.resetFlag s.istr = false)
    (hp : s.pendingSet = [0]) : exec .handler s = .next s.afterEp0 := by
  have hc : s.istrCtr = true := by simp [State.istrCtr, hp]
  have hz : s.epIdChoice = 0 := by simp [State.epIdChoice, hp]
  have ht : s.takeEpId = s := by simp [State.takeEpId, hp]
  have hd : Machine.dispatch s = .ok s.afterEp0 := by
    rcases h.dispatch hc with ⟨-, hd⟩ | ⟨e, he, i, hi, hic, -⟩
    · rw [hd, ht]
    · have := (h.accepted.number he).1
      rw [hic, hz] at hi
      simp at hi; omega
  rw [exec_handler]
  unfold handlerOp handlerReset handlerComplete
  rw [if_neg (by simp [hr]), Flow.andThen_ok, if_pos hc, hd]
  rfl

/-- What a SETUP leaves at a waiting device. -/
structure Received (s t : State) (a : BitVec 7) (p : List Byte) (xs : List Input) : Prop where
  ready : Ready t
  fault : t.fault = none
  istr : t.istr = s.istr
  daddr : t.daddr = s.daddr
  pend : t.pending = s.pending
  params : t.params = s.params
  cfg : t.cfg = s.cfg
  hist : t.hist = s.hist ++ [.setup a 0#4 p .ack]
  inputs : t.inputs = xs
  packet : t.packet = p
  slot : t.eprAt 0 = setupWord (s.eprAt 0)
  slots : ∀ n : Fin 8, n ≠ 0 → t.eprAt n = s.eprAt n

theorem WaitingAt.setup {s : State} {a : BitVec 7} (h : WaitingAt s a) {p : List Byte} (hp : p.length = 8)
    {xs : List Input} (hx : s.inputs = .bus (tokenBytes pidSetup a 0#4 ++ p) :: xs) :
    ∃ t, step s = .next t ∧ Received s t a p xs := by
  have hr := h.ready.withInputs xs
  have hs : (s.withInputs xs).setupSlot a 0#4 = some 0 := by
    unfold State.setupSlot
    rw [if_pos (hr.forThisDevice h.daddr), slotFor_zero (s := s.withInputs xs) (d := .dirOut) h.ea h.rx]
    have : Epr.epType ((s.withInputs xs).eprAt 0) = epTypeControl := h.type
    simp [h.type]
  obtain ⟨he, -, hcap, hd⟩ := hr.busSetup hp hs
  have hspec := (s.withInputs xs).receive_spec 0 p setupWord (.setup a 0#4 p .ack) (hr.receive_apart hd _)
  have hrest := hspec.2.2.2.2.2.2
  have hcfg : ((s.withInputs xs).receive 0 p setupWord (.setup a 0#4 p .ack)).cfg = s.cfg := by
    have := congrArg State.cfg hrest; exact this
  have hready : Ready ((s.withInputs xs).receive 0 p setupWord (.setup a 0#4 p .ack)) := by
    refine ⟨by rw [hcfg]; exact h.ready.accepted, hr.receive hd hcap _ (by simp [setupWord]) ?_, ?_⟩
    · intro d hreg
      exact absurd hreg (by simp [registered])
    · have := congrArg State.enabled hrest; exact this.trans h.ready.enabled
  refine ⟨(s.withInputs xs).receive 0 p setupWord (.setup a 0#4 p .ack), ?_,
    ⟨hready, ?_, ?_, ?_, ?_, ?_, hcfg, hspec.2.2.2.1, ?_, ?_, hspec.2.2.1, hspec.2.2.2.2.1⟩⟩
  · rw [step_input h.ready.accepted hx h.ready.attached (decode_bus_setup a 0#4 p hp), exec_busSetup hp, he]
    rfl
  · have := congrArg State.fault hrest; exact this.trans h.noFault
  · have := congrArg State.istr hrest; exact this
  · have := congrArg State.daddr hrest; exact this
  · have := congrArg State.pending hrest; exact this
  · have := congrArg State.params hrest; exact this
  · have := congrArg State.inputs hrest; exact this
  · have hb := hspec.1
    rw [hp, hr.addrRx (n := (0 : Fin 8).val) (Nat.zero_le _)] at hb
    unfold State.packet
    rw [hready.rxAddr0, hcfg]
    exact hb

/-- The Handler call that serves it (R174). -/
theorem WaitingAt.serve {s u : State} {a : BitVec 7} (h : WaitingAt s a) {p : List Byte} {ys xs : List Input}
    (hu : Received s u a p ys) (hx : ys = .irq :: xs) :
    step u = .next (u.withInputs xs).afterSetup := by
  have hev := pendingSet_nil_iff.1 h.noEvent
  have hz := hev 0 s.cfg.numEpSlots_pos
  simp only [Epr.completion, Bool.or_eq_false_iff] at hz
  have hp : (u.withInputs xs).pendingSet = [0] := by
    refine pendingSet_zero ?_ ?_
    · rw [State.withInputs_eprAt, hu.slot]
      simp [Epr.completion, setupWord]
    · intro n hn
      rw [State.withInputs_eprAt, hu.slots n hn]
      exact fun hl => hev n (by rwa [State.withInputs_cfg, hu.cfg] at hl)
  have hc : u.istrCtr = true := by
    have : u.pendingSet = [0] := hp
    simp [State.istrCtr, this]
  rw [step_input hu.ready.accepted (hu.inputs.trans hx) (hu.ready.handlerEnabled hu.fault (Or.inl hc)) (i := .handler) rfl]
  have hr := hu.ready.withInputs xs
  rw [hr.handler_zero (by rw [State.withInputs_istr, hu.istr]; exact h.noReset) hp]
  congr 1
  have h1 : Epr.ctrRx ((u.withInputs xs).eprAt 0) = true := by
    rw [State.withInputs_eprAt, hu.slot]; simp [setupWord]
  have h2 : Epr.setupFlag ((u.withInputs xs).eprAt 0) = true := by
    rw [State.withInputs_eprAt, hu.slot]; simp [setupWord]
  have h3 : Epr.ctrTx ((u.withInputs xs).afterReceive.eprAt 0) = false := by
    rw [(State.afterReceive_done hr).2.2.2.1, State.withInputs_eprAt, hu.slot]
    simpa [setupWord] using hz.2
  unfold State.afterEp0
  rw [h3]
  unfold State.afterReceive
  rw [h1, h2]
  simp

end Sys2Proof.Machine
end

