-- ==== Sys2Proof/Tests/Slice0.lean ====
section
/-! SUPPORT. The model's tests: the checks of WellFormed, words of the spec's encodings, one or two steps
of each operation against the vectors of 95_test_vectors.md (named in each docstring), and for each
statement a state and operands that meet its hypotheses. -/

namespace Sys2Proof.Tests

open Sys2Proof.Machine

set_option Elab.async false

/-! ### States of the vectors -/

/-- Consecutive cells of packet memory. -/
def cells (a : Nat) (bs : List Byte) : List Host.Cell := Memory.writeBytes [] a bs

/-- S0 of 95_test_vectors.md: EX1 after ENABLE, BUSRESET, IRQ. -/
def S0 : State :=
  { State.reset with
    cntr := 0x8400#16
    daddr := 0x0080#16
    epr := #v[0x3220#16, 0x0621#16, 0#16, 0#16, 0#16, 0#16, 0#16, 0#16]
    pma := cells 0 [0x10#8, 0x00#8, 0x00#8, 0x00#8, 0x50#8, 0x00#8, 0x00#8, 0x84#8,
      0x90#8, 0x00#8, 0x00#8, 0x00#8, 0x00#8, 0x00#8, 0x00#8, 0x00#8]
    irqEn := true
    pullup := true
    enabled := true }

/-- The interface of EX2 with two endpoints, and the one with one. -/
def ex2Interface (es : List Endpoint) : Interface where
  bInterfaceNumber := 0#8
  bAlternateSetting := 0#8
  ifClass := 0xFF#8
  ifSubClass := 0#8
  ifProtocol := 0#8
  classBlob := []
  endpoints := es

/-- A configuration of EX2. -/
def ex2Configuration (v : Byte) (es : List Endpoint) : Configuration where
  bConfigurationValue := v
  bmAttributes := 0x80#8
  bMaxPower := 0x32#8
  interfaces := [ex2Interface es]
  reportBlob := none

/-- The Out endpoint 1 of EX2. -/
def ex2Out1 : Endpoint := ⟨1#4, .dirOut, .interrupt, 8#16, 10#8⟩

/-- EX2 of 95_test_vectors.md. -/
def ex2 : StaticConfig :=
  { ex1 with
    mps0 := 32#8
    configs := [ex2Configuration 1#8 [⟨1#4, .dirIn, .interrupt, 8#16, 10#8⟩, ex2Out1],
      ex2Configuration 2#8 [⟨2#4, .dirOut, .bulk, 64#16, 0#8⟩]] }

/-- T0 of 95_test_vectors.md: EX2 after ENABLE, BUSRESET, IRQ. -/
def T0 : State :=
  { S0 with
    cfg := ex2
    epr := #v[0x3220#16, 0x3621#16, 0x3002#16, 0#16, 0#16, 0#16, 0#16, 0#16]
    pma := cells 0 [0x18#8, 0x00#8, 0x00#8, 0x00#8, 0x38#8, 0x00#8, 0x00#8, 0x40#8,
      0x58#8, 0x00#8, 0x00#8, 0x00#8, 0x60#8, 0x00#8, 0x00#8, 0x10#8,
      0x00#8, 0x00#8, 0x00#8, 0x00#8, 0x68#8, 0x00#8, 0x00#8, 0x84#8] }

/-- EX1 after ENABLE (DV-1). -/
def E0 : State := { S0 with daddr := 0#16, epr := Vector.replicate 8 0#16 }

/-- A state with another value of one endpoint register. -/
def slot (s : State) (n : Fin 8) (w : Half) : State := s.setEpr n w

/-- S0 with a SETUP packet just received (the first paragraph of part 2 of the vectors). -/
def received (p : List Byte) : State :=
  ((slot S0 0 0xAA20#16).writeBytes 0x50 p).writeHalf 6 0x8408#16

/-- The SETUP packet of CT-5. -/
def setAddress5 : List Byte := [0x00#8, 0x05#8, 0x05#8, 0x00#8, 0x00#8, 0x00#8, 0x00#8, 0x00#8]

/-- The SETUP packet of CT-10. -/
def getDevice64 : List Byte := [0x80#8, 0x06#8, 0x00#8, 0x01#8, 0x00#8, 0x00#8, 0x40#8, 0x00#8]

/-- The SETUP packet of CT-21. -/
def getString : List Byte := [0x80#8, 0x06#8, 0x00#8, 0x03#8, 0x00#8, 0x00#8, 0xFF#8, 0x00#8]

/-- DEV1 of 95_test_vectors.md. -/
def dev1 : List Byte :=
  [0x12#8, 0x01#8, 0x00#8, 0x02#8, 0x00#8, 0x00#8, 0x00#8, 0x40#8, 0x34#8, 0x12#8, 0x78#8, 0x56#8,
   0x00#8, 0x01#8, 0x00#8, 0x00#8, 0x00#8, 0x01#8]

/-- CFG1 of 95_test_vectors.md. -/
def cfg1 : List Byte :=
  [0x09#8, 0x02#8, 0x19#8, 0x00#8, 0x01#8, 0x01#8, 0x00#8, 0x80#8, 0x32#8,
   0x09#8, 0x04#8, 0x00#8, 0x00#8, 0x01#8, 0x03#8, 0x00#8, 0x00#8, 0x00#8,
   0x07#8, 0x05#8, 0x81#8, 0x03#8, 0x08#8, 0x00#8, 0x0A#8]

/-- An outcome is a next state of which a check holds. -/
def ends (o : Host.Outcome State Fault Refusal) (check : State → Bool) : Bool :=
  match o with
  | .next t => check t
  | .fault _ => false
  | .refused _ => false

theorem ends_next {o : Host.Outcome State Fault Refusal} {check : State → Bool}
    (h : ends o check = true) : ∃ t, o = .next t ∧ check t = true := by
  cases o with
  | next t => exact ⟨t, rfl, h⟩
  | fault f => exact absurd h (by simp [ends])
  | refused r => exact absurd h (by simp [ends])

/-! ### WellFormed refuses ill-formed operations -/

theorem test_wf_descriptor_other :
    ¬ WellFormed (.getDescriptorOther 0x80#8 0x01#8 0#8 0#16 8#16) ∧
    ¬ WellFormed (.getDescriptorOther 0x80#8 0x02#8 0#8 0#16 8#16) ∧
    ¬ WellFormed (.getDescriptorOther 0x80#8 0x22#8 0#8 0#16 8#16) := by decide

theorem test_wf_other_request :
    ¬ WellFormed (.otherRequest 0#8 0x00#8 0#16 0#16 0#16) ∧
    ¬ WellFormed (.otherRequest 0#8 0x05#8 0#16 0#16 0#16) ∧
    ¬ WellFormed (.otherRequest 0#8 0x06#8 0#16 0#16 0#16) ∧
    ¬ WellFormed (.otherRequest 0#8 0x09#8 0#16 0#16 0#16) := by decide

theorem test_wf_event_slot_zero : ¬ WellFormed (.evCtrEpn 0#4 1#1) := by decide

theorem test_wf_setup_data : ¬ WellFormed (.busSetup 0#7 0#4 (List.replicate 7 0#8)) ∧
    ¬ WellFormed (.busSetup 0#7 0#4 (List.replicate 9 0#8)) := by decide

theorem test_wf_out_data : ¬ WellFormed (.busOut 0#7 1#4 (List.replicate 1024 0#8)) := by
  decide +kernel

theorem test_wf_config_reset :
    ¬ WellFormed (.configReset (ex2Configuration 1#8 [⟨0#4, .dirIn, .bulk, 8#16, 0#8⟩])) ∧
    ¬ WellFormed (.configReset (ex2Configuration 1#8 [⟨8#4, .dirIn, .bulk, 8#16, 0#8⟩])) := by decide

theorem test_wf_handler_slot : ¬ WellFormed (.extHandler 0#4 .dirIn) ∧
    ¬ WellFormed (.extHandler 8#4 .dirOut) := by decide

theorem test_wf_compose_counts :
    ¬ WellFormed (.composeConfig { ex2Configuration 1#8 [] with
      interfaces := List.replicate 256 (ex2Interface []) }) ∧
    ¬ WellFormed (.composeConfig (ex2Configuration 1#8 (List.replicate 256 ex2Out1))) := by
  decide +kernel

theorem test_wf_send : ¬ WellFormed (.send (List.replicate 65 0#8) 65#16) := by decide

/-! ### Words written out from the spec -/

/-- The vectors E-1 to E-8 (R91, R93). -/
theorem test_words_setup :
    decodeSetup [0x80#8, 0x00#8, 0x00#8, 0x00#8, 0x00#8, 0x00#8, 0x02#8, 0x00#8] =
      .ok (.getStatus 0x80#8 0x0000#16 0x0000#16 0x0002#16) ∧
    decodeSetup setAddress5 = .ok (.setAddress 0x00#8 0x0005#16 0x0000#16 0x0000#16) ∧
    decodeSetup getDevice64 = .ok (.getDescriptorDevice 0x80#8 0x00#8 0x0000#16 0x0040#16) ∧
    decodeSetup [0x80#8, 0x06#8, 0x01#8, 0x02#8, 0x00#8, 0x00#8, 0xFF#8, 0x00#8] =
      .ok (.getDescriptorConfiguration 0x80#8 0x01#8 0x0000#16 0x00FF#16) ∧
    decodeSetup [0x81#8, 0x06#8, 0x00#8, 0x22#8, 0x00#8, 0x00#8, 0xFF#8, 0x00#8] =
      .ok (.getDescriptorReport 0x81#8 0x00#8 0x0000#16 0x00FF#16) ∧
    decodeSetup getString = .ok (.getDescriptorOther 0x80#8 0x03#8 0x00#8 0x0000#16 0x00FF#16) := by
  decide

/-- The vectors E-9 to E-16. -/
theorem test_words_setup_more :
    decodeSetup [0x21#8, 0x09#8, 0x00#8, 0x02#8, 0x00#8, 0x00#8, 0x01#8, 0x00#8] =
      .ok (.setConfiguration 0x21#8 0x0200#16 0x0000#16 0x0001#16) ∧
    decodeSetup [0xA1#8, 0x01#8, 0x00#8, 0x01#8, 0x34#8, 0x12#8, 0x08#8, 0x00#8] =
      .ok (.otherRequest 0xA1#8 0x01#8 0x0100#16 0x1234#16 0x0008#16) ∧
    decodeRequest 0xFFFFFFFF#32 = .otherRequest ∧
    decodeRequest 0x01000640#32 = .getDescriptorDevice ∧
    decodeRequest 0x01050680#32 = .getDescriptorDevice ∧
    setupKey [0x80#8, 0x06#8, 0x00#8, 0x01#8] = 0x01000680#32 := by decide

/-- The vectors EV-1 to EV-9 (R104). -/
theorem test_words_events :
    istrRows 0x0400#16 = [.evBusReset] ∧ istrRows 0x8010#16 = [.evCtrEp0 1#1] ∧
    istrRows 0x8001#16 = [.evCtrEpn 1#4 0#1] ∧ istrRows 0x8410#16 = [.evBusReset, .evCtrEp0 1#1] ∧
    epr0Rows 0xAA20#16 = [.evEp0Setup] ∧ epr0Rows 0xA220#16 = [.evEp0Out] ∧
    epr0Rows 0x3AA0#16 = [.evEp0Tx] ∧ epr0Rows 0xAAA0#16 = [.evEp0Setup, .evEp0Tx] ∧
    epr0Rows 0xA2A0#16 = [.evEp0Out, .evEp0Tx] ∧ decodeIstr 0x0000#16 = .error .noIstrEvent ∧
    decodeEpr0 0x3220#16 = .error .noEpr0Event := by decide

/-- The PID bytes of R105, the address and endpoint bytes after them (log entry 11). -/
theorem test_words_bus :
    decodeBus ([0x2D#8, 0x05#8, 0x00#8] ++ getDevice64) = .ok (.busSetup 5#7 0#4 getDevice64) ∧
    decodeBus [0xE1#8, 0x7F#8, 0x0F#8, 0xAA#8] = .ok (.busOut 127#7 15#4 [0xAA#8]) ∧
    decodeBus [0x69#8, 0x00#8, 0x01#8] = .ok (.busIn 0#7 1#4) ∧
    decodeBus [0x00#8] = .ok .busReset := by decide

theorem test_words_bus_rejected :
    decodeBus [] = .error .emptyTransaction ∧ decodeBus [0x2E#8] = .error (.unknownPid 0x2E#8) ∧
    [0xC3#8, 0x4B#8, 0xD2#8, 0x5A#8, 0x1E#8].map (fun b => decodeBus [b]) =
      [0xC3#8, 0x4B#8, 0xD2#8, 0x5A#8, 0x1E#8].map (fun b => .error (.notAToken b)) ∧
    decodeBus [0x69#8, 0x00#8] = .error .truncatedToken ∧
    decodeBus [0x69#8, 0x80#8, 0x00#8] = .error (.addressRange 0x80#8) ∧
    decodeBus [0x69#8, 0x00#8, 0x10#8] = .error (.endpointRange 0x10#8) ∧
    decodeBus [0x69#8, 0x00#8, 0x00#8, 0x00#8] = .error .trailingBytes ∧
    decodeBus [0x2D#8, 0x00#8, 0x00#8] = .error (.setupDataLength 0) ∧
    decodeSetup [0x80#8] = .error (.setupPacketLength 1) := by decide

/-- The PIDs of R105 in the packets of a transaction. -/
theorem test_packets :
    (Observation.setup 0#7 0#4 getDevice64 .ack).packets = [[0x2D#8], [0xC3#8], [0xD2#8]] ∧
    (Observation.out 0#7 0#4 [] .nak).packets = [[0xE1#8], [0xC3#8, 0x4B#8], [0x5A#8]] ∧
    (Observation.inToken 0#7 0#4 (.data [])).packets = [[0x69#8], [0xC3#8, 0x4B#8], [0xD2#8]] ∧
    (Observation.inToken 0#7 0#4 .stall).packets = [[0x69#8], [0x1E#8]] := by decide

/-- The calls of an entry point (R322). -/
theorem test_words_entry :
    decodeInput .enable = .ok .enable ∧ decodeInput .irq = .ok .handler ∧ encode .reset = none := by
  decide

/-- Rows of the opcode table, as words of it (log entries 12, 13). -/
theorem test_table_words :
    decodeTableWord 32 0x00000500 = some (.setAddress 0#8 0#16 0#16 0#16) ∧
    decodeTableWord 16 0x0400 = some .evBusReset ∧ decodeTableWord 16 0x8800 = some .evEp0Setup ∧
    decodeTableWord 16 0x0080 = some .evEp0Tx ∧ decodeTableWord 8 0x69 = some (.busIn 0#7 0#4) := by
  decide

/-- A placed SETUP word is served by the very next step (log entry 13). -/
theorem test_placed_word_runs :
    ends (step (State.reset.withFetchWord 32 0x00030500)) (fun t => t.pending == 3#16) = true := by
  decide +kernel

/-! ### The standard requests -/

/-- CT-1, CT-2: two zero bytes, one zero byte. -/
theorem test_getStatus :
    ends (exec (.getStatus 0x82#8 0#16 0x81#16 2#16) S0)
      (fun t => t.readHalf 2 == 2#16 && t.readBytes 0x10 2 == [0#8, 0#8]) = true ∧
    ends (exec (.getStatus 0x80#8 0#16 0#16 1#16) S0)
      (fun t => t.readHalf 2 == 1#16 && t.readByte 0x10 == 0#8) = true := by decide +kernel

/-- CT-5, CT-7: the whole value is kept and DADDR is not written. -/
theorem test_setAddress :
    ends (exec (.setAddress 0#8 0x0105#16 0#16 0#16) S0) (fun t => t.pending == 0x0105#16 &&
      t.daddr == 0x0080#16 && t.readHalf 2 == 0#16 && t.eprAt 0 == 0x3230#16) = true := by
  decide +kernel

/-- CT-10, CT-11. -/
theorem test_getDescriptorDevice :
    ends (exec (.getDescriptorDevice 0x80#8 0#8 0#16 0x40#16) S0)
      (fun t => t.readHalf 2 == 18#16 && t.readBytes 0x10 18 == dev1) = true ∧
    ends (exec (.getDescriptorDevice 0x80#8 5#8 0#16 8#16) S0)
      (fun t => t.readHalf 2 == 8#16 && t.readBytes 0x10 8 == dev1.take 8) = true := by decide +kernel

/-- CT-17, CT-18. -/
theorem test_getDescriptorConfiguration :
    ends (exec (.getDescriptorConfiguration 0x80#8 0#8 0#16 24#16) S0)
      (fun t => t.readHalf 2 == 24#16 && t.readBytes 0x10 24 == cfg1.take 24) = true ∧
    ends (exec (.getDescriptorConfiguration 0x80#8 1#8 0#16 0xFF#16) S0)
      (fun t => t.eprAt 0 == 0x3210#16 && t.readHalf 2 == 0#16 && t.fault.isNone) = true := by
  decide +kernel

/-- CT-19, CT-20. -/
theorem test_getDescriptorReport :
    ends (exec (.getDescriptorReport 0x81#8 0#8 0#16 3#16) S0)
      (fun t => t.readHalf 2 == 3#16 && t.readBytes 0x10 3 == [0x05#8, 0x01#8, 0x09#8]) = true ∧
    ends (exec (.getDescriptorReport 0x81#8 0#8 0#16 0xFF#16) T0)
      (fun t => t.eprAt 0 == 0x3210#16) = true := by decide +kernel

/-- CT-21, CT-23. -/
theorem test_getDescriptorOther :
    ends (exec (.getDescriptorOther 0x80#8 0x03#8 0#8 0#16 0xFF#16) S0)
      (fun t => t.eprAt 0 == 0x3210#16 && t.pma == S0.pma) = true := by decide +kernel

/-- CT-24, with both values of the parameter. -/
theorem test_setConfiguration :
    ends (exec (.setConfiguration 0#8 7#16 0#16 0#16) S0)
      (fun t => t.eprAt 0 == 0x3230#16 && t.readHalf 2 == 0#16) = true ∧
    ends (exec (.setConfiguration 0#8 1#16 0#16 0#16)
        { S0 with params := { ex1Params with setConfigFallthrough := true } })
      (fun t => t.eprAt 0 == 0x3210#16 && t.readHalf 2 == 0#16) = true := by decide +kernel

/-- CT-26. -/
theorem test_otherRequest :
    ends (exec (.otherRequest 0#8 0x03#8 1#16 0#16 0#16) S0) (fun t => t.eprAt 0 == 0x3210#16) =
      true := by decide +kernel

/-! ### Endpoint-0 events -/

/-- CT-10 and CT-21 from the received packet: staged, stalled; re-armed either way. -/
theorem test_evEp0Setup :
    ends (exec .evEp0Setup (received getDevice64))
      (fun t => t.eprAt 0 == 0x3A30#16 && t.readBytes 0x10 18 == dev1) = true ∧
    ends (exec .evEp0Setup (received getString)) (fun t => t.eprAt 0 == 0x3A10#16) = true := by
  decide +kernel

/-- CT-28. -/
theorem test_evEp0Out :
    ends (exec .evEp0Out { slot S0 0 0xA220#16 with pending := 7#16 })
      (fun t => t.eprAt 0 == 0x3220#16 && t.pending == 7#16) = true := by decide +kernel

/-- CT-29, CT-30. -/
theorem test_evEp0Tx :
    ends (exec .evEp0Tx (slot S0 0 0x3AA0#16))
      (fun t => t.eprAt 0 == 0x3A20#16 && t.daddr == 0x0080#16) = true ∧
    ends (exec .evEp0Tx { slot S0 0 0x3AA0#16 with pending := 5#16 })
      (fun t => t.eprAt 0 == 0x3A20#16 && t.daddr == 0x0085#16 && t.pending == 0#16) = true := by
  decide +kernel

/-- CT-31: receive before transmit, in one call. -/
theorem test_evCtrEp0 :
    ends (exec (.evCtrEp0 1#1) (slot (received setAddress5) 0 0xAAA0#16))
      (fun t => t.eprAt 0 == 0x3A30#16 && t.daddr == 0x0085#16 && t.pending == 0#16) = true := by
  decide +kernel

/-! ### Dispatch -/

/-- DS-2, DS-3. -/
theorem test_evCtrEpn :
    ends (exec (.evCtrEpn 2#4 1#1) S0)
      (fun t => t.fault == some (.dispatchUnregistered 2#4 1#1)) = true ∧
    ends (exec (.evCtrEpn 1#4 1#1) S0)
      (fun t => t.fault == some (.dispatchDirection 1#4 1#1)) = true := by decide +kernel

/-- DS-1, DS-7: the direction is the reported slot's receive flag. -/
theorem test_dispatch :
    ends (exec .dispatch { slot S0 1 0x06A1#16 with handlerDraws := [[.ctr false]] })
      (fun t => t.eprAt 1 == 0x0621#16) = true ∧
    ends (exec .dispatch { slot T0 1 0xA6A1#16 with handlerDraws := [[.ctr false]] })
      (fun t => t.eprAt 1 == 0x26A1#16) = true := by decide +kernel

/-- The example of R155, and a write outside the footprint. -/
theorem test_extHandler :
    ends (exec (.extHandler 1#4 .dirIn) { slot S0 1 0x06A1#16 with
        handlerDraws := [[.ctr false, .byte 0x90 7#8, .count 8#10, .stat .valid]] })
      (fun t => t.eprAt 1 == 0x0631#16 && t.readByte 0x90 == 7#8 && t.readHalf 10 == 8#16 &&
        t.fault.isNone) = true ∧
    ends (exec (.extHandler 1#4 .dirIn) { S0 with handlerDraws := [[.stat .valid, .byte 0x98 7#8]] })
      (fun t => t.eprAt 1 == 0x0631#16 && t.fault == some (.unmodelled .extHandler)) = true := by
  decide +kernel

/-! ### Device Controller -/

/-- DV-1, DV-6. -/
theorem test_enable :
    ends (exec .enable State.reset) (fun t => t.pma == S0.pma && t.cntr == 0x8400#16 && t.irqEn &&
      t.enabled && t.pullup && t.daddr == 0#16 && !t.handlerEnabled) = true ∧
    ends (exec .enable E0) (fun t => t.fault == some (.unmodelled .enable)) = true := by
  decide +kernel

/-- DV-3, DV-4. -/
theorem test_reset :
    ends (exec .reset { T0 with epr := Vector.replicate 8 0#16, istr := 0x0400#16, daddr := 0#16 })
      (fun t => t == T0) = true ∧
    ends (exec .reset { S0 with
        pending := 7#16
        params := { ex1Params with resetClearsPending := true } })
      (fun t => t.pending == 0#16) = true := by decide +kernel

/-- DV-2, as the event. -/
theorem test_evBusReset :
    ends (exec .evBusReset { E0 with istr := 0x0400#16, pending := 7#16 })
      (fun t => t == { S0 with pending := 7#16 }) = true := by decide +kernel

/-- R243. -/
theorem test_ep0Reset :
    ends (exec .ep0Reset (slot S0 0 0xFFFF#16)) (fun t => t == S0) = true := by decide +kernel

/-- DV-3: the halves of one slot, and a slot of the other configuration. -/
theorem test_configReset :
    ends (exec (.configReset (ex2Configuration 1#8 [⟨1#4, .dirIn, .interrupt, 8#16, 10#8⟩, ex2Out1])) E0)
      (fun t => t.eprAt 1 == 0x3621#16 && t.eprAt 2 == 0#16) = true := by decide +kernel

/-- The example of R245, EV-4: Reset, then no dispatch. -/
theorem test_handler :
    ends (exec .handler (received getDevice64)) (fun t => t.eprAt 0 == 0x3A30#16) = true ∧
    ends (exec .handler { received getDevice64 with istr := 0x0400#16 })
      (fun t => t.eprAt 0 == 0x3220#16 && t.istr == 0#16) = true := by decide +kernel

/-- R246. -/
theorem test_ackInterrupt : ends (exec .ackInterrupt S0) (fun t => t == S0) = true := by decide +kernel

/-! ### Endpoint Buffer Manager -/

/-- BM-1. -/
theorem test_sizes :
    [1, 7, 8, 32, 62, 63, 64, 65, 1023].map rxSize = [2, 8, 8, 32, 62, 64, 64, 96, 1024] ∧
    [1, 7, 8, 32, 62, 63, 64, 65, 1023].map rxCountInit =
      [0x0400#16, 0x1000#16, 0x1000#16, 0x4000#16, 0x7C00#16, 0x8400#16, 0x8400#16, 0x8800#16,
       0xFC00#16] := by decide

/-- BM-2, BM-4. -/
theorem test_bmAllocate :
    ends (exec .bmAllocate S0) (fun t => t.result == .allocation
      ⟨1, [⟨0x10, 64, 0x50, 0x8400#16⟩, ⟨0x90, 8, 0, 0#16⟩], 0x98⟩) = true ∧
    ends (exec .bmAllocate { S0 with cfg := { ex1 with configs := [] } })
      (fun t => t.result == .allocation ⟨0, [⟨8, 64, 0x48, 0x8400#16⟩], 0x88⟩) = true := by
  decide +kernel

/-- BM-3. -/
theorem test_bmInit :
    ends (exec .bmInit { T0 with pma := [] }) (fun t => t.pma == T0.pma) = true := by decide +kernel

/-- X-1, X-3, X-4, BM-5. -/
theorem test_config_checks :
    configErrors ex1 = [] ∧ configErrors ex2 = [] ∧
    configErrors { ex1 with mps0 := 8#8 } = [.responseExceedsMps0] ∧
    configErrors { ex1 with mps0 := 48#8 } = [.mpsRange] ∧
    configErrors { ex1 with mps0 := 32#8 } = [] ∧
    configErrors { ex1 with configs := ex1.configs ++
      [ex2Configuration 2#8 [⟨2#4, .dirOut, .isochronous, 1023#16, 1#8⟩]] } = [.pmaOverflow] := by
  decide +kernel

/-- EX1 with other sizes of R8: its configuration descriptor has 25 bytes, its last buffer ends at 0x98,
and it declares endpoint 1. -/
def ex1Sized (sizes : Sizes) : StaticConfig := { ex1 with sizes := sizes }

/-- I19: the checks of R298 use the sizes that are given, each at its limit. -/
theorem test_sizes_are_parameters :
    configErrors (ex1Sized ⟨25, 1, 0x98⟩) = [] ∧
    configErrors (ex1Sized ⟨24, 1, 0x98⟩) = [.scratchOverflow] ∧
    configErrors (ex1Sized ⟨25, 0, 0x98⟩) = [.endpointNumber] ∧
    configErrors (ex1Sized ⟨25, 1, 0x97⟩) = [.pmaOverflow] := by decide +kernel

/-- R33, I19: with NUM_EP_SLOTS = 2 slot 1 is reported and slot 2 is not; with PMA_SIZE = 0x90 endpoint 0's
transmit buffer, 64 bytes from 0x10, is in packet memory and its receive buffer, from 0x50, ends there. -/
theorem test_sizes_bound_the_accesses :
    let s : State := { S0 with cfg := ex1Sized ⟨64, 1, 0x90⟩ }
    (slot s 1 0x06A1#16).pendingSet = [1] ∧ (slot s 2 0x06A2#16).pendingSet = [] ∧
    s.accessOk 0x50 64 = true ∧ s.accessOk 0x52 64 = false := by decide +kernel

/-- X-6 to X-9. -/
theorem test_endpoint_checks :
    configErrors { ex1 with configs := ex1.configs ++
      [ex2Configuration 2#8 [⟨1#4, .dirIn, .interrupt, 8#16, 1#8⟩]] } = [.duplicateEndpoint] ∧
    configErrors { ex1 with configs := ex1.configs ++
      [ex2Configuration 2#8 [⟨1#4, .dirOut, .bulk, 8#16, 1#8⟩]] } = [.duplicateEndpoint] ∧
    configErrors { ex1 with configs := [ex2Configuration 2#8 [⟨8#4, .dirIn, .bulk, 8#16, 1#8⟩]] } =
      [.endpointNumber] ∧
    configErrors { ex1 with configs := [ex2Configuration 2#8 [⟨1#4, .dirIn, .interrupt, 65#16, 1#8⟩]] } =
      [.mpsRange] := by decide +kernel

/-! ### Descriptor Composer -/

/-- The configuration of X-11. -/
def manyConfigs : StaticConfig :=
  { ex1 with configs := List.replicate 256 { ex2Configuration 1#8 [] with interfaces := [] } }

/-- DC-1, X-11. -/
theorem test_deviceDescriptorBytes :
    ends (exec .deviceDescriptorBytes S0) (fun t => t.result == .bytes dev1) = true ∧
    exec .deviceDescriptorBytes { S0 with cfg := manyConfigs } =
      .refused (.configRefused [.fieldRange]) :=
  have h : descriptorErrors manyConfigs = [.fieldRange] := by decide +kernel
  ⟨by decide +kernel, by simp only [exec, execDeviceDescriptorBytes, h]⟩

/-- DC-2, DC-5, DC-7. -/
theorem test_composeConfig :
    (∀ c ∈ ex1.configs, composeConfig c = cfg1) ∧
    ifaceBytes { ex2Interface [] with ifClass := 3#8, classBlob := [0x09#8, 0x21#8] } =
      [0x09#8, 0x04#8, 0x00#8, 0x00#8, 0x00#8, 0x03#8, 0x00#8, 0x00#8, 0x00#8, 0x09#8, 0x21#8] ∧
    epRecord ⟨3#4, .dirOut, .isochronous, 1023#16, 1#8⟩ =
      [0x07#8, 0x05#8, 0x03#8, 0x01#8, 0xFF#8, 0x03#8, 0x01#8] := by decide +kernel

/-- DC-4. -/
theorem test_composeConfig_empty :
    ends (exec (.composeConfig { ex2Configuration 1#8 [] with
        interfaces := [], bmAttributes := 0xC0#8, bMaxPower := 0#8 }) S0)
      (fun t => t.result == .bytes [0x09#8, 0x02#8, 0x09#8, 0x00#8, 0x00#8, 0x01#8, 0x00#8, 0xC0#8,
        0x00#8]) = true := by decide +kernel

/-! ### Primitives -/

/-- CT-2: the byte after an odd response is the environment's draw; CT-3: nothing is written. -/
theorem test_send :
    ends (exec (.send [0xAA#8, 0xBB#8] 1#16) { S0 with padDraws := [0x5A#8] })
      (fun t => t.readBytes 0x10 2 == [0xAA#8, 0x5A#8] && t.readHalf 2 == 1#16) = true ∧
    ends (exec (.send [0xAA#8, 0xBB#8] 0#16) S0)
      (fun t => t.pma == S0.pma && t.eprAt 0 == 0x3230#16) = true := by decide +kernel

/-- R172. -/
theorem test_stallTx :
    ends (exec .stallTx (slot S0 0 0x3A30#16)) (fun t => t == slot S0 0 0x3A10#16) = true := by
  decide +kernel

/-! ### The bus -/

/-- The example of R263, B-3. -/
theorem test_busSetup :
    ends (exec (.busSetup 0#7 0#4 getDevice64) S0) (fun t => t.readBytes 0x50 8 == getDevice64 &&
      t.readHalf 6 == 0x8408#16 && t.eprAt 0 == 0xAA20#16 && t.istrView == 0x8010#16) = true ∧
    ends (exec (.busSetup 0#7 1#4 getDevice64) S0)
      (fun t => t == { S0 with hist := [.setup 0#7 1#4 getDevice64 .noResponse] }) = true := by
  decide +kernel

/-- DS-5, B-6. -/
theorem test_busOut :
    ends (exec (.busOut 0#7 1#4 [0xAA#8, 0xBB#8]) T0) (fun t => t.readBytes 0x60 2 == [0xAA#8, 0xBB#8] &&
      t.readHalf 14 == 0x1002#16 && t.eprAt 1 == 0xA621#16 && t.istrView == 0x8011#16) = true ∧
    ends (exec (.busOut 0#7 0#4 (List.replicate 65 0#8)) S0) (fun t => t.epr == S0.epr &&
      t.pma == S0.pma && t.hist == [.out 0#7 0#4 (List.replicate 65 0#8) .noResponse]) = true := by
  decide +kernel

/-- B-8, and P2 step 3: a zero-length status stage. -/
theorem test_busIn :
    ends (exec (.busIn 0#7 0#4) (slot S0 0 0x3A10#16))
      (fun t => t.eprAt 0 == 0x3A10#16 && t.hist == [.inToken 0#7 0#4 .stall]) = true ∧
    ends (exec (.busIn 0#7 0#4) { slot S0 0 0x3A30#16 with pending := 5#16 })
      (fun t => t.eprAt 0 == 0x3AA0#16 && t.daddr == 0x0080#16 &&
        t.hist == [.inToken 0#7 0#4 (.data [])]) = true := by decide +kernel

/-- B-14, DV-7. -/
theorem test_busReset :
    ends (exec .busReset { S0 with pending := 7#16 }) (fun t => t == { S0 with
      pending := 7#16, daddr := 0#16, istr := 0x0400#16, epr := Vector.replicate 8 0#16,
      hist := [.busReset] }) = true ∧
    ends (exec .busReset State.reset) (fun t => t == State.reset) = true := by decide +kernel

/-- X-12: a faulted block takes no Handler step, and the bus still moves. -/
theorem test_fault_is_sticky :
    ({ received getDevice64 with fault := some (.unmodelled .enable) } : State).handlerEnabled = false ∧
    ends (step { received getDevice64 with
        fault := some (.unmodelled .enable), inputs := [.irq, .bus [0x00#8]] })
      (fun t => t.inputs == [.bus [0x00#8]] && t.eprAt 0 == 0xAA20#16) = true := by decide +kernel

/-! ### States that meet the hypotheses of the statements

For each statement with hypotheses, a state and operands that meet all of them together. -/

/-- The parts of `Ready` that can be computed. -/
def readyCheck (s : State) : Bool :=
  (configErrors s.cfg).isEmpty && s.enabled && Memory.wf s.cfg.pmaSize s.pma && s.btable == bdtBase &&
  s.istr &&& ~~~Istr.storedMask == 0#16 && s.daddr &&& 0xFF00#16 == 0#16 &&
  s.cntr == cntrBaseline && s.irqEn && s.pullupLine &&
  (List.range (maxSlot s.cfg + 1)).all (fun n =>
    s.readHalf (bdtBase.toNat + 8 * n) == BitVec.ofNat 16 (slotAlloc s.cfg n).addrTx &&
    s.readHalf (bdtBase.toNat + 8 * n + 4) == BitVec.ofNat 16 (slotAlloc s.cfg n).addrRx &&
    field (s.readHalf (bdtBase.toNat + 8 * n + 6)) 10 6 == field (slotAlloc s.cfg n).countRxInit 10 6) &&
  allSlots.all (fun n =>
    (Epr.epType (s.eprAt n) != epTypeControl || n == 0) &&
    [Dir.dirIn, Dir.dirOut].all (fun d => registered s.cfg (BitVec.ofNat 4 n.val) d ||
      (halfStat d (s.eprAt n) == .disabled && !halfCompletion d (s.eprAt n))))

theorem ready_of_check {s : State} (h : readyCheck s = true) : Ready s := by
  simp only [readyCheck, Bool.and_eq_true, List.all_eq_true, List.isEmpty_iff, List.mem_range,
    beq_iff_eq, Bool.or_eq_true, bne_iff_ne, Bool.not_eq_true'] at h
  obtain ⟨⟨⟨⟨⟨⟨⟨⟨⟨⟨hc, he⟩, hm⟩, hb⟩, hi⟩, hd⟩, hn⟩, hq⟩, hp⟩, ht⟩, hs⟩ := h
  have hs' := fun n : Fin 8 => hs n (by revert n; decide)
  exact {
    accepted := hc
    enabled := he
    inv := {
      memory := hm
      base := hb
      reserved := ⟨hi, hd⟩
      table := fun _ n hn => and_assoc.1 (ht n (by omega))
      powered := fun _ => ⟨hn, hq, hp⟩
      slots := fun n d hr => by
        have h := (hs' n).2 d (by cases d <;> simp)
        simpa [hr] using h
      control := fun n hcl => by
        have h := (hs' n).1
        simpa [hcl] using h } }

theorem ready_S0 : Ready S0 := ready_of_check (by decide +kernel)
theorem ready_T0 : Ready T0 := ready_of_check (by decide +kernel)
theorem ready_E0 : Ready E0 := ready_of_check (by decide +kernel)
theorem ready_received : Ready (received getDevice64) := ready_of_check (by decide +kernel)

/-- SET_ADDRESS received while an In completion waits (P5 step 6). -/
def early : State := slot (received setAddress5) 0 0xAAA0#16
theorem ready_early : Ready early := ready_of_check (by decide +kernel)

theorem waiting_S0 : WaitingAt S0 0#7 where
  ready := ready_S0
  noFault := rfl
  noReset := by decide
  noEvent := by decide +kernel
  daddr := by decide
  ea := by decide +kernel
  type := by decide +kernel
  rx := by decide +kernel
  tx := by decide +kernel

theorem witness_DecodeOfEncode : WellFormed (.setAddress 0#8 5#16 0#16 0#16) ∧
    encode (.setAddress 0#8 5#16 0#16 0#16) = some (.setup setAddress5) := by decide

theorem witness_EncodeOfDecode :
    decode (.istr 0x8011#16) = .ok (.evCtrEpn 1#4 1#1) ∧
    decode (.setup setAddress5) = .ok (.setAddress 0#8 5#16 0#16 0#16) ∧
    decode (.input (.bus [0x69#8, 0x05#8, 0x01#8])) = .ok (.busIn 5#7 1#4) := by decide

/-- Two slots that exist pending, and none. -/
theorem witness_IstrViewReportsPendingSlots :
    (1 : Fin 8).val < (slot early 1 0x06A1#16).cfg.numEpSlots ∧
    Istr.ctr (slot early 1 0x06A1#16).istrView = true ∧
    Epr.ctrRx ((slot early 1 0x06A1#16).eprAt 0) = true ∧
    Epr.ctrTx ((slot early 1 0x06A1#16).eprAt 1) = true ∧ Istr.ctr S0.istrView = false := by
  refine ⟨by decide, ?_, by decide +kernel, by decide +kernel, by decide +kernel⟩
  have hp : (slot early 1 0x06A1#16).istrCtr = true := by decide +kernel
  simp [State.istrView, hp, Istr.ctr]

theorem witness_EprFieldWritesAreRealisable :
    (Epr.ctrRx 0x3A30#16 = true → Epr.ctrRx 0xAA20#16 = true) ∧
    (Epr.ctrTx 0x3A30#16 = true → Epr.ctrTx 0xAA20#16 = true) ∧
    Epr.setupFlag 0x3A30#16 = Epr.setupFlag 0xAA20#16 := by decide

theorem witness_StepRunsTheScheduledOperation :
    Accepted (received getDevice64).cfg ∧
    ({ received getDevice64 with inputs := [.irq] } : State).inputs = .irq :: [] ∧
    ({ received getDevice64 with inputs := [.irq] } : State).inputEnabled .irq = true ∧
    decode (.input .irq) = .ok .handler := by decide +kernel

theorem witness_StepWithoutAnEnabledInput :
    Accepted S0.cfg ∧ ({ S0 with inputs := [.irq] } : State).inputEnabled .irq = false ∧
    (received getDevice64).inputs = [] ∧ (received getDevice64).handlerEnabled = true ∧
    S0.inputs = [] ∧ S0.handlerEnabled = false := by decide +kernel

theorem witness_ConfigurationRefusals :
    ¬ Accepted ({ S0 with cfg := { ex1 with mps0 := 8#8 } } : State).cfg := by decide +kernel

/-- For SendStages, GetStatusStagesZeros, SetAddressDefersTheAddress, GetDescriptorDeviceStages and
SetConfigurationAcknowledges: the largest response, and the zero-length one. -/
theorem witness_Ep0TxReady : Ep0TxReady S0 (stagedLength (List.replicate 64 0#8) 0xFFFF#16) ∧
    Ep0TxReady S0 0 ∧ Ep0TxReady S0 (min (0x40#16 : Half).toNat 2) ∧
    Ep0TxReady S0 (min (0x40#16 : Half).toNat 18) := by
  refine ⟨⟨?_, ?_, ?_, ?_⟩, ⟨?_, ?_, ?_, ?_⟩, ⟨?_, ?_, ?_, ?_⟩, ⟨?_, ?_, ?_, ?_⟩⟩ <;> decide +kernel

/-- ADDR_TX(0) = 0x1F0, and 18 bytes. -/
theorem witness_SendOutsideMemoryFaults :
    let s := S0.writeHalf 0 0x01F0#16
    s.accessOk (s.bdt 0) 2 = true ∧ s.accessOk s.txAddr0 (stagedLength dev1 0x40#16) = false ∧
    s.fault = none := by decide +kernel

theorem witness_GetDescriptorConfigurationStages :
    (∃ c, S0.cfg.configs[(0#8 : Byte).toNat]? = some c ∧
      Ep0TxReady S0 (min (0xFF#16 : Half).toNat (configTotal c))) ∧
    S0.cfg.configs.length ≤ (1#8 : Byte).toNat :=
  ⟨⟨_, rfl, ⟨by decide +kernel, by decide +kernel, by decide +kernel, by decide +kernel⟩⟩, by decide⟩

theorem witness_GetDescriptorReportStages :
    (∃ c blob, S0.cfg.configs = [] ++ c :: [] ∧ c.reportBlob = some blob ∧
      Ep0TxReady S0 (min (0xFF#16 : Half).toNat blob.length)) ∧
    ∀ c ∈ T0.cfg.configs, c.reportBlob = none :=
  ⟨⟨_, _, rfl, rfl, ⟨by decide +kernel, by decide +kernel, by decide +kernel, by decide +kernel⟩⟩, by decide⟩

theorem witness_SetConfigurationAcknowledges :
    S0.params.setConfigFallthrough = false ∧
    ∃ s : State, Ep0TxReady s 0 ∧ s.params.setConfigFallthrough = true :=
  ⟨rfl, { S0 with params := { ex1Params with setConfigFallthrough := true } },
    ⟨by decide +kernel, by decide +kernel, by decide +kernel, by decide +kernel⟩, rfl⟩

theorem witness_ReadyBlockNeverOverruns :
    Ready (received getDevice64) ∧
    decode (.setup getDevice64) = .ok (.getDescriptorDevice 0x80#8 0x00#8 0x0000#16 0x0040#16) ∧
    getDevice64.length = 8 ∧ (List.replicate 1023 0#8 : List Byte).length ≤ 1023 :=
  ⟨ready_received, by decide, rfl, by rw [List.length_replicate]⟩

theorem witness_SetupStageRunsTheRequest :
    Ep0RxReady (received getString) ∧ (received getString).fault = none ∧
    decode (.setup ((received getString).readBytes (received getString).rxAddr0 8)) =
      .ok (.getDescriptorOther 0x80#8 0x03#8 0x00#8 0x0000#16 0x00FF#16) ∧
    ∃ t, exec (.getDescriptorOther 0x80#8 0x03#8 0x00#8 0x0000#16 0x00FF#16)
      (received getString).clearCtrRx0 = .next t ∧ t.fault = none :=
  ⟨⟨by decide +kernel, by decide +kernel⟩, rfl, by decide +kernel, _, rfl, rfl⟩

theorem witness_SetupStageCompletes : Ready (received getDevice64) := ready_received

theorem witness_TxStageCommitsTheAddress :
    ({ slot S0 0 0x3AA0#16 with pending := 0x0080#16 } : State).pending ≠ 0#16 ∧
    (slot S0 0 0x3AA0#16).pending = 0#16 := by decide

theorem witness_Ep0HandlerOrder :
    (Epr.ctrRx (S0.eprAt 0) = false ∧ Epr.ctrTx (S0.eprAt 0) = false) ∧
    (Epr.ctrRx ((slot S0 0 0x3AA0#16).eprAt 0) = false ∧
      Epr.ctrTx ((slot S0 0 0x3AA0#16).eprAt 0) = true) ∧
    early.fault = none ∧ Epr.ctrRx (early.eprAt 0) = true ∧
    ends (exec (if Epr.setupFlag (early.eprAt 0) then .evEp0Setup else .evEp0Out) early)
      (fun u => u.fault == none) = true := by decide +kernel

theorem witness_Ep0HandlerCompletes :
    Ready early ∧ Epr.ctrRx (early.eprAt 0) = true := ⟨ready_early, by decide +kernel⟩

theorem witness_EarlyCommitInOneCall :
    Ready early ∧ Epr.ctrRx (early.eprAt 0) = true ∧ Epr.setupFlag (early.eprAt 0) = true ∧
    Epr.ctrTx (early.eprAt 0) = true ∧ (5#16 : Half) ≠ 0#16 ∧
    decode (.setup (early.readBytes early.rxAddr0 8)) = .ok (.setAddress 0#8 5#16 0#16 0#16) :=
  ⟨ready_early, by decide +kernel, by decide +kernel, by decide +kernel, by decide, by decide +kernel⟩

/-- A slot with its receive flag set (DS-5), and endpoint 0 (B-11). -/
theorem witness_DispatchRunsTheReportedEvent :
    let s := slot T0 1 0xA621#16
    let r := slot S0 0 0x3AA0#16
    (Istr.resetFlag s.istr = false ∧ Istr.ctr s.istrView = true ∧
      decode (.istr s.istrView) = .ok (.evCtrEpn 1#4 1#1)) ∧
    (Istr.resetFlag r.istr = false ∧ Istr.ctr r.istrView = true ∧
      decode (.istr r.istrView) = .ok (.evCtrEp0 0#1)) := by decide +kernel

theorem witness_DispatchFaults :
    S0.fault = none ∧ (2#4 : BitVec 4) ≠ 0#4 ∧ (∀ e ∈ declaredEndpoints S0.cfg, e.number ≠ 2#4) ∧
    (∃ e ∈ declaredEndpoints S0.cfg, e.number = 1#4) ∧
    (∀ e ∈ declaredEndpoints S0.cfg, e.number = 1#4 →
      e.dir ≠ if (1#1 : BitVec 1) = 1#1 then .dirOut else .dirIn) := by decide

/-- The Out endpoint of EX2, and a handler that clears the flag and re-arms (P6). -/
theorem witness_ExtHandlerFrame :
    Ready T0 ∧ ex2Out1 ∈ declaredEndpoints T0.cfg ∧
    ∀ fp, DrawsAdmitted fp { T0 with handlerDraws := [[.ctr false, .stat .valid]] } := by
  refine ⟨ready_T0, by decide, fun fp ws hws w hw => ?_⟩
  simp at hws
  subst hws
  simp at hw
  rcases hw with rfl | rfl <;> rfl

theorem witness_ExtHandlerReachesEveryValue :
    Ready T0 ∧ ex2Out1 ∈ declaredEndpoints T0.cfg ∧
    (List.replicate 8 0x5A#8 : List Byte).length = bufferSize ex2Out1 :=
  ⟨ready_T0, by decide, by decide⟩

/-- The first offset after the buffer, and any other register. -/
theorem witness_ExtHandlerOutsideFootprintFaults :
    Ready T0 ∧ T0.fault = none ∧ ex2Out1 ∈ declaredEndpoints T0.cfg ∧
    (1 : Fin 8).val = ex2Out1.number.toNat ∧ ∃ fp, footprint 1 ex2Out1.dir T0 = .ok fp ∧
      (∀ x ∈ [HandlerWrite.ctr false, .byte 0x67 1#8], fp.admits x = true) ∧
      fp.admits (.byte 0x68 1#8) = false ∧ fp.admits (.reg .daddr 0#16) = false :=
  ⟨ready_T0, rfl, by decide, by decide, ⟨1, .dirOut, 14, 0x60, 8, 512⟩, by decide +kernel, by decide,
    by decide, by decide⟩

theorem witness_DispatchCompletes :
    let s := received getDevice64
    Ready s ∧ s.fault = none ∧ s.handlerDraws = [] ∧ Istr.ctr s.istrView = true ∧
      Istr.resetFlag s.istr = false :=
  ⟨ready_received, rfl, rfl, by decide +kernel, by decide +kernel⟩

theorem witness_EnableRunsOnce :
    Accepted State.reset.cfg ∧ State.reset.enabled = false ∧
    Accepted S0.cfg ∧ S0.enabled = true ∧ S0.fault = none := by decide +kernel

/-- A declared half, one that is not, and a slot no endpoint names. -/
theorem witness_ResetReinitialises :
    Accepted T0.cfg ∧ ex2Out1 ∈ declaredEndpoints T0.cfg ∧ (1 : Fin 8).val = ex2Out1.number.toNat ∧
    registered T0.cfg (BitVec.ofNat 4 (2 : Fin 8).val) .dirIn = false ∧
    (3 : Fin 8) ≠ 0 ∧ (∀ e ∈ declaredEndpoints T0.cfg, (3 : Fin 8).val ≠ e.number.toNat) := by
  decide +kernel

theorem witness_DeviceDescriptorLayout :
    S0.cfg.configs.length ≤ 255 ∧ 255 < ({ S0 with cfg := manyConfigs } : State).cfg.configs.length := by
  decide +kernel

theorem witness_ResetIsIdempotent : ∃ t, exec .reset S0 = .next t :=
  (ends_next (check := fun _ => true) (by decide +kernel)).imp fun _ h => h.1

/-- Both directions of one slot. -/
theorem witness_ConfigResetWritesDeclaredHalves :
    let c := ex2Configuration 1#8 [⟨1#4, .dirIn, .interrupt, 8#16, 10#8⟩, ex2Out1]
    WellFormed (.configReset c) ∧
    (∃ e ∈ c.endpoints, (ex1Sized ⟨64, 0, 512⟩).numEpSlots ≤ e.number.toNat) ∧
    (∀ e ∈ c.endpoints, e.number.toNat < S0.cfg.numEpSlots) ∧
    (∀ e ∈ c.endpoints, ∀ f ∈ c.endpoints, e.number = f.number → e.epType = f.epType) ∧
    ex2Out1 ∈ c.endpoints ∧ (∀ e ∈ c.endpoints, (2 : Fin 8).val ≠ e.number.toNat) := by decide

theorem witness_HandlerOrder :
    (Istr.resetFlag S0.istrView = false ∧ Istr.ctr S0.istrView = false) ∧
    (Istr.resetFlag (received getDevice64).istrView = false ∧
      Istr.ctr (received getDevice64).istrView = true) ∧
    (Accepted E0.cfg ∧ Istr.resetFlag ({ E0 with istr := 0x0400#16 } : State).istrView = true) := by
  decide +kernel

/-- The ends of the range, and both sides of the change of block size. -/
theorem witness_RxSizeIsTheSmallestCapacity :
    ∀ m ∈ [1, 62, 63, 1023], 1 ≤ m ∧ m ≤ 1023 ∧ m ≤ rxCapOf 0xFC00#16 := by decide

theorem witness_AllocationProperties :
    Accepted T0.cfg ∧ ex2Out1 ∈ declaredEndpoints T0.cfg := by decide +kernel

theorem witness_BmInitWritesTheTable :
    Accepted T0.cfg ∧ 2 ≤ maxSlot T0.cfg ∧ ¬ InRange 24 0 (8 * (maxSlot T0.cfg + 1)) := by
  refine ⟨by decide +kernel, by decide, ?_⟩
  rintro ⟨_, h⟩
  exact absurd h (by decide)

theorem witness_ComposeConfigStream :
    let c := ex2Configuration 1#8 [⟨1#4, .dirIn, .interrupt, 8#16, 10#8⟩, ex2Out1]
    configTotal c ≤ T0.cfg.scratchCap ∧ configTotal c ≤ T0.cfg.mps0.toNat := by decide +kernel

/-- Another address; an endpoint number no slot answers; in EX2, a slot that answers an OUT and no IN, and
one that answers and is not CONTROL. -/
theorem witness_UnansweredTokensOnlyObserve :
    S0.forThisDevice 5#7 = false ∧
    (∀ n : Fin 8, n.val < S0.cfg.numEpSlots → Epr.ea (S0.eprAt n) ≠ 2#4 ∨ Epr.statRx (S0.eprAt n) = .disabled) ∧
    (∀ n : Fin 8, n.val < S0.cfg.numEpSlots → Epr.ea (S0.eprAt n) ≠ 2#4 ∨ Epr.statTx (S0.eprAt n) = .disabled) ∧
    (∀ n : Fin 8, n.val < T0.cfg.numEpSlots → Epr.ea (T0.eprAt n) ≠ 2#4 ∨ Epr.statTx (T0.eprAt n) = .disabled) ∧
    T0.slotFor 2#4 .dirOut = some 2 ∧
    (T0.slotFor 1#4 .dirOut = some 1 ∧ Epr.epType (T0.eprAt 1) ≠ 0b01#2) ∧
    getDevice64.length = 8 := by decide +kernel

theorem witness_BusSetupIsAccepted :
    getDevice64.length = 8 ∧ S0.forThisDevice 0#7 = true ∧ S0.slotFor 0#4 .dirOut = some 0 ∧
    Epr.epType (S0.eprAt 0) = 0b01#2 ∧ S0.accessOk (S0.bdt (0 : Fin 8).val + 4) 2 = true ∧
    S0.accessOk (S0.bdt (0 : Fin 8).val + 6) 2 = true ∧
    S0.accessOk (S0.readHalf (S0.bdt (0 : Fin 8).val + 4)).toNat 8 = true ∧
    (∀ x, ¬ (InRange x (S0.readHalf (S0.bdt (0 : Fin 8).val + 4)).toNat 8 ∧
      InRange x (S0.bdt (0 : Fin 8).val + 6) 2)) := by
  refine ⟨rfl, by decide +kernel, by decide +kernel, by decide +kernel, by decide +kernel,
    by decide +kernel, by decide +kernel, ?_⟩
  have h : (S0.readHalf (S0.bdt (0 : Fin 8).val + 4)).toNat = 0x50 := by decide +kernel
  have h' : S0.bdt (0 : Fin 8).val + 6 = 6 := by decide +kernel
  rw [h, h']
  rintro x ⟨⟨h1, _⟩, _, h2⟩
  omega

/-- Each status, a packet of exactly the capacity, and one that is a byte too long. -/
theorem witness_BusOutByStatus :
    let p : List Byte := List.replicate 64 0#8
    let q : List Byte := List.replicate 65 0#8
    p.length ≤ 1023 ∧ S0.forThisDevice 0#7 = true ∧ S0.slotFor 0#4 .dirOut = some 0 ∧
    Epr.statRx (S0.eprAt 0) = .valid ∧ S0.accessOk (S0.bdt (0 : Fin 8).val + 6) 2 = true ∧
    p.length ≤ rxCapOf (S0.readHalf (S0.bdt (0 : Fin 8).val + 6)) ∧
    S0.accessOk (S0.bdt (0 : Fin 8).val + 4) 2 = true ∧
    S0.accessOk (S0.readHalf (S0.bdt (0 : Fin 8).val + 4)).toNat p.length = true ∧
    (∀ x, ¬ (InRange x (S0.readHalf (S0.bdt (0 : Fin 8).val + 4)).toNat (p.length + p.length % 2) ∧
      InRange x (S0.bdt (0 : Fin 8).val + 6) 2)) ∧
    rxCapOf (S0.readHalf (S0.bdt (0 : Fin 8).val + 6)) < q.length ∧
    Epr.statRx ((slot S0 0 0x1220#16).eprAt 0) = .stall ∧
    (slot S0 0 0x1220#16).slotFor 0#4 .dirOut = some 0 ∧
    Epr.statRx ((slot S0 0 0xAA20#16).eprAt 0) = .nak ∧
    (slot S0 0 0xAA20#16).slotFor 0#4 .dirOut = some 0 := by
  intro p q
  refine ⟨by decide, by decide +kernel, by decide +kernel, by decide +kernel, by decide +kernel,
    by decide +kernel, by decide +kernel, by decide +kernel, ?_, by decide +kernel, by decide +kernel,
    by decide +kernel, by decide +kernel, by decide +kernel⟩
  have h : (S0.readHalf (S0.bdt (0 : Fin 8).val + 4)).toNat = 0x50 := by decide +kernel
  have h' : S0.bdt (0 : Fin 8).val + 6 = 6 := by decide +kernel
  rw [h, h']
  rintro x ⟨⟨h1, _⟩, _, h2⟩
  omega

/-- Each status; the VALID one with COUNT_TX(0) = 0. -/
theorem witness_BusInByStatus :
    let v := slot S0 0 0x3A30#16
    v.forThisDevice 0#7 = true ∧ v.slotFor 0#4 .dirIn = some 0 ∧ Epr.statTx (v.eprAt 0) = .valid ∧
    v.accessOk (v.bdt (0 : Fin 8).val) 2 = true ∧ v.accessOk (v.bdt (0 : Fin 8).val + 2) 2 = true ∧
    v.accessOk (v.readHalf (v.bdt (0 : Fin 8).val)).toNat
      (field (v.readHalf (v.bdt (0 : Fin 8).val + 2)) 0 10).toNat = true ∧
    S0.slotFor 0#4 .dirIn = some 0 ∧ Epr.statTx (S0.eprAt 0) = .nak ∧
    (slot S0 0 0x3A10#16).slotFor 0#4 .dirIn = some 0 ∧
    Epr.statTx ((slot S0 0 0x3A10#16).eprAt 0) = .stall := by decide +kernel

theorem witness_BusResetClearsTheDevice : S0.attached = true ∧ State.reset.attached = false := by
  decide

/-- A step from a state of the invariant, without a recorded fault. -/
theorem witness_StepKeepsInv : Inv (received getDevice64) ∧ (received getDevice64).fault = none ∧
    ∃ t, step (received getDevice64) = .next t :=
  ⟨ready_received.inv, rfl,
    (ends_next (check := fun _ => true) (by decide +kernel)).imp fun _ h => h.1⟩

/-- The flags set, and a recorded fault. -/
theorem witness_StickyFlags :
    S0.enabled = true ∧ S0.irqEn = true ∧ S0.pullupLine = true ∧
    (∃ t, step { S0 with fault := some (.unmodelled .enable) } = .next t) ∧
    ∃ t, step S0 = .next t :=
  ⟨rfl, rfl, rfl, (ends_next (check := fun _ => true) (by decide +kernel)).imp fun _ h => h.1,
    (ends_next (check := fun _ => true) (by decide +kernel)).imp fun _ h => h.1⟩

theorem witness_FaultStopsTheBlock : ∃ s t : State, s.fault ≠ none ∧ step s = .next t ∧
    t.hist ≠ s.hist :=
  have ⟨t, h, ht⟩ := ends_next (o := step { S0 with
    fault := some (.unmodelled .enable), inputs := [.bus [0x00#8]] })
    (check := fun t => t.hist != S0.hist) (by decide +kernel)
  ⟨_, t, by decide, h, by simpa using ht⟩

theorem witness_ConfigurationFixedHistoryGrows : ∃ s t : State, step s = .next t ∧
    t.hist = s.hist ++ [.busReset] :=
  have ⟨t, h, ht⟩ := ends_next (o := step { S0 with inputs := [.bus [0x00#8]] })
    (check := fun t => t.hist == S0.hist ++ [.busReset]) (by decide +kernel)
  ⟨_, t, h, by simpa using ht⟩

/-- A bus reset, the Reset that serves it, and an address commit. -/
theorem witness_WhenDaddrChanges :
    ends (step { S0 with inputs := [.bus [0x00#8]] })
      (fun t => t.daddr != 0x0080#16) = true ∧
    ends (step { E0 with istr := 0x0400#16 }) (fun t => t.daddr != 0#16) = true ∧
    ends (step { slot S0 0 0x3AA0#16 with pending := 5#16 }) (fun t => t.daddr != 0x0080#16) = true := by
  decide +kernel

theorem witness_DispatchFaultsUnreachable : Inv (received getDevice64) ∧
    (received getDevice64).fault = none ∧ ∃ t, step (received getDevice64) = .next t :=
  witness_StepKeepsInv

/-- Clause 1: a SETUP to S0 is accepted and answered by slot 0. Clause 2: a served SETUP, and a stalled
one. -/
theorem witness_PhaseTransitions_receive :
    Ready S0 ∧ getDevice64.length = 8 ∧ S0.slotFor 0#4 .dirOut = some 0 ∧
    ends (exec (.busSetup 0#7 0#4 getDevice64) S0)
      (fun t => t.hist == S0.hist ++ [.setup 0#7 0#4 getDevice64 .ack]) = true ∧
    Ready (received getDevice64) ∧ (received getDevice64).phase = .setupReceived ∧
    ends (exec .evEp0Setup (received getDevice64))
      (fun t => Epr.statTx (t.eprAt 0) == .valid) = true ∧
    ends (exec .evEp0Setup (received getString))
      (fun t => Epr.statTx (t.eprAt 0) == .stall && t.pending == 0#16) = true :=
  ⟨ready_S0, rfl, by decide +kernel, by decide +kernel, ready_received, by decide +kernel,
    by decide +kernel, by decide +kernel⟩

/-- S0 with a zero-length response staged (P2 step 2). -/
def staged : State := (slot S0 0 0x3A30#16).writeHalf 2 0x0000#16

/-- Clause 3: the In completion of a staged response and its TxStage. Clause 4: a bus reset and Reset. -/
theorem witness_PhaseTransitions_transmit :
    Ready staged ∧ staged.phase = .statusStagePending ∧ staged.slotFor 0#4 .dirIn = some 0 ∧
    (∃ t u, exec (.busIn 0#7 0#4) staged = .next t ∧
      t.hist = staged.hist ++ [.inToken 0#7 0#4 (.data [])] ∧ exec .evEp0Tx t = .next u) ∧
    S0.pending = 0#16 ∧ ∃ t u, exec .busReset S0 = .next t ∧ exec .evBusReset t = .next u := by
  refine ⟨ready_of_check (by decide +kernel), by decide +kernel, by decide +kernel, ?_, rfl, ?_⟩
  · obtain ⟨t, h, ht⟩ := ends_next (o := exec (.busIn 0#7 0#4) staged)
      (check := fun t => t.hist == staged.hist ++ [.inToken 0#7 0#4 (.data [])]) (by decide +kernel)
    exact ⟨t, _, h, by simpa using ht, rfl⟩
  · obtain ⟨u, h, _⟩ := ends_next (o := exec .evBusReset (busReset S0)) (check := fun _ => true)
      (by decide +kernel)
    exact ⟨_, u, rfl, h⟩

theorem witness_BusResetRecovers : ∃ s : State, Ready s ∧ s.fault = none ∧
    s.inputs = .bus [0x00#8] :: .irq :: [] :=
  ⟨{ S0 with inputs := .bus [0x00#8] :: .irq :: [] }, ready_of_check (by decide +kernel), rfl, rfl⟩

/-- A device that waits at address 0, with a schedule. -/
theorem waiting_with (xs : List Input) : WaitingAt { S0 with inputs := xs } 0#7 where
  ready := ⟨ready_S0.accepted, ⟨ready_S0.inv.memory, rfl, ready_S0.inv.reserved, ready_S0.inv.table,
    ready_S0.inv.powered, ready_S0.inv.slots, ready_S0.inv.control⟩, rfl⟩
  noFault := rfl
  noReset := waiting_S0.noReset
  noEvent := waiting_S0.noEvent
  daddr := waiting_S0.daddr
  ea := waiting_S0.ea
  type := waiting_S0.type
  rx := waiting_S0.rx
  tx := waiting_S0.tx

theorem witness_SetAddressTransfer : ∃ s : State, WaitingAt s 0#7 ∧
    s.inputs = .bus (tokenBytes pidSetup 0#7 0#4 ++ setupBytes 0#8 0x05#8 5#16 0#16 0#16) ::
      .irq :: .bus (tokenBytes pidIn 0#7 0#4) :: .irq :: [] := ⟨_, waiting_with _, rfl⟩

theorem witness_HostSeesTheResponse : ∃ s : State, WaitingAt s 0#7 ∧
    s.params.setConfigFallthrough = false ∧
    decode (.setup getDevice64) = .ok (.getDescriptorDevice 0x80#8 0x00#8 0x0000#16 0x0040#16) ∧
    s.inputs = .bus (tokenBytes pidSetup 0#7 0#4 ++ getDevice64) :: .irq ::
      .bus (tokenBytes pidIn 0#7 0#4) :: [] := ⟨_, waiting_with _, rfl, by decide, rfl⟩

end Sys2Proof.Tests
end

section
/-! PROOFS. Which operation a step runs, and what every step leaves: the configuration, the parameters and
the history but for one observation (00_scope.md R7, R8, R14, 46_bus_environment.md R270). -/

namespace Sys2Proof.Machine

open Sys2Proof

/-! ### What a step without an enabled input does -/

/-- An input whose agent may not move is dropped. -/
theorem step_input_disabled {s : State} {x : Input} {xs : List Input} (h : Accepted s.cfg)
    (hx : s.inputs = x :: xs) (he : s.inputEnabled x = false) : step s = .next (s.withInputs xs) := by
  have hc : configErrors s.cfg = [] := h
  simp only [step, State.nextAction, hc, hx, he, Bool.false_eq_true, if_false]

/-- With nothing scheduled, the rule of R247 alone decides the step. -/
theorem step_unscheduled {s : State} (h : Accepted s.cfg) (hx : s.inputs = []) :
    step s = if s.handlerEnabled then exec .handler s else .next s := by
  have hc : configErrors s.cfg = [] := h
  cases he : s.handlerEnabled <;>
    simp only [step, State.nextAction, hc, hx, State.unscheduled, he, Bool.false_eq_true, if_true, if_false]

/-! ### What every step leaves -/

/-- The configuration and the parameters are as before, and the history has grown by at most one
observation. -/
structure HistoryFrame (s t : State) : Prop where
  cfg : t.cfg = s.cfg
  params : t.params = s.params
  hist : HistGrows s t

/-- The schedule is outside the frame. -/
theorem HistoryFrame.of_withInputs {s t : State} {xs : List Input}
    (h : HistoryFrame (s.withInputs xs) t) : HistoryFrame s t := ⟨h.cfg, h.params, h.hist⟩

theorem HistoryFrame.withInputs (s : State) (xs : List Input) : HistoryFrame s (s.withInputs xs) :=
  ⟨rfl, rfl, .inl rfl⟩

/-- An operation of the block observes nothing. -/
theorem BlockFrame.historyFrame {s t : State} (h : BlockFrame s t) : HistoryFrame s t :=
  ⟨h.cfg, h.params, .inl h.hist⟩

theorem BusFrame.historyFrame {s t : State} (h : BusFrame s t) (hh : HistGrows s t) :
    HistoryFrame s t where
  cfg := (congrArg State.cfg h.rest :)
  params := (congrArg State.params h.rest :)
  hist := hh

/-- An attached device's bus reset is one observation (R266). -/
theorem busReset_historyFrame {s : State} (h : s.attached = true) : HistoryFrame s (busReset s) := by
  rw [busReset, if_pos h]
  exact ⟨rfl, rfl, .inr ⟨.busReset, rfl⟩⟩

theorem BusInstr.historyFrame {i : Instr} (hi : BusInstr i) {s t : State} (h : exec i s = .next t) :
    HistoryFrame s t := by
  obtain ⟨hf, hh⟩ | ⟨ha, rfl⟩ := bus_cases hi h
  · exact hf.historyFrame hh
  · exact busReset_historyFrame ha

theorem StepKind.historyFrame {s t : State} (h : StepKind s t) : HistoryFrame s t := by
  cases h with
  | idle xs ht => exact ht ▸ .withInputs s xs
  | enable xs _ hx => exact .of_withInputs ((enableOp_leaves _).outcome hx).historyFrame
  | handler xs _ hx => exact .of_withInputs ((handlerOp_leaves _).outcome hx).historyFrame
  | bus xs i _ hi hx => exact .of_withInputs (hi.historyFrame hx)

/-! ### The obligations -/

/-- Settles O8: `step_input` for the next input. -/
theorem stepRunsTheScheduledOperation : Obligations.StepRunsTheScheduledOperation :=
  fun _ _ _ _ hacc hinputs henabled hdecode => step_input hacc hinputs henabled hdecode

/-- Settles O9, by whether there is an input, and without one by R247. -/
theorem stepWithoutAnEnabledInput : Obligations.StepWithoutAnEnabledInput := by
  intro s hacc
  refine ⟨fun _ _ hx he => step_input_disabled hacc hx he, fun hx he => ?_, fun hx he => ?_⟩
  · rw [step_unscheduled hacc hx, if_pos he]
  · rw [step_unscheduled hacc hx, if_neg (by simp [he])]

/-- Settles O54, by the kinds of step: idle, Enable, Handler, or the bus. -/
theorem configurationFixedHistoryGrows : Obligations.ConfigurationFixedHistoryGrows := by
  intro s t h
  obtain ⟨hcfg, hparams, hhist⟩ := (step_cases h).2.historyFrame
  exact ⟨hcfg, hparams, hhist⟩

end Sys2Proof.Machine
end

section
/-! PROOFS. The state and its invariant (10_state.md): what every step keeps, the read view of ISTR, the
field writes of EPR[n], the size field, and the phases of the Control Transfer State Machine. -/

namespace Sys2Proof.Machine

open Sys2Proof

/-! ### Every step keeps the invariant -/

theorem Inv.ready_of_attached {s : State} (h : Inv s) (hacc : Accepted s.cfg) (ha : s.attached = true) :
    Ready s := by
  simp only [State.attached, Bool.and_eq_true] at ha
  exact ⟨hacc, h, ha.1.1.1⟩

theorem Inv.ready_of_handlerEnabled {s : State} (h : Inv s) (hacc : Accepted s.cfg)
    (he : s.handlerEnabled = true) : Ready s := by
  simp only [State.handlerEnabled, Bool.and_eq_true] at he
  exact ⟨hacc, h, he.1.1.1⟩

/-- Every transaction and a bus reset keep the invariant (46_bus_environment.md R263 to R266). -/
theorem Ready.bus_inv {i : Instr} (hi : BusInstr i) {s t : State} (h : Ready s) (ht : exec i s = .next t) :
    Inv t := by
  cases hi with
  | setup a ep data hl =>
    obtain ⟨u, hu, hinv, -⟩ := h.busSetup_inv (a := a) (ep := ep) hl
    rw [exec_busSetup hl, hu] at ht
    injection ht with ht
    exact ht ▸ hinv
  | out a ep data hl =>
    obtain ⟨u, hu, hinv, -⟩ := h.busOut_inv (a := a) (ep := ep) (data := data)
    rw [exec_busOut hl, hu] at ht
    injection ht with ht
    exact ht ▸ hinv
  | inToken a ep => exact h.busIn_inv ht
  | reset =>
    injection ht with ht
    exact ht ▸ busReset_inv h.inv

theorem StepKind.inv {s t : State} (hk : StepKind s t) (hacc : Accepted s.cfg) (h : Inv s) : Inv t := by
  cases hk with
  | idle xs ht => exact ht ▸ h.withInputs xs
  | enable xs _ hx => exact (enable_inv (s := s.withInputs xs) hacc (h.withInputs xs) hx).1
  | handler xs he hx => exact (((h.ready_of_handlerEnabled hacc he).withInputs xs).handler hx).1
  | bus xs i ha hi hx => exact ((h.ready_of_attached hacc ha).withInputs xs).bus_inv hi hx

/-- Settles O51, by the kinds of step: idle, Enable, Handler, or the bus. -/
theorem stepKeepsInv : Obligations.StepKeepsInv := by
  intro s t h hstep
  obtain ⟨hacc, hk⟩ := step_cases hstep
  exact hk.inv hacc h

/-! ### The flags that nothing clears -/

/-- `enabled`, `irqEn` and the pull-up line stay set, and a recorded fault stays the same one (R41 to
R43). -/
structure StickyFrame (s t : State) : Prop where
  enabled : s.enabled = true → t.enabled = true
  irqEn : s.irqEn = true → t.irqEn = true
  pullupLine : s.pullupLine = true → t.pullupLine = true
  fault : ∀ f, s.fault = some f → t.fault = some f

/-- The schedule is outside the frame. -/
theorem StickyFrame.of_withInputs {s t : State} {xs : List Input} (h : StickyFrame (s.withInputs xs) t) :
    StickyFrame s t := ⟨h.enabled, h.irqEn, h.pullupLine, h.fault⟩

theorem StickyFrame.withInputs (s : State) (xs : List Input) : StickyFrame s (s.withInputs xs) :=
  ⟨id, id, id, fun _ => id⟩

/-- The pull-up line is the stored bit, or asserted where there is no line (R41). -/
theorem State.pullupLine_iff (s : State) :
    s.pullupLine = true ↔ (s.params.hasPullup = true → s.pullup = true) := by
  unfold State.pullupLine
  split <;> simp [*]

theorem BlockFrame.stickyFrame {s t : State} (h : BlockFrame s t) : StickyFrame s t where
  enabled := h.enabled
  irqEn := h.irqEn
  pullupLine := by
    rw [State.pullupLine_iff, State.pullupLine_iff, h.params]
    exact fun hs hp => h.pullup (hs hp)
  fault := h.fault

theorem BusFrame.stickyFrame {s t : State} (h : BusFrame s t) : StickyFrame s t where
  enabled := fun he => (congrArg State.enabled h.rest :).trans he
  irqEn := fun he => (congrArg State.irqEn h.rest :).trans he
  pullupLine := fun he => (congrArg State.pullupLine h.rest :).trans he
  fault := h.fault

theorem busReset_stickyFrame (s : State) : StickyFrame s (busReset s) := by
  unfold busReset
  split <;> exact ⟨id, id, id, fun _ => id⟩

theorem BusInstr.stickyFrame {i : Instr} (hi : BusInstr i) {s t : State} (h : exec i s = .next t) :
    StickyFrame s t := by
  obtain ⟨hf, -⟩ | ⟨-, rfl⟩ := bus_cases hi h
  · exact hf.stickyFrame
  · exact busReset_stickyFrame s

theorem StepKind.stickyFrame {s t : State} (h : StepKind s t) : StickyFrame s t := by
  cases h with
  | idle xs ht => exact ht ▸ .withInputs s xs
  | enable xs _ hx => exact .of_withInputs ((enableOp_leaves _).outcome hx).stickyFrame
  | handler xs _ hx => exact .of_withInputs ((handlerOp_leaves _).outcome hx).stickyFrame
  | bus xs i _ hi hx => exact .of_withInputs (hi.stickyFrame hx)

/-- Settles O52, by the kinds of step: idle, Enable, Handler, or the bus. -/
theorem stickyFlags : Obligations.StickyFlags := by
  intro s t h
  obtain ⟨henabled, hirqEn, hpullup, hfault⟩ := (step_cases h).2.stickyFrame
  exact ⟨henabled, hirqEn, hpullup, hfault⟩

/-! ### The read view of ISTR -/

/-- Any pending slot is the reported one for some draw of EP_ID_CHOICE (R28). -/
theorem State.exists_epIdDraw {s : State} {n : Fin 8} (h : n ∈ s.pendingSet) :
    ∃ k, ({ s with epIdDraws := [k] } : State).epIdChoice = n := by
  obtain ⟨k, hk, hn⟩ := List.mem_iff_getElem.1 h
  refine ⟨k, ?_⟩
  have hp : ({ s with epIdDraws := [k] } : State).pendingSet = s.pendingSet := rfl
  unfold State.epIdChoice
  rw [hp]
  generalize s.pendingSet = l at hk hn
  subst hn
  match l, hk with
  | [m], hk =>
    have : k = 0 := by simpa using hk
    subst this
    rfl
  | m :: m' :: ms, hk =>
    have hd : ({ s with epIdDraws := [k] } : State).epIdDraw = k := rfl
    simp only [hd]
    rw [Nat.mod_eq_of_lt hk, List.getD_eq_getElem _ _ hk]

/-- Settles O6: the reported slot is a member of the pending set, and a draw picks any member. -/
theorem istrViewReportsPendingSlots : Obligations.IstrViewReportsPendingSlots := by
  intro s
  simp only [State.istrView_ctr, State.istrView_epId, State.istrView_dir]
  refine ⟨?_, fun hc => ?_, fun n hn hf => ?_, fun hc => ?_⟩
  · simp only [State.istrCtr_iff, State.mem_pendingSet]
  · obtain ⟨hn, hf⟩ := (State.mem_pendingSet _ _).1 (s.epIdChoice_mem hc)
    exact ⟨s.epIdChoice, hn, hf, rfl, by rw [State.istrDir, if_pos hc]⟩
  · obtain ⟨k, hk⟩ := State.exists_epIdDraw ((State.mem_pendingSet s n).2 ⟨hn, hf⟩)
    exact ⟨k, by rw [State.istrEpId, hk]⟩
  · have hz : s.epIdChoice = 0 := by rw [State.epIdChoice, s.pendingSet_of_not_ctr hc]
    exact ⟨by rw [State.istrEpId, hz]; rfl, by rw [State.istrDir, hc]; rfl⟩

/-! ### DISPATCH -/

/-- The one ISTR row that applies to a word with RESET clear and CTR set (R104). -/
theorem istrRows_of_ctr {w : Half} (hr : Istr.resetFlag w = false) (hc : Istr.ctr w = true) :
    istrRows w = [if Istr.epId w = 0#4 then .evCtrEp0 (Istr.dir w)
      else .evCtrEpn (Istr.epId w) (Istr.dir w)] := by
  have hr' : ¬ w.getLsbD 10 = true := Bool.not_eq_true _ ▸ hr
  have hc' : w.getLsbD 15 = true := hc
  rw [istrRows, if_neg hr', if_pos hc', List.nil_append]
  exact (apply_ite (fun i => [i]) _ _ _).symm

/-- Settles O29, by the reported slot: endpoint 0, or another one. -/
theorem dispatchRunsTheReportedEvent : Obligations.DispatchRunsTheReportedEvent := by
  intro s i hr hc hi
  rw [decode, decodeIstr, istrRows_of_ctr (by rw [State.istrView_reset, hr]) hc, State.istrView_epId,
    State.istrView_dir] at hi
  injection hi with hi
  subst hi
  by_cases h0 : s.istrEpId = 0#4
  · have hd : dispatch s = ep0Handler s.takeEpId := by rw [dispatch, dispatchTo, if_pos h0]
    rw [if_pos h0]
    exact congrArg Flow.outcome hd
  · rw [if_neg h0]
    rfl

/-! ### The field writes of EPR[n] -/

/-- What the write kinds of R33 make of the written word, bit by bit: a completion flag can only be
cleared, SETUP stays, and every other bit is the new one. -/
theorem Epr.getLsbD_hwWrite_hwWordFor (old new : Half) {i : Nat} (hi : i < 16) :
    (Epr.hwWrite old (Epr.hwWordFor old new)).getLsbD i =
      if i = 15 ∨ i = 7 then old.getLsbD i && new.getLsbD i
      else if i = 11 then old.getLsbD i else new.getLsbD i := by
  simp only [Epr.hwWrite, Epr.hwWordFor, BitVec.getLsbD_or, BitVec.getLsbD_and, BitVec.getLsbD_xor]
  interval_cases i <;> simp

/-- Settles O7: bits 15 and 7 are not newly set, bit 11 is kept, and every other bit is written. -/
theorem eprFieldWritesAreRealisable : Obligations.EprFieldWritesAreRealisable := by
  intro old new hrx htx hsetup
  apply BitVec.eq_of_getLsbD_eq
  intro i hi
  rw [Epr.getLsbD_hwWrite_hwWordFor old new hi]
  split
  · next h =>
    have hclear : new.getLsbD i = true → old.getLsbD i = true := by
      rcases h with rfl | rfl
      · exact hrx
      · exact htx
    rw [Bool.and_eq_right_iff_imp]
    exact hclear
  · split
    · next h => exact h ▸ hsetup.symm
    · rfl

/-! ### The size field of COUNT_RX -/

/-- No value of COUNT_RX expresses a capacity that holds `m` bytes and is smaller than `rxSize(m)`: the
blocks of 2 bytes give every even capacity to 62, those of 32 every multiple of 32 (R39, R132). -/
theorem rxSize_le_rxCapOf {m : Nat} {v : Half} (h : m ≤ rxCapOf v) : rxSize m ≤ rxCapOf v := by
  have hb := (field v 10 5).isLt
  unfold rxCapOf at h ⊢
  unfold rxSize evenSize
  split at h
  · next h15 => rw [if_pos h15]; split <;> omega
  · next h15 => rw [if_neg h15, if_pos (by omega)]; omega

/-- Settles O41: the initial value expresses `rxSize(m)`, and no value a smaller capacity. -/
theorem rxSizeIsTheSmallestCapacity : Obligations.RxSizeIsTheSmallestCapacity :=
  fun m h1 h => ⟨rxCapOf_rxCountInit h1 h, (rxCountInit_spec h).2, le_rxSize m, fun _ => rxSize_le_rxCapOf⟩

/-! ### The endpoint-0 handler -/

theorem Ready.exec_evCtrEp0 {s : State} (h : Ready s) (dirBit : BitVec 1) :
    exec (.evCtrEp0 dirBit) s = .next s.afterEp0 := congrArg Flow.outcome h.ep0Handler

/-- Settles O27, by what `Ep0Handler()` leaves of a ready block. -/
theorem ep0HandlerCompletes : Obligations.Ep0HandlerCompletes := by
  intro dirBit s h
  obtain ⟨hf, hrx, htx, hsetup, -, -, hvalid, hbytes⟩ := State.afterEp0_done h
  exact ⟨s.afterEp0, h.exec_evCtrEp0 dirBit, hf.fault, hrx, htx, hsetup, hvalid, hf.slots, hf.cntr,
    hf.istr, hf.btable, hf.hist, hbytes⟩

/-! ### The phases (R23) -/

/-- A SETUP that the handler has not served stands in slot 0. -/
def State.setupWaits (s : State) : Bool := Epr.ctrRx (s.eprAt 0) && Epr.setupFlag (s.eprAt 0)

theorem State.phase_setupReceived_iff (s : State) : s.phase = .setupReceived ↔ s.setupWaits = true := by
  unfold State.phase State.setupWaits
  split
  · simp [*]
  · split <;> simp [*]

theorem State.phase_statusStagePending_iff (s : State) : s.phase = .statusStagePending ↔
    s.setupWaits = false ∧ (Epr.statTx (s.eprAt 0) = .valid ∨ s.pending ≠ 0#16) := by
  unfold State.phase State.setupWaits
  split
  · simp [*]
  · split <;> simp [*]

theorem State.phase_idle_iff (s : State) : s.phase = .idle ↔
    s.setupWaits = false ∧ ¬(Epr.statTx (s.eprAt 0) = .valid ∨ s.pending ≠ 0#16) := by
  unfold State.phase State.setupWaits
  split
  · simp [*]
  · split <;> simp [*]

/-! ### The phase transitions (R189) -/

/-- A SETUP that a ready block acknowledges waits in slot 0, the only CONTROL slot. -/
theorem Ready.setupWaits_busSetup {s t : State} (h : Ready s) {a : BitVec 7} {ep : BitVec 4}
    {data : List Byte} (hl : data.length = 8) (ht : exec (.busSetup a ep data) s = .next t)
    (hack : t.hist = s.hist ++ [.setup a ep data .ack]) : t.setupWaits = true := by
  rw [exec_busSetup hl] at ht
  cases hs : s.setupSlot a ep with
  | none =>
    rw [Machine.busSetup, hs] at ht
    injection ht with ht
    subst ht
    simp [State.observe] at hack
  | some n =>
    obtain ⟨he, rfl, -, hd⟩ := h.busSetup hl hs
    rw [he] at ht
    injection ht with ht
    obtain ⟨-, -, hslot, -⟩ := s.receive_spec 0 data setupWord (.setup a ep data .ack)
      (h.receive_apart hd _)
    rw [← ht, State.setupWaits, hslot]
    simp [setupWord]

theorem Ready.exec_evEp0Setup {s : State} (h : Ready s) :
    exec .evEp0Setup s = .next s.afterSetup := congrArg Flow.outcome h.setupStage

/-- After the SETUP stage of a ready block no SETUP waits. -/
theorem Ready.setupWaits_evEp0Setup {s t : State} (h : Ready s) (ht : exec .evEp0Setup s = .next t) :
    t.setupWaits = false := by
  rw [h.exec_evEp0Setup] at ht
  injection ht with ht
  obtain ⟨-, -, ⟨st, -, hslot⟩, -⟩ := State.afterSetup_done h
  rw [← ht, State.setupWaits, hslot]
  simp

/-- An IN that a ready block answers with data is a completed transmission of the slot that the token
reaches (R265). -/
theorem Ready.busIn_data {s t : State} (h : Ready s) {a : BitVec 7} {ep : BitVec 4} {n : Fin 8}
    {bytes : List Byte} (hn : s.slotFor ep .dirIn = some n) (ht : exec (.busIn a ep) s = .next t)
    (hdata : t.hist = s.hist ++ [.inToken a ep (.data bytes)]) :
    t = (s.modifyEpr n inWord).observe (.inToken a ep (.data bytes)) := by
  have hobs : ∀ r, (Flow.outcome (.ok (s.observe (.inToken a ep r)))) = .next t → r = .data bytes := by
    intro r hr
    injection hr with hr
    subst hr
    simpa [State.observe] using hdata
  rw [exec_busIn, Machine.busIn] at ht
  cases hs : s.tokenSlot a ep .dirIn with
  | none =>
    rw [hs] at ht
    exact absurd (hobs _ ht) (by simp)
  | some m =>
    obtain rfl : m = n := by simpa [hn] using (tokenSlot_some hs).2.symm
    simp only [hs] at ht
    cases hst : Epr.statTx (s.eprAt m) with
    | disabled | stall | nak =>
      rw [hst] at ht
      exact absurd (hobs _ ht) (by simp)
    | valid =>
      rw [hst] at ht
      simp only [h.busInValid hst] at ht
      split at ht
      · injection ht with ht
        subst ht
        obtain rfl : _ = bytes := by simpa [State.observe] using hdata
        rfl
      · injection ht with ht
        subst ht
        simp at hdata

theorem txStage_pending (s : State) : (txStage s).pending = 0#16 := by
  by_cases hp : s.pending = 0#16 <;> simp [txStage, State.commitAddress, hp]

/-- TxStage after a completed transmission of slot 0 leads to Idle where no SETUP waits. -/
theorem phase_txStage_of_inWord {s : State} (o : Observation) (hw : s.setupWaits = false) :
    (txStage ((s.modifyEpr 0 inWord).observe o)).phase = .idle := by
  have hslot : (txStage ((s.modifyEpr 0 inWord).observe o)).eprAt 0 =
      Epr.withStatRx (Epr.withCtrTx (inWord (s.eprAt 0)) false) .valid := by
    rw [txStage_eprAt, State.observe_eprAt, State.eprAt_modifyEpr_same]
  rw [State.phase_idle_iff, State.setupWaits, hslot, txStage_pending]
  refine ⟨by simpa [inWord, State.setupWaits] using hw, by simp [inWord]⟩

theorem busReset_cfg (s : State) : (busReset s).cfg = s.cfg := by unfold busReset; split <;> rfl

theorem busReset_pending (s : State) : (busReset s).pending = s.pending := by
  unfold busReset; split <;> rfl

/-- `Reset()` leads to Idle where no address is pending. -/
theorem State.phase_afterReset {s : State} (hacc : Accepted s.cfg) (hp : s.pending = 0#16) :
    s.afterReset.phase = .idle := by
  have hpend : s.afterReset.pending = 0#16 := by rw [State.afterReset_pending, hp, ite_self]
  rw [State.phase_idle_iff, State.setupWaits, State.afterReset_zero hacc, hpend]
  decide

/-- Settles O57, one transition each: what the operation leaves in slot 0 and in `pending` gives the
phase. -/
theorem phaseTransitions : Obligations.PhaseTransitions := by
  intro s h
  refine ⟨fun a data t hl ht hack _ => ?_, fun t _ ht => ?_, fun a bytes t u hph hslot ht hdata hu => ?_,
    fun t u hp ht hu => ?_⟩
  · exact t.phase_setupReceived_iff.2 (h.setupWaits_busSetup hl ht hack)
  · have hw := h.setupWaits_evEp0Setup ht
    refine ⟨fun hv => t.phase_statusStagePending_iff.2 ⟨hw, .inl hv⟩,
      fun hst hp => t.phase_idle_iff.2 ⟨hw, by simp [hst, hp]⟩⟩
  · injection hu with hu
    rw [← hu, h.busIn_data hslot ht hdata]
    exact phase_txStage_of_inWord _ (s.phase_statusStagePending_iff.1 hph).1
  · injection ht with ht
    subst ht
    rw [(resetOp_next hu).2]
    exact State.phase_afterReset ((busReset_cfg s).symm ▸ h.accepted) ((busReset_pending s).trans hp)

end Sys2Proof.Machine
end

section
/-! PROOFS. Packet memory (20_memory.md R67, R68, R79): a response whose buffer cannot be written, what the
SETUP stage leaves of packet memory, and how an OUT is stored. -/

namespace Sys2Proof.Machine

open Sys2Proof

/-! ### A response outside packet memory (R68, R291) -/

/-- A response whose entry of the table is readable and whose buffer is not in packet memory is left at
its first write. -/
theorem send_raised {bytes : List Byte} {wLength : Half} {s : State}
    (hentry : s.accessOk (s.bdt 0) 2 = true)
    (hbuffer : s.accessOk s.txAddr0 (stagedLength bytes wLength) = false) :
    send bytes wLength s = .error (.raised (s.recordFault (.unmodelled .send))) := by
  have hwrite : memWrite .send s.txAddr0 (bytes.take (stagedLength bytes wLength)) s =
      .error (.raised (s.recordFault (.unmodelled .send))) :=
    memWrite_raised (by rw [take_stagedLength, hbuffer])
  rw [send, addrTx_ok hentry, Flow.andThen_ok]
  exact congrArg (Flow.andThen · _) hwrite

/-- Settles O13: the buffer write raises the fault before anything is written. -/
theorem sendOutsideMemoryFaults : Obligations.SendOutsideMemoryFaults := by
  intro bytes wLength s hentry hbuffer hf
  rw [← State.recordFault_of_none hf]
  exact congrArg Flow.outcome (send_raised hentry hbuffer)

/-! ### The SETUP stage of a ready block (R79, R174, R175) -/

/-- Endpoint 0's receive buffer meets neither its transmit buffer nor COUNT_TX(0) (R131). -/
theorem Accepted.rxBuffer0_apart {cfg : StaticConfig} (h : Accepted cfg) {x : Nat}
    (hx : InRange x (slotAlloc cfg 0).addrRx (rxCapOf (slotAlloc cfg 0).countRxInit)) :
    ¬ InRange x (slotAlloc cfg 0).addrTx (slotAlloc cfg 0).txCap ∧
    ¬ InRange x (bdtBase.toNat + 2) 2 := by
  obtain ⟨htx, -, haddrTx, haddrRx, -⟩ := h.ep0_buffers
  rw [htx, haddrTx, bdtBase_toNat]
  rw [haddrRx] at hx
  unfold InRange at hx ⊢
  omega

/-- Settles O23, by what the SETUP stage leaves of a ready block. -/
theorem setupStageCompletes : Obligations.SetupStageCompletes := by
  intro s h
  obtain ⟨hf, hdaddr, ⟨st, hst, hslot⟩, hbytes⟩ := State.afterSetup_done h
  refine ⟨s.afterSetup, st, h.exec_evEp0Setup, hf.fault, hst, hslot, hf.slots, hdaddr, hf.cntr, hf.istr,
    hf.btable, hf.hist, hbytes, fun x hx => ?_⟩
  obtain ⟨htx, hcount⟩ := h.accepted.rxBuffer0_apart hx
  exact hbytes x htx hcount

/-! ### An OUT that a slot answers (R264) -/

theorem tokenSlot_of_slotFor {s : State} {a : BitVec 7} {ep : BitVec 4} {d : Dir} {n : Fin 8}
    (ha : s.forThisDevice a = true) (hn : s.slotFor ep d = some n) : s.tokenSlot a ep d = some n := by
  rw [State.tokenSlot, if_pos ha, hn]

section status
variable {a : BitVec 7} {ep : BitVec 4} {s : State} {n : Fin 8} (hn : s.tokenSlot a ep .dirOut = some n)
  (data : List Byte)
include hn

theorem busOut_of_stall (h : Epr.statRx (s.eprAt n) = .stall) :
    busOut a ep data s = .ok (s.observe (.out a ep data .stall)) := by simp [busOut, hn, h]

theorem busOut_of_nak (h : Epr.statRx (s.eprAt n) = .nak) :
    busOut a ep data s = .ok (s.observe (.out a ep data .nak)) := by simp [busOut, hn, h]

theorem busOut_of_valid (h : Epr.statRx (s.eprAt n) = .valid) :
    busOut a ep data s = busOutValid a ep data n s := by simp [busOut, hn, h]

end status

section valid
variable {a : BitVec 7} {ep : BitVec 4} {s : State} {n : Fin 8} {data : List Byte}
  (hsize : s.accessOk (s.bdt n.val + 6) 2 = true)
include hsize

/-- A packet longer than the capacity gets no response. -/
theorem busOutValid_too_long (hlong : rxCapOf (s.readHalf (s.bdt n.val + 6)) < data.length) :
    busOutValid a ep data n s = .ok (s.observe (.out a ep data .noResponse)) := by
  rw [busOutValid, rxCap_ok hsize, Flow.andThen_ok, if_neg (Nat.not_le.2 hlong)]

/-- A packet that fits is stored, where the buffer that the table names can be written. -/
theorem busOutValid_stored (hfits : data.length ≤ rxCapOf (s.readHalf (s.bdt n.val + 6)))
    (haddr : s.accessOk (s.bdt n.val + 4) 2 = true)
    (hbuffer : s.accessOk (s.readHalf (s.bdt n.val + 4)).toNat data.length = true) :
    busOutValid a ep data n s = .ok (s.receive n data outWord (.out a ep data .ack)) := by
  rw [busOutValid, rxCap_ok hsize, Flow.andThen_ok, if_pos hfits, addrRx_ok haddr, Flow.andThen_ok,
    memWrite_ok hbuffer, Flow.andThen_ok, setCountRx_ok (by simpa using hsize), Flow.andThen_ok,
    State.bdt_writeBuffer]
  rfl

end valid

/-- Settles O48, by the status of the receive half, and for VALID by the capacity. -/
theorem busOutByStatus : Obligations.BusOutByStatus := by
  intro a ep data s n hl ha hslot
  have hn := tokenSlot_of_slotFor ha hslot
  rw [exec_busOut hl]
  refine ⟨fun hst => ?_, fun hst => ?_, fun hst hsize hlong => ?_,
    fun hst hsize hfits haddr hbuffer hapart => ?_⟩
  · rw [busOut_of_stall hn data hst]
    rfl
  · rw [busOut_of_nak hn data hst]
    rfl
  · rw [busOut_of_valid hn data hst, busOutValid_too_long hsize hlong]
    rfl
  · refine ⟨s.receive n data outWord (.out a ep data .ack), ?_,
      s.receive_spec n data outWord _ hapart⟩
    rw [busOut_of_valid hn data hst, busOutValid_stored hsize hfits haddr hbuffer]
    rfl

end Sys2Proof.Machine
end

section
/-! PROOFS. The decoder and the encoder agree (30_encoding.md R91, R93, R96, R104, R105). -/

namespace Sys2Proof

open Sys2Proof.Machine

/-! ### The request a key selects (R96) -/

/-- The request is the one that R96 selects for `bRequest` and the descriptor type. -/
def Request.Selects (bRequest descType : Byte) : Request → Prop
  | .getStatus => bRequest = 0x00#8
  | .setAddress => bRequest = 0x05#8
  | .getDescriptorDevice => bRequest = 0x06#8 ∧ descType = 0x01#8
  | .getDescriptorConfiguration => bRequest = 0x06#8 ∧ descType = 0x02#8
  | .getDescriptorReport => bRequest = 0x06#8 ∧ descType = 0x22#8
  | .getDescriptorOther =>
      bRequest = 0x06#8 ∧ descType ≠ 0x01#8 ∧ descType ≠ 0x02#8 ∧ descType ≠ 0x22#8
  | .setConfiguration => bRequest = 0x09#8
  | .otherRequest =>
      bRequest ≠ 0x00#8 ∧ bRequest ≠ 0x05#8 ∧ bRequest ≠ 0x06#8 ∧ bRequest ≠ 0x09#8

/-- The decode of a key is the one request that R96 selects. -/
theorem decodeRequest_eq_iff {k : BitVec 32} {q : Request} :
    decodeRequest k = q ↔ q.Selects (k.extractLsb' 8 8) (k.extractLsb' 24 8) := by
  constructor
  · rintro rfl
    dsimp only [decodeRequest]
    split_ifs <;> simp [Request.Selects, *]
  · intro h
    cases q <;> simp only [Request.Selects] at h <;> simp [decodeRequest, h]

/-- The fields of the match of a row that fixes bRequest and the descriptor type (R93). -/
theorem match_bRequest (r d : Byte) :
    (r.setWidth 32 <<< 8 ||| d.setWidth 32 <<< 24).extractLsb' 8 8 = r := by
  apply BitVec.eq_of_getLsbD_eq
  intro i hi
  interval_cases i <;> simp

theorem match_descType (r d : Byte) :
    (r.setWidth 32 <<< 8 ||| d.setWidth 32 <<< 24).extractLsb' 24 8 = d := by
  apply BitVec.eq_of_getLsbD_eq
  intro i hi
  interval_cases i <;> simp

/-- A row that fixes both applies exactly to the keys with these fields (R93). -/
theorem key_and_descType_eq_iff {k : BitVec 32} {r d : Byte} :
    k &&& 0xFF00FF00#32 = r.setWidth 32 <<< 8 ||| d.setWidth 32 <<< 24 ↔
      k.extractLsb' 8 8 = r ∧ k.extractLsb' 24 8 = d := by
  rw [key_and_descType]
  refine ⟨fun h => ⟨?_, ?_⟩, fun ⟨hr, hd⟩ => by rw [hr, hd]⟩
  · simpa only [match_bRequest] using congrArg (BitVec.extractLsb' 8 8) h
  · simpa only [match_descType] using congrArg (BitVec.extractLsb' 24 8) h

/-- A row that fixes bRequest alone applies exactly to the keys with that bRequest (R93). -/
theorem key_and_bRequest_eq_iff {k : BitVec 32} {r : Byte} :
    k &&& 0x0000FF00#32 = r.setWidth 32 <<< 8 ↔ k.extractLsb' 8 8 = r := by
  rw [key_and_bRequest]
  refine ⟨fun h => ?_, fun h => by rw [h]⟩
  have hr := congrArg (fun w => (w ||| (0#8).setWidth 32 <<< 24).extractLsb' 8 8) h
  simpa only [match_bRequest] using hr

/-- Settles O2: R96 and the rows of the table name the same values of bRequest and the descriptor
type. -/
theorem requestDecodeFollowsTheTable : Obligations.RequestDecodeFollowsTheTable := by
  intro k
  have b (r : Byte) := key_and_bRequest_eq_iff (k := k) (r := r)
  have d (r dt : Byte) := key_and_descType_eq_iff (k := k) (r := r) (d := dt)
  refine ⟨decodeRequest_eq_iff.trans (b 0x00#8).symm, decodeRequest_eq_iff.trans (b 0x05#8).symm,
    decodeRequest_eq_iff.trans (d 0x06#8 0x01#8).symm, decodeRequest_eq_iff.trans (d 0x06#8 0x02#8).symm,
    decodeRequest_eq_iff.trans (d 0x06#8 0x22#8).symm, decodeRequest_eq_iff.trans ?_,
    decodeRequest_eq_iff.trans (b 0x09#8).symm, decodeRequest_eq_iff.trans ?_⟩
  · refine (and_congr_right fun h => ?_).trans (and_congr_left' (b 0x06#8).symm)
    have hne (dt : Byte) := ((d 0x06#8 dt).trans (and_iff_right h)).not.symm
    exact and_congr (hne 0x01#8) (and_congr (hne 0x02#8) (hne 0x22#8))
  · exact and_congr (b 0x00#8).not.symm (and_congr (b 0x05#8).not.symm
      (and_congr (b 0x06#8).not.symm (b 0x09#8).not.symm))

/-! ### The operands that are restricted -/

theorem wf_getDescriptorOther_iff {t dt di : Byte} {x l : Half} :
    WellFormed (.getDescriptorOther t dt di x l) ↔ Request.getDescriptorOther.Selects 0x06#8 dt := by
  simp [WellFormed, Instr.wf, Request.Selects, and_assoc]

theorem wf_otherRequest_iff {t r dt : Byte} {v x l : Half} :
    WellFormed (.otherRequest t r v x l) ↔ Request.otherRequest.Selects r dt := by
  simp [WellFormed, Instr.wf, Request.Selects, and_assoc]

theorem wf_evCtrEpn_iff {n : BitVec 4} {d : BitVec 1} : WellFormed (.evCtrEpn n d) ↔ n ≠ 0#4 := by
  simp [WellFormed, Instr.wf]

theorem wf_busSetup_iff {a : BitVec 7} {ep : BitVec 4} {data : List Byte} :
    WellFormed (.busSetup a ep data) ↔ data.length = 8 := by
  simp [WellFormed, Instr.wf]

theorem wf_busOut_iff {a : BitVec 7} {ep : BitVec 4} {data : List Byte} :
    WellFormed (.busOut a ep data) ↔ data.length ≤ 1023 := by
  simp [WellFormed, Instr.wf]

/-! ### SETUP packets -/

/-- The key of a packet selects the request by the packet's own fields (R91, R93). -/
theorem decodeRequest_setupKey_selects (p : List Byte) :
    (decodeRequest (setupKey p)).Selects (setupPacketOf p).bRequest (setupPacketOf p).descType := by
  have h := decodeRequest_eq_iff.1 (rfl : decodeRequest (setupKey p) = _)
  rwa [setupKey_bRequest, setupKey_descType, ← u16le_high (p.getD 2 0#8) (p.getD 3 0#8)] at h

/-- The packet made from a request's fields decodes to that request. -/
theorem decode_setupBytes_of_selects {q : Request} {t r : Byte} {v x l : Half}
    (h : q.Selects r (v.extractLsb' 8 8)) :
    decode (.setup (setupBytes t r v x l)) = .ok (requestInstr q ⟨t, r, v, x, l⟩) := by
  have hq : decodeRequest (setupKey (setupBytes t r v x l)) = q :=
    decodeRequest_eq_iff.2 (by simpa using h)
  rw [decode_setupBytes, hq]

@[simp] theorem SetupPacket.descIndex_u16le (t r di dt : Byte) (x l : Half) :
    (SetupPacket.mk t r (u16le di dt) x l).descIndex = di := u16le_low di dt

@[simp] theorem SetupPacket.descType_u16le (t r di dt : Byte) (x l : Half) :
    (SetupPacket.mk t r (u16le di dt) x l).descType = dt := u16le_high di dt

/-- A GET_DESCRIPTOR packet decodes to the row of its descriptor type. -/
theorem decode_getDescriptor {q : Request} {dt : Byte} (h : q.Selects 0x06#8 dt) (t di : Byte)
    (x l : Half) :
    decode (.setup (setupBytes t 0x06#8 (u16le di dt) x l)) =
      .ok (requestInstr q ⟨t, 0x06#8, u16le di dt, x, l⟩) :=
  decode_setupBytes_of_selects (by rwa [u16le_high])

/-- The descriptor type and the descriptor index are all of wValue (R97). -/
theorem SetupPacket.u16le_descIndex {p : SetupPacket} {d : Byte} (h : p.descType = d) :
    u16le p.descIndex d = p.wValue := by
  rw [← h]
  exact u16le_le16 p.wValue

/-- The code of a request is the packet of its fields. -/
theorem encode_requestInstr {q : Request} {p : SetupPacket} (h : q.Selects p.bRequest p.descType) :
    encode (requestInstr q p) =
      some (.setup (setupBytes p.bmRequestType p.bRequest p.wValue p.wIndex p.wLength)) := by
  cases q with
  | getStatus | setAddress | setConfiguration => rw [show p.bRequest = _ from h]; rfl
  | getDescriptorDevice | getDescriptorConfiguration | getDescriptorReport =>
    obtain ⟨hr, hd⟩ := h
    rw [hr, ← SetupPacket.u16le_descIndex hd]
    rfl
  | getDescriptorOther =>
    obtain ⟨hr, -⟩ := h
    rw [hr, ← SetupPacket.u16le_descIndex rfl]
    rfl
  | otherRequest => rfl

theorem requestInstr_wf {q : Request} {p : SetupPacket} (h : q.Selects p.bRequest p.descType) :
    WellFormed (requestInstr q p) := by
  cases q with
  | getDescriptorOther =>
    obtain ⟨-, hd⟩ := h
    exact wf_getDescriptorOther_iff.2 ⟨rfl, hd⟩
  | otherRequest => exact wf_otherRequest_iff.2 h
  | _ => rfl

/-- A packet that decodes is the code of a well-formed operation. -/
theorem decode_setup_ok {p : List Byte} {i : Instr} (h : decode (.setup p) = .ok i) :
    WellFormed i ∧ encode i = some (.setup p) := by
  obtain ⟨hl, rfl⟩ := decode_setup_eq_ok.1 h
  have hq := decodeRequest_setupKey_selects p
  refine ⟨requestInstr_wf hq, ?_⟩
  rw [encode_requestInstr hq]
  exact congrArg (fun b => some (Code.setup b)) (setupBytes_setupPacketOf hl)

/-! ### Event words (R104) -/

/-- The word that reports a slot and a direction decodes to that event. -/
theorem decode_ctrWord (n : BitVec 4) (d : BitVec 1) :
    decode (.istr (ctrWord n d)) = .ok (if n = 0#4 then .evCtrEp0 d else .evCtrEpn n d) := by
  rw [decode, decodeIstr, istrRows_of_ctr (ctrWord_reset n d) (ctrWord_ctr n d),
    show Istr.epId (ctrWord n d) = n from ctrWord_epId n d,
    show Istr.dir (ctrWord n d) = d from ctrWord_dir n d]

/-- Every row that applies to a word is a well-formed event: EV_CTR_EPN applies to EP_ID ≠ 0. -/
theorem istrRows_wf (w : Half) : ∀ i ∈ istrRows w, WellFormed i := by
  unfold istrRows
  rw [List.forall_mem_append]
  constructor
  · split
    · exact List.forall_mem_singleton.2 rfl
    · exact List.forall_mem_nil _
  · split
    · split
      · exact List.forall_mem_singleton.2 rfl
      · next hep => exact List.forall_mem_singleton.2 (wf_evCtrEpn_iff.2 hep)
    · exact List.forall_mem_nil _

theorem epr0Rows_wf (w : Half) : ∀ i ∈ epr0Rows w, WellFormed i := by
  unfold epr0Rows
  split_ifs <;> simp [WellFormed, Instr.wf]

/-- What an event word decodes to is a row that applies to it. -/
theorem decodeIstr_mem {w : Half} {i : Instr} (h : decodeIstr w = .ok i) : i ∈ istrRows w := by
  unfold decodeIstr at h
  split at h
  · next hw => cases h; simp [hw]
  · cases h

theorem decodeEpr0_mem {w : Half} {i : Instr} (h : decodeEpr0 w = .ok i) : i ∈ epr0Rows w := by
  unfold decodeEpr0 at h
  split at h
  · next hw => cases h; simp [hw]
  · cases h

/-! ### Inputs (R105, R108) -/

/-- An input that decodes is the code of a well-formed operation. -/
theorem decodeInput_ok {x : Input} {i : Instr} (h : decodeInput x = .ok i) :
    WellFormed i ∧ encode i = some (.input x) := by
  cases x with
  | enable | irq => cases h; exact ⟨rfl, rfl⟩
  | bus bytes =>
    obtain ⟨rfl, rfl⟩ | ⟨a, ep, data, hl, rfl, rfl⟩ | ⟨a, ep, data, hl, rfl, rfl⟩ | ⟨a, ep, rfl, rfl⟩ :=
      decodeBus_cases h
    · exact ⟨rfl, rfl⟩
    · exact ⟨wf_busSetup_iff.2 hl, rfl⟩
    · exact ⟨wf_busOut_iff.2 hl, rfl⟩
    · exact ⟨rfl, rfl⟩

/-! ### Decode and encode -/

/-- Settles O3, by the operation: a request by the fields that select it, an event by its word, a
transaction by its bytes. -/
theorem decodeOfEncode : Obligations.DecodeOfEncode := by
  intro i c hwf hc
  cases i with
  | getStatus => cases hc; exact decode_setupBytes_of_selects (q := .getStatus) rfl
  | setAddress => cases hc; exact decode_setupBytes_of_selects (q := .setAddress) rfl
  | getDescriptorDevice t di x l =>
    cases hc
    simpa [requestInstr] using decode_getDescriptor (q := .getDescriptorDevice) ⟨rfl, rfl⟩ t di x l
  | getDescriptorConfiguration t di x l =>
    cases hc
    simpa [requestInstr] using
      decode_getDescriptor (q := .getDescriptorConfiguration) ⟨rfl, rfl⟩ t di x l
  | getDescriptorReport t di x l =>
    cases hc
    simpa [requestInstr] using decode_getDescriptor (q := .getDescriptorReport) ⟨rfl, rfl⟩ t di x l
  | getDescriptorOther t dt di x l =>
    cases hc
    simpa [requestInstr] using
      decode_getDescriptor (q := .getDescriptorOther) (wf_getDescriptorOther_iff.1 hwf) t di x l
  | setConfiguration => cases hc; exact decode_setupBytes_of_selects (q := .setConfiguration) rfl
  | otherRequest =>
    cases hc
    exact decode_setupBytes_of_selects (q := .otherRequest) (wf_otherRequest_iff.1 hwf)
  | evCtrEp0 d => cases hc; exact decode_ctrWord 0#4 d
  | evCtrEpn n d => cases hc; rw [decode_ctrWord, if_neg (wf_evCtrEpn_iff.1 hwf)]
  | evBusReset | evEp0Setup | evEp0Out | evEp0Tx | busReset | enable | handler => cases hc; decide
  | busSetup a ep data => cases hc; exact decode_bus_setup a ep data (wf_busSetup_iff.1 hwf)
  | busOut a ep data => cases hc; exact decode_bus_out a ep data (wf_busOut_iff.1 hwf)
  | busIn a ep => cases hc; exact decode_bus_in a ep
  | _ => nomatch hc

/-- Settles O4, by the kind of code: the request its fields select, a row that applies, or one of the four
transactions. -/
theorem encodeOfDecode : Obligations.EncodeOfDecode := by
  refine ⟨fun c i h => ?_, fun p i h => (decode_setup_ok h).2, fun x i h => (decodeInput_ok h).2⟩
  cases c with
  | setup p => exact (decode_setup_ok h).1
  | istr w => exact istrRows_wf w i (decodeIstr_mem h)
  | epr0 w => exact epr0Rows_wf w i (decodeEpr0_mem h)
  | input x => exact (decodeInput_ok h).1

/-- Settles O1: each word is decoded. -/
theorem specWordsDecode : Obligations.SpecWordsDecode := by
  unfold Obligations.SpecWordsDecode
  decide

end Sys2Proof
end

section
/-! PROOFS. The device descriptor (30_encoding.md R98): its 18 bytes, and the request that stages them
(R179, R211). -/

namespace Sys2Proof.Machine

open Sys2Proof

theorem deviceDescriptor_length (cfg : StaticConfig) : (deviceDescriptor cfg).length = 18 := rfl

/-- Settles O16: the response is `SEND` of the device descriptor, which has 18 bytes. -/
theorem getDescriptorDeviceStages : Obligations.GetDescriptorDeviceStages := by
  intro _ _ _ wLength s h
  have hready : Ep0TxReady s (stagedLength (deviceDescriptor s.cfg) wLength) := by
    rwa [stagedLength, deviceDescriptor_length]
  obtain ⟨hsend, hstaged⟩ := send_spec hready
  exact ⟨_, congrArg Flow.outcome hsend, hstaged⟩

/-- Settles O44, by whether the number of configurations fits its byte. -/
theorem deviceDescriptorLayout : Obligations.DeviceDescriptorLayout := by
  intro s
  obtain ⟨hfits, hexec⟩ | ⟨hover, hexec⟩ := execDeviceDescriptorBytes_cases s
  · refine ⟨fun h => absurd hfits (by omega), fun _ => ⟨deviceDescriptor s.cfg, hexec, ?_⟩⟩
    exact ⟨deviceDescriptor_length _, rfl, rfl, u16le_le16 _, rfl, rfl, rfl, rfl, u16le_le16 _,
      u16le_le16 _, u16le_le16 _, rfl, rfl, rfl, rfl⟩
  · exact ⟨fun _ => hexec, fun h => absurd hover (by omega)⟩

end Sys2Proof.Machine
end

section
/-! PROOFS. The Endpoint Buffer Manager (41_buffer_manager.md R131 to R134): the allocation lays the table
and the buffers out one after another, BM_INIT writes the table, and `Enable` (45_device_controller.md R241)
writes it once. -/

namespace Sys2Proof.Machine

open Sys2Proof

/-! ### Ranges laid out one after another -/

/-- Ranges of the given sizes, each beginning where the one before it ends. -/
def consecutive : Nat → List Nat → List (Nat × Nat)
  | _, [] => []
  | off, n :: ns => (off, n) :: consecutive (off + n) ns

theorem consecutive_append (off : Nat) (ms ns : List Nat) :
    consecutive off (ms ++ ns) = consecutive off ms ++ consecutive (off + ms.sum) ns := by
  induction ms generalizing off with
  | nil => simp [consecutive]
  | cons m ms ih => simp [consecutive, ih, Nat.add_assoc]

theorem getElem?_consecutive (off : Nat) (ns : List Nat) (j : Nat) :
    (consecutive off ns)[j]? = ns[j]?.map (off + (ns.take j).sum, ·) := by
  induction ns generalizing off j with
  | nil => rfl
  | cons n ns ih =>
    cases j with
    | zero => simp [consecutive]
    | succ j => simp [consecutive, ih, Nat.add_assoc]

theorem consecutive_bounds {off : Nat} {ns : List Nat} {r : Nat × Nat} (h : r ∈ consecutive off ns) :
    off ≤ r.1 ∧ r.1 + r.2 ≤ off + ns.sum := by
  induction ns generalizing off with
  | nil => cases h
  | cons n ns ih =>
    rw [List.sum_cons]
    rcases List.mem_cons.1 h with rfl | h
    · exact ⟨Nat.le_refl off, by simp⟩
    · have := ih h
      omega

theorem consecutive_even {off : Nat} {ns : List Nat} (hoff : off % 2 = 0) (hns : ∀ n ∈ ns, n % 2 = 0)
    {r : Nat × Nat} (h : r ∈ consecutive off ns) : r.1 % 2 = 0 := by
  induction ns generalizing off with
  | nil => cases h
  | cons n ns ih =>
    obtain ⟨hn, hns⟩ := List.forall_mem_cons.1 hns
    rcases List.mem_cons.1 h with rfl | h
    · exact hoff
    · exact ih (by omega) hns h

/-- A range that ends where another begins, or before, is apart from it. -/
theorem Apart.of_le {r q : Nat × Nat} (h : r.1 + r.2 ≤ q.1) : Apart r q := by
  rintro x ⟨⟨-, hr⟩, hq, -⟩
  omega

theorem consecutive_apart (off : Nat) (ns : List Nat) : (consecutive off ns).Pairwise Apart := by
  induction ns generalizing off with
  | nil => exact .nil
  | cons n ns ih => exact .cons (fun _ hq => .of_le (consecutive_bounds hq).1) (ih _)

/-! ### The assigned ranges (R131) -/

theorem bufferSize_even (e : Endpoint) : bufferSize e % 2 = 0 := by
  unfold bufferSize
  split
  · exact evenSize_even _
  · exact rxSize_even _

/-- The sizes of the table, of endpoint 0's two buffers, and of every declared endpoint's buffer. -/
def assignedSizes (cfg : StaticConfig) : List Nat :=
  [afterTable cfg, evenSize cfg.mps0.toNat, rxSize cfg.mps0.toNat] ++
    (declaredEndpoints cfg).map bufferSize

theorem assignedSizes_even (cfg : StaticConfig) : ∀ n ∈ assignedSizes cfg, n % 2 = 0 := by
  have htable : afterTable cfg % 2 = 0 := by rw [afterTable_eq]; omega
  simp only [assignedSizes, List.forall_mem_append, List.forall_mem_cons, List.forall_mem_map]
  exact ⟨⟨htable, evenSize_even _, rxSize_even _, List.forall_mem_nil _⟩, fun e _ => bufferSize_even e⟩

/-- Together they take packet memory up to the end of the allocation. -/
theorem assignedSizes_sum (cfg : StaticConfig) : (assignedSizes cfg).sum = (allocation cfg).endOff := by
  simp [assignedSizes, endOff_eq, endpointOffset, offsetAt, Nat.add_assoc]

theorem allocation_getD (cfg : StaticConfig) (n : Nat) :
    (allocation cfg).entries.getD n SlotAlloc.empty = slotAlloc cfg n := rfl

/-- The declared endpoints' buffers, laid out after endpoint 0's. -/
def endpointRanges (cfg : StaticConfig) : List (Nat × Nat) :=
  consecutive (afterTable cfg + evenSize cfg.mps0.toNat + rxSize cfg.mps0.toNat)
    ((declaredEndpoints cfg).map bufferSize)

theorem getElem?_endpointRanges (cfg : StaticConfig) (j : Nat) :
    (endpointRanges cfg)[j]? =
      (declaredEndpoints cfg)[j]?.map fun e => (endpointOffset cfg j, bufferSize e) := by
  rw [endpointRanges, getElem?_consecutive, List.getElem?_map, Option.map_map, ← List.map_take]
  rfl

/-- An accepted allocation lays the table, endpoint 0's buffers and the declared endpoints' buffers out
one after another, in this order. -/
theorem Accepted.assignedRanges_eq {cfg : StaticConfig} (h : Accepted cfg) :
    assignedRanges cfg (allocation cfg) = consecutive bdtBase.toNat (assignedSizes cfg) := by
  have hmps0 := h.mps0
  rw [assignedRanges, assignedSizes, consecutive_append]
  simp only [allocation_getD]
  congr 1
  · simp [consecutive, slotAlloc_zero h, rxCapOf_rxCountInit (m := cfg.mps0.toNat) (by omega) (by omega),
      afterTable_eq, bdtBase_toNat]
  · rw [show consecutive _ _ = endpointRanges cfg by
      simp [endpointRanges, bdtBase_toNat, Nat.add_assoc]]
    refine List.ext_getElem? fun j => ?_
    rw [getElem?_endpointRanges, List.getElem?_map]
    cases hj : (declaredEndpoints cfg)[j]? with
    | none => rfl
    | some e =>
      have hhalf := slotAlloc_declared h hj
      obtain ⟨hpos, hle⟩ := h.mps (List.mem_of_getElem? hj)
      cases hd : e.dir with
      | dirIn =>
        simp only [hd, halfAlloc, placedHalf, Prod.mk.injEq] at hhalf
        obtain ⟨haddr, hcap, -⟩ := hhalf
        simp [hd, haddr, hcap, bufferSize]
      | dirOut =>
        simp only [hd, halfAlloc, placedHalf, Prod.mk.injEq] at hhalf
        obtain ⟨haddr, -, hcount⟩ := hhalf
        simp [hd, haddr, hcount, bufferSize, rxCapOf_rxCountInit hpos hle]

/-! ### BM_ALLOCATE -/

theorem bmAllocate_ok {cfg : StaticConfig} (h : Accepted cfg) :
    bmAllocate cfg = .ok (allocation cfg) := by
  obtain ⟨hpma, -, -, -, -, hmps, -⟩ := (accepted_iff cfg).1 h
  have hnone : allocateErrors cfg = [] := by simp [allocateErrors, hpma, hmps]
  rw [bmAllocate, hnone]

theorem exec_bmAllocate {s : State} (h : Accepted s.cfg) :
    exec .bmAllocate s = .next { s with result := .allocation (allocation s.cfg) } := by
  show execBmAllocate s = _
  rw [execBmAllocate, bmAllocate_ok h]
  rfl

/-- Settles O42: the assigned ranges lie one after another from the table on, and their sizes are even. -/
theorem allocationProperties : Obligations.AllocationProperties := by
  intro s h
  obtain ⟨htx, hrx, -⟩ := h.ep0_buffers
  refine ⟨allocation s.cfg, exec_bmAllocate h, ?_, fun r hr => ?_, rfl, htx.ge, hrx.ge, fun e he =>
    ⟨number_le_maxSlot he, ?_⟩⟩
  · rw [h.assignedRanges_eq]
    exact consecutive_apart _ _
  · rw [h.assignedRanges_eq] at hr
    have hend := (consecutive_bounds hr).2
    rw [assignedSizes_sum, bdtBase_toNat, Nat.zero_add] at hend
    exact ⟨consecutive_even rfl (assignedSizes_even _) hr, hend.trans h.endOff⟩
  · cases hd : e.dir with
    | dirIn => exact (h.in_buffer he hd).1 ▸ le_evenSize _
    | dirOut => exact (h.out_buffer he hd).1 ▸ le_rxSize _

/-! ### BM_INIT (R133) -/

/-- A byte outside the table is not written. -/
theorem writtenTable_outside (s : State) {x : Nat} (h : ¬ InRange x 0 (8 * (maxSlot s.cfg + 1))) :
    (s.writeEntries 0 (allocation s.cfg).entries).readByte x = s.readByte x := by
  refine s.readByte_writeEntries_outside 0 x _ (Or.inr ?_)
  rw [allocation_entries_length]
  unfold InRange at h
  omega

theorem tableIntact_writtenTable (s : State) :
    TableIntact (s.writeEntries 0 (allocation s.cfg).entries) := by
  intro n hn
  rw [State.writeEntries_cfg] at hn ⊢
  obtain ⟨htx, -, hrx, hcount⟩ := writtenTable s n hn
  rw [bdtBase_toNat, Nat.zero_add, hcount]
  exact ⟨htx, hrx, rfl⟩

/-- Settles O43: the entries of the allocation are written from slot 0 on. -/
theorem bmInitWritesTheTable : Obligations.BmInitWritesTheTable := fun s h =>
  ⟨_, congrArg Flow.outcome (bmInit_ok h), writtenTable s, fun _ => writtenTable_outside s,
    s.writeEntries_rest 0 _⟩

/-! ### ENABLE (45_device_controller.md R241) -/

theorem enableOp_ok {s : State} (h : Accepted s.cfg) (hen : s.enabled = false) :
    enableOp s = .ok (s.writeEntries 0 (allocation s.cfg).entries).startUp := by
  have hc : configErrors s.cfg = [] := h
  simp [enableOp, hc, hen, peripheralClockEnable, bmInit_ok h]

theorem enableOp_raised {s : State} (h : Accepted s.cfg) (hen : s.enabled = true) :
    enableOp s = .error (.raised (s.recordFault (.unmodelled .enable))) := by
  have hc : configErrors s.cfg = [] := h
  simp [enableOp, hc, hen]

@[simp] theorem State.startUp_pullupLine (s : State) : s.startUp.pullupLine = true :=
  (State.pullupLine_iff _).2 fun hp => if_pos hp

/-- Settles O35: a first call writes the table and then the registers; a second one raises its fault. -/
theorem enableRunsOnce : Obligations.EnableRunsOnce := by
  intro s h
  refine ⟨fun hen => ?_, fun hen hf => ?_⟩
  · refine ⟨_, congrArg Flow.outcome (enableOp_ok h hen), rfl, State.startUp_istr _, rfl, rfl,
      State.startUp_pullupLine _, (tableIntact_writtenTable s).keep (.of_pma rfl rfl), fun n hn => ?_,
      fun x hx => writtenTable_outside s hx, ?_⟩
    · obtain ⟨-, hcountTx, -, hcountRx⟩ := writtenTable s n hn
      exact ⟨hcountTx, hcountRx⟩
    · exact congrArg (fun u : State => { u with
        cntr := s.cntr, istr := s.istr, irqEn := s.irqEn, enabled := s.enabled, pullup := s.pullup })
        (s.writeEntries_rest 0 (allocation s.cfg).entries)
  · rw [← State.recordFault_of_none hf]
    exact congrArg Flow.outcome (enableOp_raised h hen)

end Sys2Proof.Machine
end

section
/-! PROOFS. The Endpoint Dispatch Table (42_dispatch.md): the dispatch faults and why the invariant excludes
them, the handler of a declared endpoint on its footprint, and DISPATCH of a ready block. -/

namespace Sys2Proof.Machine

open Sys2Proof

theorem exec_extHandler (n : BitVec 4) (d : Dir) (s : State) :
    exec (.extHandler n d) s = (extHandler n d s).outcome := rfl

theorem exec_evCtrEpn (n : BitVec 4) (b : BitVec 1) (s : State) :
    exec (.evCtrEpn n b) s = (dispatchTo n b s).outcome := rfl

/-! ### The dispatch faults (R292, R294) -/

/-- A number other than 0 is in REGNUM where some endpoint declares it (R150). -/
theorem registeredNumber_iff {cfg : StaticConfig} {n : BitVec 4} (hn : n ≠ 0#4) :
    registeredNumber cfg n = true ↔ ∃ e ∈ declaredEndpoints cfg, e.number = n := by
  simp only [registeredNumber, Bool.or_eq_true, registered_iff, hn, false_or]
  constructor
  · rintro (⟨e, he, hen, -⟩ | ⟨e, he, hen, -⟩) <;> exact ⟨e, he, hen⟩
  · rintro ⟨e, he, hen⟩
    cases hd : e.dir with
    | dirIn => exact .inl ⟨e, he, hen, hd⟩
    | dirOut => exact .inr ⟨e, he, hen, hd⟩

theorem dispatchTo_unregistered {n : BitVec 4} {s : State} (b : BitVec 1) (hn : n ≠ 0#4)
    (h : ∀ e ∈ declaredEndpoints s.cfg, e.number ≠ n) :
    dispatchTo n b s = raise (.dispatchUnregistered n b) s := by
  have hreg : registeredNumber s.cfg n = false := by
    rw [← Bool.not_eq_true, registeredNumber_iff hn]
    rintro ⟨e, he, hen⟩
    exact h e he hen
  rw [dispatchTo, if_neg hn, if_pos hreg]

theorem dispatchTo_undeclaredDirection {n : BitVec 4} {s : State} {b : BitVec 1} (hn : n ≠ 0#4)
    (hnum : ∃ e ∈ declaredEndpoints s.cfg, e.number = n)
    (h : ∀ e ∈ declaredEndpoints s.cfg, e.number = n → e.dir ≠ dirOfBit b) :
    dispatchTo n b s = raise (.dispatchDirection n b) s := by
  rw [dispatchTo, if_neg hn, if_neg (by simp [(registeredNumber_iff hn).2 hnum]),
    if_pos ((registered_eq_false _ _ _).2 ⟨hn, h⟩)]

/-- Settles O30: the number is looked up first, then its direction. -/
theorem dispatchFaults : Obligations.DispatchFaults := by
  intro n dirBit s hn hf
  simp only [exec_evCtrEpn, ← State.recordFault_of_none hf]
  exact ⟨fun h => congrArg Flow.outcome (dispatchTo_unregistered dirBit hn h),
    fun hnum h => congrArg Flow.outcome (dispatchTo_undeclaredDirection hn hnum h)⟩

/-! ### No step raises a dispatch fault (R154) -/

/-- The fault register is as before, or holds F_UNMODELLED. -/
def FaultKeptOrUnmodelled (s t : State) : Prop :=
  t.fault = s.fault ∨ ∃ op, t.fault = some (.unmodelled op)

theorem FaultKeptOrUnmodelled.recordFault (op : Operation) (s : State) :
    FaultKeptOrUnmodelled s (s.recordFault (.unmodelled op)) := by
  cases hf : s.fault with
  | none => exact .inr ⟨op, State.recordFault_none hf _⟩
  | some f => exact .inl (by simp [State.recordFault, hf])

theorem busIn_faultKeptOrUnmodelled {a : BitVec 7} {ep : BitVec 4} {s : State} :
    Flow.Leaves FaultKeptOrUnmodelled s (busIn a ep s) := by
  have hobs : ∀ o, Flow.Leaves FaultKeptOrUnmodelled s (.ok (s.observe o)) := fun _ => .of_ok (.inl rfl)
  unfold busIn
  split
  · exact hobs _
  · split
    · exact hobs _
    · exact hobs _
    · exact hobs _
    · refine .operand (countTx_cases _ _ s) (.recordFault _ s) fun c _ => ?_
      refine .operand (addrTx_cases _ _ s) (.recordFault _ s) fun off _ => ?_
      exact .operand (memRead_cases _ _ _ s) (.recordFault _ s) fun bytes _ => .of_ok (.inl rfl)

theorem Ready.bus_faultKeptOrUnmodelled {i : Instr} (hi : BusInstr i) {s t : State} (h : Ready s)
    (ht : exec i s = .next t) : FaultKeptOrUnmodelled s t := by
  cases hi with
  | setup a ep data hl =>
    obtain ⟨u, hu, -, hf⟩ := h.busSetup_inv (a := a) (ep := ep) hl
    rw [exec_busSetup hl, hu] at ht
    injection ht with ht
    exact .inl (ht ▸ hf)
  | out a ep data hl =>
    obtain ⟨u, hu, -, hf⟩ := h.busOut_inv (a := a) (ep := ep) (data := data)
    rw [exec_busOut hl, hu] at ht
    injection ht with ht
    exact .inl (ht ▸ hf)
  | inToken a ep => exact busIn_faultKeptOrUnmodelled.outcome ht
  | reset =>
    injection ht with ht
    refine .inl ?_
    rw [← ht, busReset]
    split <;> rfl

theorem StepKind.faultKeptOrUnmodelled {s t : State} (hk : StepKind s t) (hacc : Accepted s.cfg)
    (h : Inv s) : FaultKeptOrUnmodelled s t := by
  cases hk with
  | idle xs ht => exact .inl (ht ▸ rfl)
  | enable xs _ hx =>
    obtain ⟨-, hf | rfl⟩ := enable_inv (s := s.withInputs xs) hacc (h.withInputs xs) hx
    · exact .inl hf
    · exact .recordFault .enable (s.withInputs xs)
  | handler xs he hx =>
    obtain ⟨-, hf | hf⟩ := ((h.ready_of_handlerEnabled hacc he).withInputs xs).handler hx
    · exact .inl hf
    · exact .inr ⟨_, hf⟩
  | bus xs i ha hi hx =>
    exact ((h.ready_of_attached hacc ha).withInputs xs).bus_faultKeptOrUnmodelled hi hx

/-- Settles O56, by the kinds of step: the only fault a step can record is F_UNMODELLED. -/
theorem dispatchFaultsUnreachable : Obligations.DispatchFaultsUnreachable := by
  intro s t h hf hstep n d
  obtain ⟨hacc, hk⟩ := step_cases hstep
  obtain hkept | ⟨op, hop⟩ := hk.faultKeptOrUnmodelled hacc h
  · simp [hkept, hf]
  · simp [hop]

/-! ### The handler of a declared endpoint -/

theorem Accepted.number_ne_zero {cfg : StaticConfig} (h : Accepted cfg) {e : Endpoint}
    (he : e ∈ declaredEndpoints cfg) : e.number ≠ 0#4 := by
  intro h0
  have hpos := (h.number he).1
  rw [h0] at hpos
  exact absurd hpos (by decide)

/-- The direction bit of a direction (R156). -/
theorem dirOfBit_of_dir (d : Dir) : dirOfBit (if d = .dirOut then 1#1 else 0#1) = d := by
  cases d <;> rfl

/-- `extHandler_declared`, at the slot of the endpoint's number. -/
theorem Ready.extHandler {s : State} (h : Ready s) {e : Endpoint} (he : e ∈ declaredEndpoints s.cfg)
    {i : Fin 8} (hi : i.val = e.number.toNat) :
    extHandler e.number e.dir s = extHandlerOn (declaredFootprint e i s) s := by
  obtain ⟨j, hj, hx⟩ := extHandler_declared h he
  obtain rfl : j = i := Fin.ext (hj.trans hi.symm)
  exact hx

theorem Ready.exec_evCtrEpn {s : State} (h : Ready s) {e : Endpoint} (he : e ∈ declaredEndpoints s.cfg) :
    exec (.evCtrEpn e.number (if e.dir = .dirOut then 1#1 else 0#1)) s =
      exec (.extHandler e.number e.dir) s :=
  congrArg Flow.outcome
    (dispatchTo_declared he (h.accepted.number_ne_zero he) (dirOfBit_of_dir e.dir))

/-- Where every drawn write lies in the footprint, no write faults. -/
theorem extHandlerOn_ok {fp : Footprint} {s : State} (h : DrawsAdmitted fp s) :
    ∃ t, extHandlerOn fp s = .ok t := by
  unfold extHandlerOn
  split
  · next ws rest hdraws =>
    exact ⟨_, handlerWrites_admitted (h ws (by rw [hdraws]; rfl)) _⟩
  · exact ⟨_, rfl⟩

/-- The handler of a declared endpoint completes and keeps its frame. -/
theorem Ready.extHandlerOn_completes {s : State} (h : Ready s) {e : Endpoint}
    (he : e ∈ declaredEndpoints s.cfg) {i : Fin 8} (hd : DrawsAdmitted (declaredFootprint e i s) s) :
    ∃ t, extHandlerOn (declaredFootprint e i s) s = .ok t ∧
      HandlerFrame (declaredFootprint e i s) s t := by
  obtain ⟨t, ht⟩ := extHandlerOn_ok hd
  obtain ⟨u, hu, hdone⟩ | ⟨u, hu, -⟩ := extHandlerOn_cases h he i
  · exact ⟨u, hu, hdone.frame⟩
  · rw [ht] at hu
    cases hu

theorem HandlerFrame.fault {fp : Footprint} {s t : State} (h : HandlerFrame fp s t) :
    t.fault = s.fault := (congrArg State.fault h.rest :)

/-- Settles O31: the footprint is the one the table gives, and admitted draws do not fault. -/
theorem extHandlerFrame : Obligations.ExtHandlerFrame := by
  intro e s h he
  obtain ⟨i, hi, hx⟩ := extHandler_declared h he
  obtain ⟨hslot, hdir, hcount, hbase, hcap, hlimit⟩ := declaredFootprint_fields e i s
  refine ⟨declaredFootprint e i s, by rw [hslot, hi], hdir, (h.footprint_separate he i).1, hcount, hbase,
    hcap, hlimit, fun hd => ?_⟩
  obtain ⟨t, ht, hframe⟩ := h.extHandlerOn_completes he hd
  have hexec : exec (.extHandler e.number e.dir) s = .next t := by
    rw [exec_extHandler, hx, ht, Flow.outcome_ok]
  exact ⟨t, hexec, (h.exec_evCtrEpn he).trans hexec, hframe.fault, hframe⟩

/-! ### Drawn writes -/

theorem Ready.withDraws {s : State} (h : Ready s) (draws : List (List HandlerWrite)) :
    Ready { s with handlerDraws := draws } :=
  ⟨h.accepted, ⟨h.inv.memory, h.inv.base, h.inv.reserved, h.inv.table, h.inv.powered, h.inv.slots,
    h.inv.control⟩, h.enabled⟩

/-- EXT_HANDLER of a declared endpoint makes the writes that the environment drew for it. -/
theorem Ready.extHandler_drawn {s : State} (h : Ready s) {e : Endpoint}
    (he : e ∈ declaredEndpoints s.cfg) {i : Fin 8} (hi : i.val = e.number.toNat)
    (ws : List HandlerWrite) (rest : List (List HandlerWrite)) :
    exec (.extHandler e.number e.dir) { s with handlerDraws := ws :: rest } =
      (handlerWrites (declaredFootprint e i s) ws { s with handlerDraws := rest }).outcome :=
  congrArg Flow.outcome ((h.withDraws (ws :: rest)).extHandler he hi)

theorem handlerWrites_append_outside {fp : Footprint} {before after : List HandlerWrite}
    {w : HandlerWrite} (hb : ∀ x ∈ before, fp.admits x = true) (hw : fp.admits w = false) (s : State) :
    handlerWrites fp (before ++ w :: after) s =
      raise (.unmodelled .extHandler) (admittedWrites fp before s) := by
  rw [handlerWrites_append hb, handlerWrites, if_neg (by simp [hw])]

/-- Settles O33: the writes before the one outside the footprint are all admitted, and that one raises. -/
theorem extHandlerOutsideFootprintFaults : Obligations.ExtHandlerOutsideFootprintFaults := by
  intro e i s fp before after w rest h hf he hi hfp hbefore hw
  rw [h.footprint he hi] at hfp
  injection hfp with hfp
  subst hfp
  obtain ⟨hsep, hcount, -⟩ := h.footprint_separate he i
  have hnone := (admittedWrites_done hsep hcount before { s with handlerDraws := rest }).frame.fault.trans hf
  refine ⟨_, ?_, hnone, ?_⟩
  · rw [h.extHandler_drawn he hi, handlerWrites_admitted hbefore, Flow.outcome_ok]
  · rw [h.extHandler_drawn he hi, handlerWrites_append_outside hbefore hw, raise_eq, Flow.outcome_raised,
      State.recordFault_of_none hnone]

/-! ### Draws that reach given values -/

/-- One byte write for each byte of a list, from an offset on. -/
def byteWrites : Nat → List Byte → List HandlerWrite
  | _, [] => []
  | a, b :: bs => .byte a b :: byteWrites (a + 1) bs

theorem handlerWrites_byteWrites {fp : Footprint} {a : Nat} {bs : List Byte}
    (h : ∀ x, InRange x a bs.length → fp.covers x = true) (s : State) :
    handlerWrites fp (byteWrites a bs) s = .ok (s.writeBytes a bs) := by
  induction bs generalizing a s with
  | nil => rfl
  | cons b bs ih =>
    rw [List.length_cons] at h
    have hhead : fp.admits (.byte a b) = true := h a ⟨by omega, by omega⟩
    have htail : ∀ x, InRange x (a + 1) bs.length → fp.covers x = true :=
      fun x ⟨hlo, hhi⟩ => h x ⟨by omega, by omega⟩
    rw [byteWrites, handlerWrites, if_pos hhead, ih htail]
    rfl

/-- The draws that give every place of a footprint a value. -/
def valueWrites (fp : Footprint) (c : Bool) (st : Stat) (k : BitVec 10) (bytes : List Byte) :
    List HandlerWrite :=
  .ctr c :: .stat st :: .count k :: byteWrites fp.base bytes

/-- The state they give. -/
def withValues (fp : Footprint) (c : Bool) (st : Stat) (k : BitVec 10) (bytes : List Byte) (s : State) :
    State :=
  (handlerWrite fp (.count k) (handlerWrite fp (.stat st) (handlerWrite fp (.ctr c) s))).writeBytes
    fp.base bytes

/-- The count field that a `count` draw writes: COUNT_TX(n)[9:0] or COUNT_RX(n)[9:0]. -/
theorem handlerWrite_count_field (fp : Footprint) (k : BitVec 10) (s : State) :
    field ((handlerWrite fp (.count k) s).readHalf fp.countAt) 0 10 = k := by
  unfold handlerWrite
  cases fp.dir with
  | dirIn => simp [field, ← BitVec.setWidth_eq_extractLsb']
  | dirOut => simp [field_withField_same]

section values
variable (fp : Footprint) (c : Bool) (st : Stat) (k : BitVec 10) (bytes : List Byte) (s : State)

theorem handlerWrites_valueWrites (hl : bytes.length = fp.cap) (hlim : fp.base + fp.cap ≤ fp.limit) :
    handlerWrites fp (valueWrites fp c st k bytes) s = .ok (withValues fp c st k bytes s) := by
  have hcovers : ∀ x, InRange x fp.base bytes.length → fp.covers x = true := by
    rintro x ⟨hlo, hhi⟩
    exact (fp.covers_iff x).2 ⟨hlo, by omega, by omega⟩
  simp only [valueWrites, handlerWrites, Footprint.admits, if_true]
  exact handlerWrites_byteWrites hcovers _

theorem withValues_fault : (withValues fp c st k bytes s).fault = s.fault := by
  unfold withValues handlerWrite
  cases fp.dir <;> rfl

theorem withValues_handlerDraws : (withValues fp c st k bytes s).handlerDraws = s.handlerDraws := by
  unfold withValues handlerWrite
  cases fp.dir <;> rfl

theorem withValues_eprAt :
    (withValues fp c st k bytes s).eprAt fp.slot = halfWord fp.dir (s.eprAt fp.slot) c st := by
  unfold withValues handlerWrite
  cases fp.dir <;> simp [halfWord]

theorem withValues_count (h : fp.countAt + 2 ≤ fp.base) :
    field ((withValues fp c st k bytes s).readHalf fp.countAt) 0 10 = k := by
  rw [withValues, State.readHalf_writeBytes_outside _ _ _ _ (.inl h), handlerWrite_count_field]

theorem withValues_bytes : (withValues fp c st k bytes s).readBytes fp.base bytes.length = bytes :=
  State.readBytes_writeBytes_same _ _ _

end values

/-- Settles O32: the draws write the two fields, the count, and the buffer byte by byte. -/
theorem extHandlerReachesEveryValue : Obligations.ExtHandlerReachesEveryValue := by
  intro e s c st k bytes h he hl
  obtain ⟨i, hi, -⟩ := extHandler_declared h he
  obtain ⟨hslot, hdir, hcountAt, hbase, hcap, hlimit⟩ := declaredFootprint_fields e i s
  obtain ⟨-, -, -, hafter, hend⟩ := h.footprint_separate he i
  have hexec := h.extHandler_drawn he hi (valueWrites (declaredFootprint e i s) c st k bytes) []
  generalize declaredFootprint e i s = fp at *
  have hapart : fp.countAt + 2 ≤ fp.base := by
    have hn := number_le_maxSlot he
    cases hd : e.dir <;> simp only [hd] at hcountAt <;> omega
  have hcount := withValues_count fp c st k bytes { s with handlerDraws := [] } hapart
  have hbytes := withValues_bytes fp c st k bytes { s with handlerDraws := [] }
  rw [handlerWrites_valueWrites _ _ _ _ _ _ (hl.trans hcap.symm) (by omega), Flow.outcome_ok] at hexec
  refine ⟨_, _, hexec, withValues_fault .., withValues_handlerDraws .., fun n hn => ?_, ?_⟩
  · obtain rfl : n = fp.slot := by rw [hslot]; exact Fin.ext (hn.trans hi.symm)
    rw [withValues_eprAt, hdir]
    rfl
  · cases hd : e.dir <;> simp only [hd] at hcountAt hbase <;>
      exact ⟨hcountAt ▸ hcount, hbase ▸ hbytes⟩

/-! ### DISPATCH and HANDLER of a ready block -/

/-- What a completed DISPATCH of one slot leaves: every other slot, the fault register, CNTR, ISTR, BTABLE
and the history. -/
structure DispatchFrame (s t : State) (n : Fin 8) : Prop where
  slots : SlotsSameBut s t n
  fault : t.fault = s.fault
  cntr : t.cntr = s.cntr
  istr : t.istr = s.istr
  btable : t.btable = s.btable
  hist : t.hist = s.hist

theorem Ep0Frame.dispatchFrame {s t : State} (h : Ep0Frame s t) : DispatchFrame s t 0 :=
  ⟨h.slots, h.fault, h.cntr, h.istr, h.btable, h.hist⟩

theorem HandlerFrame.dispatchFrame {fp : Footprint} {s t : State} (h : HandlerFrame fp s t) :
    DispatchFrame s t fp.slot where
  slots := h.slots
  fault := h.fault
  cntr := (congrArg State.cntr h.rest :)
  istr := (congrArg State.istr h.rest :)
  btable := (congrArg State.btable h.rest :)
  hist := (congrArg State.hist h.rest :)

/-- The draw of EP_ID is outside the frame. -/
theorem DispatchFrame.of_takeEpId {s t : State} {n : Fin 8} (h : DispatchFrame s.takeEpId t n) :
    DispatchFrame s t n where
  slots := fun m hm => (h.slots m hm).trans (s.takeEpId_eprAt m)
  fault := h.fault.trans (by simp)
  cntr := h.cntr.trans (by simp)
  istr := h.istr.trans (by simp)
  btable := h.btable.trans (by simp)
  hist := h.hist.trans (by simp)

/-- DISPATCH of a ready block completes where the environment draws no handler write. -/
theorem Ready.dispatch_completes {s : State} (h : Ready s) (hc : s.istrCtr = true)
    (hdraws : s.handlerDraws = []) :
    ∃ t, Machine.dispatch s = .ok t ∧ DispatchFrame s t s.epIdChoice := by
  obtain ⟨h0, hd⟩ | ⟨e, he, i, -, hic, hd⟩ := h.dispatch hc
  · exact ⟨_, hd, h0 ▸ (State.afterEp0_done h.takeEpId).1.dispatchFrame.of_takeEpId⟩
  · have hadm : DrawsAdmitted (declaredFootprint e i s.takeEpId) s.takeEpId := by
      simp [DrawsAdmitted, hdraws]
    obtain ⟨t, ht, hframe⟩ := h.takeEpId.extHandlerOn_completes (by simpa using he) hadm
    obtain ⟨hslot, -⟩ := declaredFootprint_fields e i s.takeEpId
    refine ⟨t, hd.trans ht, ?_⟩
    have := hframe.dispatchFrame.of_takeEpId
    rwa [hslot, hic] at this

/-- With no bus reset pending and a completion pending, `Handler()` is DISPATCH (R245). -/
theorem handlerOp_of_dispatch {s t : State} (hr : Istr.resetFlag s.istr = false) (hc : s.istrCtr = true)
    (hd : dispatch s = .ok t) : handlerOp s = .ok t := by
  rw [handlerOp, handlerReset, if_neg (by simp [hr]), Flow.andThen_ok, handlerComplete, if_pos hc, hd]
  rfl

/-- Settles O34, by the reported slot: endpoint 0, or a declared endpoint. -/
theorem dispatchCompletes : Obligations.DispatchCompletes := by
  intro s h hf hdraws hc hr
  rw [State.istrView_ctr] at hc
  obtain ⟨t, ht, hframe⟩ := h.dispatch_completes hc hdraws
  refine ⟨t, congrArg Flow.outcome ht, congrArg Flow.outcome (handlerOp_of_dispatch hr hc ht),
    hframe.fault.trans hf, s.epIdChoice, s.istrView_epId, hframe.slots, hframe.cntr, hframe.istr,
    hframe.btable, hframe.hist⟩

end Sys2Proof.Machine
end

section
/-! PROOFS. The standard requests (43_control_transfer.md R171 to R184): each is a staged response or a
stall, and under a ready block no request overruns endpoint 0's transmit buffer (R187). -/

namespace Sys2Proof.Machine

open Sys2Proof

/-! ### A staged response (R171) -/

/-- SEND completes where endpoint 0's transmit buffer can be used. -/
theorem send_completes {bytes : List Byte} {wLength : Half} {s : State}
    (h : Ep0TxReady s (stagedLength bytes wLength)) :
    ∃ t, (send bytes wLength s).outcome = .next t ∧ Staged s t bytes wLength := by
  obtain ⟨hsend, hstaged⟩ := send_spec h
  exact ⟨s.stage bytes wLength, congrArg Flow.outcome hsend, hstaged⟩

theorem stagedLength_nil (wLength : Half) : stagedLength [] wLength = 0 := Nat.min_zero _

/-- The pending address is no part of what a response needs. -/
theorem Ep0TxReady.withPending {s : State} {k : Nat} (h : Ep0TxReady s k) (v : Half) :
    Ep0TxReady { s with pending := v } k := ⟨h.entry, h.count, h.buffer, h.apart⟩

theorem Staged.pending {s t : State} {bytes : List Byte} {wLength : Half} (h : Staged s t bytes wLength) :
    t.pending = s.pending := (congrArg State.pending h.rest :)

theorem Staged.daddr {s t : State} {bytes : List Byte} {wLength : Half} (h : Staged s t bytes wLength) :
    t.daddr = s.daddr := (congrArg State.daddr h.rest :)

/-- Settles O12, by what staging a response leaves. -/
theorem sendStages : Obligations.SendStages := fun _ _ _ h => send_completes h

/-- Settles O14: the response is `SEND` of two zero bytes. -/
theorem getStatusStagesZeros : Obligations.GetStatusStagesZeros :=
  fun _ _ _ _ _ h => send_completes (bytes := [0x00#8, 0x00#8]) h

/-- Settles O15: the response is an empty `SEND` from the state with `pending` stored. -/
theorem setAddressDefersTheAddress : Obligations.SetAddressDefersTheAddress := by
  intro _ wValue _ wLength s h
  have hready : Ep0TxReady { s with pending := wValue } (stagedLength [] wLength) := by
    rw [stagedLength_nil]
    exact h.withPending wValue
  obtain ⟨t, ht, hstaged⟩ := send_completes hready
  exact ⟨t, ht, hstaged.pending, hstaged.daddr, hstaged⟩

/-! ### The descriptor requests (R180, R181) -/

theorem getDescriptorConfiguration_some {descIndex : Byte} {s : State} {c : Configuration}
    (h : s.cfg.configs[descIndex.toNat]? = some c) (wLength : Half) :
    getDescriptorConfiguration descIndex wLength s = send (composeConfig c) wLength s := by
  rw [getDescriptorConfiguration, h]

theorem getDescriptorConfiguration_none {descIndex : Byte} {s : State}
    (h : s.cfg.configs.length ≤ descIndex.toNat) (wLength : Half) :
    getDescriptorConfiguration descIndex wLength s = .ok s.stallTx := by
  rw [getDescriptorConfiguration, List.getElem?_eq_none h]

/-- Settles O17, by whether the index selects a configuration. -/
theorem getDescriptorConfigurationStages : Obligations.GetDescriptorConfigurationStages := by
  intro _ descIndex _ wLength s
  refine ⟨fun c hc h => ?_, fun hnone => ⟨s.stallTx, ?_, s.stallTx_spec⟩⟩
  · rw [← composeConfig_length] at h
    obtain ⟨t, ht, hstaged⟩ := send_completes h
    exact ⟨t, (congrArg Flow.outcome (getDescriptorConfiguration_some hc wLength)).trans ht, hstaged⟩
  · exact congrArg Flow.outcome (getDescriptorConfiguration_none hnone wLength)

/-- The report blob is that of the first configuration with one (R220). -/
theorem reportSource_of_first {cfg : StaticConfig} {before after : List Configuration}
    {c : Configuration} {blob : List Byte} (hcfg : cfg.configs = before ++ c :: after)
    (hbefore : ∀ b ∈ before, b.reportBlob = none) (hc : c.reportBlob = some blob) :
    reportSource cfg = some blob := by
  rw [reportSource, hcfg, List.findSome?_append, List.findSome?_eq_none_iff.2 hbefore, Option.none_or,
    List.findSome?_cons, hc]

theorem reportSource_eq_none {cfg : StaticConfig} (h : ∀ c ∈ cfg.configs, c.reportBlob = none) :
    reportSource cfg = none := List.findSome?_eq_none_iff.2 h

theorem getDescriptorReport_some {s : State} {blob : List Byte} (h : reportSource s.cfg = some blob)
    (wLength : Half) : getDescriptorReport wLength s = send blob wLength s := by
  rw [getDescriptorReport, h]

theorem getDescriptorReport_none {s : State} (h : reportSource s.cfg = none) (wLength : Half) :
    getDescriptorReport wLength s = .ok s.stallTx := by
  rw [getDescriptorReport, h]

/-- Settles O18, by whether some configuration has a report blob. -/
theorem getDescriptorReportStages : Obligations.GetDescriptorReportStages := by
  intro _ _ _ wLength s
  refine ⟨fun before c after blob hcfg hbefore hc h => ?_, fun hnone => ⟨s.stallTx, ?_, s.stallTx_spec⟩⟩
  · have hblob := reportSource_of_first hcfg hbefore hc
    obtain ⟨t, ht, hstaged⟩ := send_completes (bytes := blob) h
    exact ⟨t, (congrArg Flow.outcome (getDescriptorReport_some hblob wLength)).trans ht, hstaged⟩
  · exact congrArg Flow.outcome (getDescriptorReport_none (reportSource_eq_none hnone) wLength)

/-! ### SET_CONFIGURATION and the stalling requests (R172, R182 to R184) -/

/-- SET_CONFIGURATION stages its acknowledgment, and with the fall-through stalls after that. -/
theorem setConfiguration_eq {wLength : Half} {s : State} (h : Ep0TxReady s (stagedLength [] wLength)) :
    setConfiguration wLength s = .ok (if s.params.setConfigFallthrough then
      (s.stage [] wLength).stallTx else s.stage [] wLength) := by
  rw [setConfiguration, (send_spec h).1, Flow.andThen_ok, State.stage_params]

/-- Settles O19, by the fall-through parameter. -/
theorem setConfigurationAcknowledges : Obligations.SetConfigurationAcknowledges := by
  intro _ _ _ wLength s h
  rw [← stagedLength_nil wLength] at h
  refine ⟨s.stage [] wLength, _, (send_spec h).2, congrArg Flow.outcome (setConfiguration_eq h),
    fun hoff => ?_, fun hon => ?_⟩
  · rw [hoff, if_neg Bool.false_ne_true]
  · rw [hon, if_pos rfl]
    exact State.stallTx_spec _

/-- Settles O20: all three operations are `stall_tx()`. -/
theorem stallingRequestsOnlyStall : Obligations.StallingRequestsOnlyStall :=
  fun _ _ _ _ _ _ s => ⟨s.stallTx, s.stallTx_spec, rfl, rfl, rfl⟩

/-! ### A ready block (R187, R291) -/

/-- A request of a ready block completes. -/
theorem Ready.exec_requestInstr {s : State} (h : Ready s) (r : Request) (p : SetupPacket) :
    exec (requestInstr r p) s = .next (s.afterRequest r p) := by
  rw [Machine.exec_requestInstr, h.runRequest, Flow.outcome_ok]

/-- Settles O21: a request writes what `State.afterRequest_done` says, and a stored packet fits its
buffer. -/
theorem readyBlockNeverOverruns : Obligations.ReadyBlockNeverOverruns := by
  intro s h
  refine ⟨fun p i hi => ?_, fun a ep data => ⟨fun hl => ?_, fun hl => ?_⟩⟩
  · obtain ⟨-, rfl⟩ := decode_setup_eq_ok.1 hi
    obtain ⟨hf, -, -, hbytes⟩ :=
      State.afterRequest_done h (decodeRequest (setupKey p)) (setupPacketOf p)
    exact ⟨_, h.exec_requestInstr _ _, hf.fault, fun _ => h.accepted.response_fits, hbytes⟩
  · obtain ⟨t, ht, -, hf⟩ := h.busSetup_inv (a := a) (ep := ep) hl
    exact ⟨t, by rw [exec_busSetup hl, ht, Flow.outcome_ok], hf⟩
  · obtain ⟨t, ht, -, hf⟩ := h.busOut_inv (a := a) (ep := ep) (data := data)
    exact ⟨t, by rw [exec_busOut hl, ht, Flow.outcome_ok], hf⟩

end Sys2Proof.Machine
end

section
/-! PROOFS. The endpoint-0 events (43_control_transfer.md R174, R185, R186), the early commit of R327 (1),
and what changes DADDR (R188). -/

namespace Sys2Proof.Machine

open Sys2Proof

/-! ### The SETUP stage (R174) -/

/-- A request that completes without a fault is followed by the re-arm. -/
theorem setupStage_of_exec {s t : State} {i : Instr} (h : Ep0RxReady s)
    (hi : decode (.setup s.packet) = .ok i) (ht : exec i s.clearCtrRx0 = .next t)
    (hf : t.fault = none) : setupStage s = .ok t.rearmRx := by
  obtain ⟨-, rfl⟩ := decode_setup_eq_ok.1 hi
  rw [exec_requestInstr] at ht
  rw [setupStage_eq h, (runRequest_leaves _ _ _).outcome_ok ht hf, Flow.andThen_ok]

/-- Settles O22: the packet in the receive buffer selects the request that the stage runs. -/
theorem setupStageRunsTheRequest : Obligations.SetupStageRunsTheRequest :=
  fun _ _ _ h _ hi ht hf => congrArg Flow.outcome (setupStage_of_exec h hi ht hf)

/-! ### The OUT stage (R185) -/

/-- Settles O24: only EPR[0] is written. -/
theorem outStageRearms : Obligations.OutStageRearms :=
  fun s => ⟨outStage s, rfl, outStage_eprAt s, (outStage_frame s).slots, rfl, fun _ => rfl⟩

/-! ### The transmit stage (R186) -/

theorem State.commitAddress_rest (s : State) :
    { s.commitAddress with daddr := s.daddr, pending := s.pending } = s := by
  unfold State.commitAddress
  split <;> rfl

theorem txStage_rest (s : State) :
    { txStage s with epr := s.epr, daddr := s.daddr, pending := s.pending } = s :=
  congrArg (fun t : State => { t with epr := s.epr }) s.clearCtrTx0.commitAddress_rest

theorem txStage_daddr_of_pending {s : State} (h : s.pending ≠ 0#16) :
    (txStage s).daddr = Daddr.enabledAt (field s.pending 0 7) := by
  simp [txStage, State.commitAddress, h]

theorem txStage_daddr_of_not_pending {s : State} (h : s.pending = 0#16) :
    (txStage s).daddr = s.daddr := by
  simp [txStage, State.commitAddress, h]

/-- Settles O25, by whether an address is pending. -/
theorem txStageCommitsTheAddress : Obligations.TxStageCommitsTheAddress := fun s =>
  ⟨txStage s, rfl, txStage_eprAt s, (txStage_frame s).slots, State.readByte_congr (txStage_pma s),
    fun hp => ⟨txStage_daddr_of_pending hp, txStage_pending s⟩,
    fun hp => ⟨txStage_daddr_of_not_pending hp, (txStage_pending s).trans hp.symm⟩, txStage_rest s⟩

/-! ### A served SET_ADDRESS (R177, R327) -/

/-- A request with a response, which no fall-through stalls, ends with it staged. -/
theorem State.afterRequest_of_response {s : State} {r : Request} {p : SetupPacket} {b : List Byte}
    (hb : response s.cfg (requestInstr r p) = some b)
    (hft : r = .setConfiguration → s.params.setConfigFallthrough = false) :
    s.afterRequest r p = (requestBase r p s).stage b p.wLength := by
  have hno : ¬(r = .setConfiguration ∧ s.params.setConfigFallthrough = true) := by
    rintro ⟨hr, hon⟩
    rw [hft hr] at hon
    exact Bool.false_ne_true hon
  rw [State.afterRequest, hb]
  exact if_neg hno

/-- A packet that decodes to SET_ADDRESS selects that request and carries its value. -/
theorem decode_setAddress {p : List Byte} {t : Byte} {v x l : Half}
    (h : decode (.setup p) = .ok (.setAddress t v x l)) :
    decodeRequest (setupKey p) = .setAddress ∧ (setupPacketOf p).wValue = v := by
  obtain ⟨-, h⟩ := decode_setup_eq_ok.1 h
  cases hr : decodeRequest (setupKey p) <;> rw [hr] at h <;> cases h
  exact ⟨rfl, rfl⟩

/-- The SETUP stage of a SET_ADDRESS stores the address and stages the zero-length acknowledgment. -/
theorem State.afterSetup_setAddress {s : State} {t : Byte} {v x l : Half}
    (h : decode (.setup s.packet) = .ok (.setAddress t v x l)) :
    s.afterSetup =
      (({ s.clearCtrRx0 with pending := v } : State).stage [] (setupPacketOf s.packet).wLength).rearmRx := by
  obtain ⟨hr, hv⟩ := decode_setAddress h
  rw [State.afterSetup, hr, State.afterRequest_of_response (b := []) rfl (by simp), requestBase, hv]

/-- Settles O28: the SETUP stage leaves the transmit completion, whose stage then commits the address. -/
theorem earlyCommitInOneCall : Obligations.EarlyCommitInOneCall := by
  intro dirBit _ wValue _ _ s h hrx hsetup htx hne hi
  obtain ⟨hf, -, -, -, -, -, hvalid, -⟩ := State.afterEp0_done h
  have hreceive : s.afterReceive = s.afterSetup := by rw [State.afterReceive, if_pos hrx, if_pos hsetup]
  have hkept : Epr.ctrTx (s.afterSetup.eprAt 0) = true := by
    obtain ⟨-, -, -, hctrTx, -⟩ := State.afterReceive_done h
    rw [← hreceive, hctrTx, htx]
  have hep0 : s.afterEp0 = txStage s.afterSetup := by rw [State.afterEp0, hreceive, if_pos hkept]
  have hstage := State.afterSetup_setAddress hi
  have hpending : s.afterSetup.pending = wValue := by simp [hstage]
  have hstatTx : Epr.statTx (s.afterSetup.eprAt 0) = .valid := by
    simp [hstage, State.rearmRx, State.stage_eprAt]
  refine ⟨s.afterEp0, h.exec_evCtrEp0 dirBit, hf.fault, ?_, ?_, ?_, hvalid (.inl hrx)⟩
  · rw [hep0, txStage_daddr_of_pending (hpending ▸ hne), hpending]
    rfl
  · rw [hep0, txStage_pending]
  · simpa [hep0, txStage_eprAt] using hstatTx

/-! ### What changes DADDR (R188) -/

/-- DADDR is as before, or was written by one of its three writers: a bus reset, `Reset()`, or the
transmit stage of endpoint 0. -/
def AddressWriters (s t : State) : Prop :=
  t.daddr = s.daddr ∨
    (t.daddr = 0x0000#16 ∧ Istr.resetFlag t.istr = true) ∨
    (t.daddr = 0x0080#16 ∧ Istr.resetFlag s.istr = true ∧ Istr.resetFlag t.istr = false) ∨
    (Epr.ctrTx (s.eprAt 0) = true ∧ Epr.ctrTx (t.eprAt 0) = false ∧ t.pending = 0#16 ∧
      ∃ a, t.daddr = Daddr.enabledAt a)

theorem AddressCommit.addressWriters {s t : State} (h : AddressCommit s t) : AddressWriters s t := by
  obtain ⟨-, hkept | hcommit⟩ := h
  · exact .inl hkept
  · exact .inr (.inr (.inr hcommit))

/-- After `Reset()` of an accepted configuration no transmit completion of endpoint 0 is left to serve. -/
theorem State.afterReset_addressWriters {s t : State} (hacc : Accepted s.cfg)
    (hr : Istr.resetFlag s.istr = true) (h : AddressCommit s.afterReset t) : AddressWriters s t := by
  obtain ⟨histr, hkept | ⟨hctr, -⟩⟩ := h
  · refine .inr (.inr (.inl ⟨hkept, hr, ?_⟩))
    rw [histr, State.afterReset_istr]
    decide
  · rw [State.afterReset_zero hacc] at hctr
    exact absurd hctr (by decide)

theorem handlerComplete_commit (s : State) : Flow.Leaves AddressCommit s (handlerComplete s) := by
  unfold handlerComplete
  split
  · exact dispatch_commit s
  · exact .of_ok ⟨rfl, .inl rfl⟩

/-- AckInterrupt changes nothing (R246). -/
theorem andThen_ackInterrupt (x : Flow State) :
    Flow.andThen x (fun t => .ok (ackInterrupt t)) = x := by cases x <;> rfl

theorem handlerOp_addressWriters {s t : State} (hacc : Accepted s.cfg)
    (h : (handlerOp s).outcome = .next t) : AddressWriters s t := by
  simp only [handlerOp, andThen_ackInterrupt] at h
  cases hr : Istr.resetFlag s.istr with
  | false =>
    rw [handlerReset, hr, if_neg Bool.false_ne_true, Flow.andThen_ok] at h
    exact ((handlerComplete_commit s).outcome h).addressWriters
  | true =>
    rw [handlerReset, hr, if_pos rfl, resetOp_ok fun e he => (hacc.number he).2, Flow.andThen_ok] at h
    exact State.afterReset_addressWriters hacc hr ((handlerComplete_commit _).outcome h)

theorem enableOp_daddr {s t : State} (hacc : Accepted s.cfg) (h : (enableOp s).outcome = .next t) :
    t.daddr = s.daddr := by
  cases hen : s.enabled with
  | false =>
    rw [enableOp_ok hacc hen] at h
    cases h
    simp
  | true =>
    rw [enableOp_raised hacc hen] at h
    cases h
    simp

theorem Istr.resetFlag_withReset (w : Half) : Istr.resetFlag (Istr.withReset w) = true := by
  unfold Istr.resetFlag Istr.withReset
  rw [getLsbD_withField _ _ _ _ (by decide)]
  rfl

theorem BusInstr.addressWriters {i : Instr} (hi : BusInstr i) {s t : State} (h : exec i s = .next t) :
    AddressWriters s t := by
  obtain ⟨hf, -⟩ | ⟨ha, rfl⟩ := bus_cases hi h
  · exact .inl (congrArg State.daddr hf.rest :)
  · rw [busReset, if_pos ha]
    exact .inr (.inl ⟨rfl, Istr.resetFlag_withReset _⟩)

theorem StepKind.addressWriters {s t : State} (hk : StepKind s t) (hacc : Accepted s.cfg) :
    AddressWriters s t := by
  cases hk with
  | idle xs ht => exact ht ▸ .inl rfl
  | enable xs _ hx => exact .inl (enableOp_daddr (s := s.withInputs xs) hacc hx)
  | handler xs _ hx => exact handlerOp_addressWriters (s := s.withInputs xs) hacc hx
  | bus xs i _ hi hx => exact hi.addressWriters (s := s.withInputs xs) hx

/-- Settles O55, by the kinds of step: idle, Enable, Handler, or the bus. -/
theorem whenDaddrChanges : Obligations.WhenDaddrChanges := by
  intro s t h hne
  obtain ⟨hacc, hk⟩ := step_cases h
  exact (hk.addressWriters hacc).resolve_left hne

end Sys2Proof.Machine
end

section
/-! PROOFS. Control transfers at a waiting device (43_control_transfer.md R174 to R189, 46_bus_environment.md
R263, R265, 70_reset_and_hazards.md R325): a SETUP and the Handler call that serves it, the IN that follows,
and the Handler call that serves that IN. -/

namespace Sys2Proof.Machine

open Sys2Proof

/-! ### What slot 0 of a waiting device holds -/

/-- The word of slot 0 at a waiting device: a CONTROL slot for endpoint 0 with no completion to serve and
both halves enabled. -/
structure WaitingWord (w : Half) : Prop where
  ea : Epr.ea w = 0#4
  type : Epr.epType w = epTypeControl
  ctrRx : Epr.ctrRx w = false
  ctrTx : Epr.ctrTx w = false
  rx : Epr.statRx w ≠ .disabled
  tx : Epr.statTx w ≠ .disabled

theorem WaitingWord.done {w : Half} (h : WaitingWord w) : Epr.completion w = false := by
  simp [Epr.completion, h.ctrRx, h.ctrTx]

theorem WaitingAt.word {s : State} {a : BitVec 7} (h : WaitingAt s a) : WaitingWord (s.eprAt 0) := by
  have hdone := pendingSet_nil_iff.1 h.noEvent 0 s.cfg.numEpSlots_pos
  obtain ⟨hrx, htx⟩ := Bool.or_eq_false_iff.1 hdone
  exact ⟨h.ea, h.type, hrx, htx, h.rx, h.tx⟩

/-- A SETUP and the stage that serves it leave such a word (R263, R174). -/
theorem WaitingWord.served {w : Half} (h : WaitingWord w) {st : Stat} (hst : st = .valid ∨ st = .stall) :
    WaitingWord (Epr.withStatRx (Epr.withStatTx (Epr.withCtrRx (setupWord w) false) st) .valid) := by
  have htx : st ≠ .disabled := by rcases hst with rfl | rfl <;> decide
  constructor <;> simp [setupWord, h.ea, h.type, h.ctrTx, htx]

/-- So do a completed IN and the stage that serves it (R265, R186). -/
theorem WaitingWord.completed {w : Half} (h : WaitingWord w) :
    WaitingWord (Epr.withStatRx (Epr.withCtrTx (inWord w) false) .valid) := by
  constructor <;> simp [inWord, h.ea, h.type, h.ctrRx]

/-- A device still waits after a change of slot 0, packet memory, DADDR and `pending`. -/
theorem WaitingAt.of_slot0 {s t : State} {a b : BitVec 7} (h : WaitingAt s a) (hready : Ready t)
    (hfault : t.fault = s.fault) (histr : t.istr = s.istr) (hcfg : t.cfg = s.cfg)
    (hslots : SlotsSameBut s t 0) (hdaddr : t.daddr = Daddr.enabledAt b)
    (hword : WaitingWord (t.eprAt 0)) : WaitingAt t b where
  ready := hready
  noFault := hfault.trans h.noFault
  noReset := histr ▸ h.noReset
  noEvent := by
    refine pendingSet_nil_iff.2 fun n hn => ?_
    by_cases h0 : n = 0
    · exact h0 ▸ hword.done
    · rw [hslots n h0]
      exact pendingSet_nil_iff.1 h.noEvent n (hcfg ▸ hn)
  daddr := hdaddr
  ea := hword.ea
  type := hword.type
  rx := hword.rx
  tx := hword.tx

theorem WaitingAt.withInputs {s : State} {a : BitVec 7} (h : WaitingAt s a) (xs : List Input) :
    WaitingAt (s.withInputs xs) a :=
  h.of_slot0 (h.ready.withInputs xs) rfl rfl rfl (fun _ _ => rfl) h.daddr h.word

/-! ### A response that the next IN sends (R171, R265) -/

/-- Endpoint 0 offers the bytes to the next IN. -/
structure Offers (s : State) (bytes : List Byte) : Prop where
  stat : Epr.statTx (s.eprAt 0) = .valid
  count : (field (s.readHalf (s.bdt 0 + 2)) 0 10).toNat = bytes.length
  fits : bytes.length ≤ (slotAlloc s.cfg 0).txCap
  buffer : s.readBytes (slotAlloc s.cfg 0).addrTx bytes.length = bytes

/-- The count field of COUNT_TX (R38) holds a number below 1024. -/
theorem toNat_field_ofNat {n : Nat} (h : n < 1024) : (field (BitVec.ofNat 16 n) 0 10).toNat = n := by
  rw [field, BitVec.extractLsb'_toNat, toNat_ofNat16 (by omega), Nat.shiftRight_zero,
    Nat.mod_eq_of_lt h]

/-- A staged response that fits is offered, clamped to the requested length. -/
theorem Ready.stage_offers {s : State} (h : Ready s) {bytes : List Byte} (wLength : Half)
    (hfits : bytes.length ≤ (slotAlloc s.cfg 0).txCap) :
    Offers (s.stage bytes wLength) (bytes.take wLength.toNat) := by
  have hlength : (bytes.take wLength.toNat).length = stagedLength bytes wLength := List.length_take
  have hstaged : stagedLength bytes wLength ≤ (slotAlloc s.cfg 0).txCap :=
    (stagedLength_le _ _).trans hfits
  have hsmall : stagedLength bytes wLength < 1024 := by
    obtain ⟨htxCap, -⟩ := h.accepted.ep0_buffers
    have hmps0 := h.accepted.mps0
    omega
  have hspec := s.stage_spec bytes wLength (h.ep0Tx hstaged).apart
  refine ⟨?_, ?_, ?_, ?_⟩
  · rw [hspec.slot, Epr.statTx_withStatTx]
  · have hcount := hspec.count
    rw [bdtBase_toNat] at hcount
    rw [hlength, State.bdt_of_base (by simp [h.inv.base]), hcount, toNat_field_ofNat hsmall]
  · rw [hlength, State.stage_cfg]
    exact hstaged
  · rw [hlength, State.stage_cfg, ← h.txAddr0, hspec.buffer, stagedLength, ← List.take_eq_take_min]

theorem Offers.congr {s t : State} {bytes : List Byte} (h : Offers s bytes)
    (hstat : Epr.statTx (t.eprAt 0) = Epr.statTx (s.eprAt 0)) (hpma : t.pma = s.pma)
    (hcfg : t.cfg = s.cfg) (hbtable : t.btable = s.btable) : Offers t bytes where
  stat := hstat.trans h.stat
  count := by rw [State.bdt_congr hbtable, State.readHalf_congr hpma, h.count]
  fits := hcfg ▸ h.fits
  buffer := by rw [State.readBytes_congr hpma, hcfg, h.buffer]

theorem Offers.rearmRx {s : State} {bytes : List Byte} (h : Offers s bytes) : Offers s.rearmRx bytes :=
  h.congr (by simp [State.rearmRx]) rfl rfl rfl

theorem Offers.withInputs {s : State} {bytes : List Byte} (h : Offers s bytes) (xs : List Input) :
    Offers (s.withInputs xs) bytes := h.congr rfl rfl rfl rfl

/-! ### The SETUP and the call that serves it -/

/-- What a served SETUP leaves of a waiting device: it waits at the same address, and it ran the request
of the packet in a ready state with the same configuration and parameters. -/
structure Served (s w : State) (a : BitVec 7) (p : List Byte) (xs : List Input) : Prop where
  waiting : WaitingAt w a
  daddr : w.daddr = s.daddr
  hist : w.hist = s.hist ++ [.setup a 0#4 p .ack]
  inputs : w.inputs = xs
  stage : ∃ v, Ready v ∧ v.packet = p ∧ v.cfg = s.cfg ∧ v.params = s.params ∧ w = v.afterSetup

theorem WaitingAt.served {s u : State} {a : BitVec 7} (h : WaitingAt s a) {p : List Byte}
    {ys : List Input} (hu : Received s u a p ys) (xs : List Input) :
    Served s (u.withInputs xs).afterSetup a p xs := by
  have hr := hu.ready.withInputs xs
  obtain ⟨hf, hdaddr, ⟨st, hst, hslot⟩, -⟩ := State.afterSetup_done hr
  have hword := h.word.served hst
  rw [← hu.slot] at hword
  have hsame : (u.withInputs xs).afterSetup.daddr = s.daddr := hdaddr.trans hu.daddr
  refine ⟨h.of_slot0 (hf.ready hr) (hf.fault.trans (hu.fault.trans h.noFault.symm)) (hf.istr.trans hu.istr)
    (hf.cfg.trans hu.cfg) (fun n hn => (hf.slots n hn).trans (hu.slots n hn)) (hsame.trans h.daddr)
    (hslot ▸ hword), hsame, hf.hist.trans hu.hist, hf.inputs, ?_⟩
  exact ⟨_, hr, hu.packet, hu.cfg, hu.params, rfl⟩

/-- A SETUP packet and a Handler call, at a waiting device. -/
theorem WaitingAt.request {s : State} {a : BitVec 7} (h : WaitingAt s a) {p : List Byte}
    (hp : p.length = 8) {xs : List Input}
    (hx : s.inputs = .bus (tokenBytes pidSetup a 0#4 ++ p) :: .irq :: xs) :
    ∃ w, Leads 2 s w ∧ Served s w a p xs := by
  obtain ⟨u, hsetup, hu⟩ := h.setup hp hx
  exact ⟨_, ⟨u, hsetup, _, h.serve hu rfl, rfl⟩, h.served hu xs⟩

section served
variable {s w : State} {a : BitVec 7} {p : List Byte} {xs : List Input} (h : Served s w a p xs)
include h

/-- The request's response is offered, clamped to wLength, unless the fall-through stalls it (R183). -/
theorem Served.offers {b : List Byte}
    (hb : response s.cfg (requestInstr (decodeRequest (setupKey p)) (setupPacketOf p)) = some b)
    (hft : decodeRequest (setupKey p) = .setConfiguration → s.params.setConfigFallthrough = false) :
    Offers w (b.take (setupPacketOf p).wLength.toNat) := by
  obtain ⟨v, hv, rfl, hcfg, hparams, rfl⟩ := h.stage
  rw [← hcfg] at hb
  rw [← hparams] at hft
  have hclear := v.clearCtrRx0_frame.ready hv
  have hbase := requestBase_frame (decodeRequest (setupKey v.packet)) (setupPacketOf v.packet)
    v.clearCtrRx0
  rw [State.afterSetup, State.afterRequest_of_response (s := v.clearCtrRx0) hb hft]
  refine ((hbase.ready hclear).stage_offers _ ?_).rearmRx
  rw [hbase.cfg]
  exact hclear.accepted.response_fits hb

/-- A request without a response is stalled (R172). -/
theorem Served.stalls
    (hb : response s.cfg (requestInstr (decodeRequest (setupKey p)) (setupPacketOf p)) = none) :
    Epr.statTx (w.eprAt 0) = .stall := by
  obtain ⟨v, -, rfl, hcfg, -, rfl⟩ := h.stage
  rw [← hcfg] at hb
  have hstall : v.clearCtrRx0.afterRequest (decodeRequest (setupKey v.packet))
      (setupPacketOf v.packet) = v.clearCtrRx0.stallTx := by
    rw [State.afterRequest, State.clearCtrRx0_cfg, hb]
  simp [State.afterSetup, hstall, State.rearmRx, State.stallTx]

/-- SET_ADDRESS has stored its value (R177). -/
theorem Served.pending_setAddress {t : Byte} {v x l : Half}
    (hi : decode (.setup p) = .ok (.setAddress t v x l)) : w.pending = v := by
  obtain ⟨u, -, rfl, -, -, rfl⟩ := h.stage
  simp [State.afterSetup_setAddress hi]

end served

/-! ### The IN that follows (R265) -/

/-- The state after slot 0 has answered an IN with data. -/
def State.answered (s : State) (xs : List Input) (o : Observation) : State :=
  ((s.withInputs xs).modifyEpr 0 inWord).observe o

theorem State.answered_eprAt (s : State) (xs : List Input) (o : Observation) :
    (s.answered xs o).eprAt 0 = inWord (s.eprAt 0) := by
  simp [State.answered]

theorem State.answered_eprAt_of_ne (s : State) (xs : List Input) (o : Observation) {n : Fin 8}
    (hn : n ≠ 0) : (s.answered xs o).eprAt n = s.eprAt n := by
  simp [State.answered, State.eprAt_modifyEpr, hn]

section waiting
variable {s : State} {a : BitVec 7} (h : WaitingAt s a) {xs : List Input}
include h

theorem WaitingAt.tokenSlot_in : s.tokenSlot a 0#4 .dirIn = some 0 :=
  tokenSlot_of_slotFor (h.ready.forThisDevice h.daddr) (slotFor_zero h.ea h.tx)

theorem WaitingAt.step_in (hx : s.inputs = .bus (tokenBytes pidIn a 0#4) :: xs) :
    step s = (busIn a 0#4 (s.withInputs xs)).outcome := by
  rw [step_input h.ready.accepted hx h.ready.attached (decode_bus_in a 0#4), exec_busIn]

theorem WaitingAt.busIn_stall (hst : Epr.statTx (s.eprAt 0) = .stall) :
    busIn a 0#4 s = .ok (s.observe (.inToken a 0#4 .stall)) := by
  simp [busIn, h.tokenSlot_in, hst]

theorem WaitingAt.busIn_offered {bytes : List Byte} (hb : Offers s bytes) :
    busIn a 0#4 s = .ok ((s.modifyEpr 0 inWord).observe (.inToken a 0#4 (.data bytes))) := by
  have hvalid : busIn a 0#4 s = busInValid a 0#4 0 s := by simp [busIn, h.tokenSlot_in, hb.stat]
  have hbuffer := (h.ready.ep0Tx hb.fits).buffer
  rw [h.ready.txAddr0] at hbuffer
  rw [hvalid, h.ready.busInValid hb.stat, Fin.val_zero, hb.count, if_pos hbuffer, hb.buffer]

/-- An IN of what endpoint 0 offers. -/
theorem WaitingAt.step_in_offered (hx : s.inputs = .bus (tokenBytes pidIn a 0#4) :: xs)
    {bytes : List Byte} (hb : Offers s bytes) :
    step s = .next (s.answered xs (.inToken a 0#4 (.data bytes))) := by
  rw [h.step_in hx, (h.withInputs xs).busIn_offered (hb.withInputs xs)]
  rfl

/-- An IN of a stalled half. -/
theorem WaitingAt.step_in_stall (hx : s.inputs = .bus (tokenBytes pidIn a 0#4) :: xs)
    (hst : Epr.statTx (s.eprAt 0) = .stall) :
    step s = .next ((s.withInputs xs).observe (.inToken a 0#4 .stall)) := by
  rw [h.step_in hx, (h.withInputs xs).busIn_stall hst]
  rfl

/-! ### The call that serves the IN (R186) -/

theorem WaitingAt.answered_ready (xs : List Input) (o : Observation) : Ready (s.answered xs o) := by
  have hr := (Ep0Frame.ofEpr (s.withInputs xs) inWord).ready (h.ready.withInputs xs)
  exact ⟨hr.accepted, hr.inv.observe o, hr.enabled⟩

/-- The IN's transmit completion is the only event. -/
theorem WaitingAt.answered_pendingSet (xs : List Input) (o : Observation) :
    (s.answered xs o).pendingSet = [0] := by
  refine pendingSet_zero ?_ fun n hn hlt => ?_
  · simp [State.answered_eprAt, Epr.completion, inWord]
  · rw [s.answered_eprAt_of_ne xs o hn]
    exact pendingSet_nil_iff.1 h.noEvent n hlt

/-- The Handler call runs the transmit stage alone. -/
theorem WaitingAt.step_handler (xs : List Input) (o : Observation) :
    step (s.answered (.irq :: xs) o) = .next (txStage (s.answered xs o)) := by
  have hr := h.answered_ready (.irq :: xs) o
  have hctr : (s.answered (.irq :: xs) o).istrCtr = true := by
    simp [State.istrCtr, h.answered_pendingSet]
  have hrx : Epr.ctrRx ((s.answered xs o).eprAt 0) = false := by
    simp [State.answered_eprAt, inWord, h.word.ctrRx]
  have htx : Epr.ctrTx ((s.answered xs o).eprAt 0) = true := by simp [State.answered_eprAt, inWord]
  have hreceive : (s.answered xs o).afterReceive = s.answered xs o := by
    rw [State.afterReceive, hrx, if_neg Bool.false_ne_true]
  rw [step_input hr.accepted rfl (hr.handlerEnabled h.noFault (.inl hctr)) (i := .handler) rfl]
  have hhandler := (h.answered_ready xs o).handler_zero h.noReset (h.answered_pendingSet xs o)
  rw [State.afterEp0, hreceive, if_pos htx] at hhandler
  exact hhandler

/-- The device then waits at the pending address, or at the old one where none is pending. -/
theorem WaitingAt.completed (xs : List Input) (o : Observation) :
    WaitingAt (txStage (s.answered xs o))
      (if s.pending = 0#16 then a else s.pending.extractLsb' 0 7) := by
  have hf := txStage_frame (s.answered xs o)
  refine h.of_slot0 (hf.ready (h.answered_ready xs o)) hf.fault hf.istr hf.cfg
    (fun n hn => (hf.slots n hn).trans (s.answered_eprAt_of_ne xs o hn)) ?_ ?_
  · split
    · next hp => exact (txStage_daddr_of_not_pending (s := s.answered xs o) hp).trans h.daddr
    · next hp => exact txStage_daddr_of_pending (s := s.answered xs o) hp
  · rw [txStage_eprAt, State.answered_eprAt]
    exact h.word.completed

end waiting

/-! ### The transfers -/

/-- One more step. -/
theorem Leads.snoc {n : Nat} {s t u : State} (h : Leads n s t) (hstep : step t = .next u) :
    Leads (n + 1) s u := by
  induction n generalizing s with
  | zero => exact ⟨u, (h : s = t) ▸ hstep, rfl⟩
  | succ n ih =>
    obtain ⟨v, hv, hrest⟩ := h
    exact ⟨v, hv, ih hrest⟩

/-- What the IN after a served SETUP observes. -/
theorem Served.seen {s w : State} {a : BitVec 7} {p : List Byte} {xs : List Input}
    (h : Served s w a p (.bus (tokenBytes pidIn a 0#4) :: xs)) {i : Instr}
    (hi : decode (.setup p) = .ok i) (hft : s.params.setConfigFallthrough = false) :
    ∃ t, step w = .next t ∧ t.fault = w.fault ∧ t.daddr = w.daddr ∧ t.inputs = xs ∧
      t.hist = w.hist ++ [.inToken a 0#4 (hostSees (response s.cfg i) (setupPacketOf p).wLength)] := by
  obtain ⟨-, rfl⟩ := decode_setup_eq_ok.1 hi
  cases hb : response s.cfg (requestInstr (decodeRequest (setupKey p)) (setupPacketOf p)) with
  | some b =>
    exact ⟨_, h.waiting.step_in_offered h.inputs (h.offers hb fun _ => hft), rfl, rfl, rfl, rfl⟩
  | none => exact ⟨_, h.waiting.step_in_stall h.inputs (h.stalls hb), rfl, rfl, rfl, rfl⟩

/-- Settles O60: the SETUP is served, and the IN observes what was staged, or the stall. -/
theorem hostSeesTheResponse : Obligations.HostSeesTheResponse := by
  intro s a p i rest h hft hi hx
  obtain ⟨hl, -⟩ := decode_setup_eq_ok.1 hi
  obtain ⟨w, hleads, hw⟩ := h.request hl hx
  obtain ⟨t, hstep, hfault, hdaddr, hinputs, hhist⟩ := hw.seen hi hft
  refine ⟨t, hleads.snoc hstep, hfault.trans hw.waiting.noFault, hdaddr.trans hw.daddr, hinputs, ?_⟩
  rw [hhist, hw.hist, List.append_assoc]
  rfl

/-- Settles O59: the address is pending until the call that serves the zero-length IN commits it. -/
theorem setAddressTransfer : Obligations.SetAddressTransfer := by
  intro s a bmRequestType wValue wIndex wLength rest h hx
  have hi : decode (.setup (setupBytes bmRequestType 0x05#8 wValue wIndex wLength)) =
      .ok (.setAddress bmRequestType wValue wIndex wLength) :=
    decode_setupBytes_of_selects (q := .setAddress) rfl
  obtain ⟨hrequest, -⟩ := decode_setAddress hi
  obtain ⟨w, hleads, hw⟩ := h.request (setupBytes_length _ _ _ _ _) hx
  have hpending : w.pending = wValue := hw.pending_setAddress hi
  have hoffers : Offers w [] := by
    simpa using hw.offers (b := []) (by rw [hrequest]; rfl) (by simp [hrequest])
  have hin := hw.waiting.step_in_offered hw.inputs hoffers
  have hdone := hw.waiting.completed rest (.inToken a 0#4 (.data []))
  rw [hpending] at hdone
  refine ⟨w, _, _, hleads, ⟨_, hin, rfl⟩, ⟨_, hw.waiting.step_handler rest _, rfl⟩, hw.daddr, hpending,
    hw.daddr, ?_, (txStage_frame _).hist, (txStage_frame _).inputs, txStage_pending _, hdone⟩
  rw [State.answered, State.observe_hist, State.modifyEpr_hist, State.withInputs_hist, hw.hist,
    List.append_assoc]
  rfl

end Sys2Proof.Machine
end

section
/-! PROOFS. The composed configuration descriptor (44_descriptor_composer.md R212 to R217): its header and
the records of its interfaces and endpoints. -/

namespace Sys2Proof.Machine

open Sys2Proof

/-- A total that fits the scratch buffer and one packet is not refused (R212). -/
theorem execComposeConfig_of_fits {c : Configuration} {s : State}
    (hscratch : configTotal c ≤ s.cfg.scratchCap) (hpacket : configTotal c ≤ s.cfg.mps0.toNat) :
    execComposeConfig c s = .next { s with result := .bytes (composeConfig c) } := by
  have hnone : composeErrors s.cfg c = [] := by
    simp [composeErrors, Nat.not_lt.2 hscratch, Nat.not_lt.2 hpacket]
  rw [execComposeConfig, hnone]

/-! ### The header (R213) -/

/-- A number below 256 has its value in the first byte, and 0 in the second. -/
theorem le16_ofNat_of_lt {n : Nat} (h : n < 256) : le16 (BitVec.ofNat 16 n) = [BitVec.ofNat 8 n, 0x00#8] := by
  have hlow : (BitVec.ofNat 16 n).extractLsb' 0 8 = BitVec.ofNat 8 n := by
    apply BitVec.eq_of_toNat_eq
    simp
  have hhigh : (BitVec.ofNat 16 n).extractLsb' 8 8 = 0x00#8 := by
    apply BitVec.eq_of_toNat_eq
    simp [Nat.shiftRight_eq_div_pow]
    omega
  rw [le16, hlow, hhigh]

theorem headerRecord_of_lt (c : Configuration) {t : Nat} (h : t < 256) :
    headerRecord c t = [0x09#8, 0x02#8, BitVec.ofNat 8 t, 0x00#8, BitVec.ofNat 8 c.interfaces.length,
      c.bConfigurationValue, 0x00#8, c.bmAttributes, c.bMaxPower] := by
  rw [headerRecord, le16_ofNat_of_lt h]
  rfl

/-! ### The endpoint records (R102, R215) -/

theorem endpointAddress_dirIn {e : Endpoint} (h : e.dir = .dirIn) :
    endpointAddress e = BitVec.ofNat 8 (e.number.toNat + 128) := by
  have hor : ∀ n : BitVec 4, n.setWidth 8 ||| 0x80#8 = BitVec.ofNat 8 (n.toNat + 128) := by decide
  rw [endpointAddress, h]
  exact hor e.number

theorem endpointAddress_dirOut {e : Endpoint} (h : e.dir = .dirOut) :
    endpointAddress e = BitVec.ofNat 8 e.number.toNat := by
  rw [endpointAddress, h]
  exact BitVec.or_zero.trans (BitVec.ofNat_toNat 8 e.number).symm

/-- Settles O45: the total fits the one byte of MPS0, so the header's high byte is 0; the records are those
of the layout, an endpoint's address by its direction. -/
theorem composeConfigStream : Obligations.ComposeConfigStream := by
  intro c s hscratch hpacket
  have hbyte : configTotal c < 256 := Nat.lt_of_le_of_lt hpacket s.cfg.mps0.isLt
  refine ⟨composeConfig c, execComposeConfig_of_fits hscratch hpacket, ?_⟩
  rw [composeConfig_length, composeConfig, headerRecord_of_lt c hbyte, configBody]
  congr 2 with i : 1
  rw [ifaceBytes]
  congr 2 with e : 1
  cases hdir : e.dir with
  | dirIn => rw [epRecord, endpointAddress_dirIn hdir]; rfl
  | dirOut => rw [epRecord, endpointAddress_dirOut hdir]; rfl

end Sys2Proof.Machine
end

section
/-! PROOFS. Reset and the endpoint resets (45_device_controller.md R242 to R244): what they write, and that
a second Reset changes nothing (70_reset_and_hazards.md R324). -/

namespace Sys2Proof.Machine

open Sys2Proof

/-! ### The endpoint resets (R243, R244) -/

/-- Settles O38: the one register write is the word 0x3220. -/
theorem ep0ResetValue : Obligations.Ep0ResetValue := fun s =>
  ⟨ep0Reset s, rfl, by rw [ep0Reset_eq, State.eprAt_setEpr_same],
    fun n hn => s.eprAt_setEpr_of_ne 0 n _ hn, rfl⟩

/-- SETUP and the toggles of every slot are as before. -/
theorem State.resetEndpoints_flags (es : List Endpoint) (s : State) (n : Fin 8) :
    Epr.setupFlag ((State.resetEndpoints es s).eprAt n) = Epr.setupFlag (s.eprAt n) ∧
    Epr.dtogRx ((State.resetEndpoints es s).eprAt n) = Epr.dtogRx (s.eprAt n) ∧
    Epr.dtogTx ((State.resetEndpoints es s).eprAt n) = Epr.dtogTx (s.eprAt n) := by
  refine State.resetEndpoints_induct (P := fun w => Epr.setupFlag w = Epr.setupFlag (s.eprAt n) ∧
    Epr.dtogRx w = Epr.dtogRx (s.eprAt n) ∧ Epr.dtogTx w = Epr.dtogTx (s.eprAt n)) ?_ ⟨rfl, rfl, rfl⟩
  intro e _ _ w ⟨hsetup, hrx, htx⟩
  obtain ⟨ksetup, krx, ktx⟩ := endpointResetWord_rest e w
  exact ⟨ksetup.trans hsetup, krx.trans hrx, ktx.trans htx⟩

/-- A number without a slot is refused, whatever stands before it in the list (R298). -/
theorem endpointsReset_refused {es : List Endpoint} {s : State}
    (h : ∃ e ∈ es, s.cfg.numEpSlots ≤ e.number.toNat) :
    endpointsReset es s = refuseConfig [.endpointNumber] := by
  induction es generalizing s with
  | nil => simp at h
  | cons e es ih =>
    obtain ⟨f, hf, hbad⟩ := h
    rw [endpointsReset]
    split
    · next n hn =>
      have hlt := (slotOfNumber_some.1 hn).2
      rcases List.mem_cons.1 hf with rfl | hf
      · omega
      · exact ih ⟨f, hf, hbad⟩
    · rfl

/-- Settles O39, by whether every number has a slot: then the resets of the list are made in order. -/
theorem configResetWritesDeclaredHalves : Obligations.ConfigResetWritesDeclaredHalves := by
  intro c s _
  refine ⟨fun hbad => congrArg Flow.outcome (endpointsReset_refused hbad), fun hnumber htype => ?_⟩
  refine ⟨State.resetEndpoints c.endpoints s, congrArg Flow.outcome (endpointsReset_ok hnumber),
    fun e he n hn => ?_, fun n d h => State.resetEndpoints_half h s,
    fun n h => State.resetEndpoints_slot h s, State.resetEndpoints_flags c.endpoints s,
    State.resetEndpoints_rest c.endpoints s⟩
  have hhalf := State.resetEndpoints_declared htype he hn (hnumber e he)
  exact ⟨hhalf.ea, hhalf.type, hhalf.kind, hhalf.done, hhalf.stat⟩

/-! ### Reset (R242) -/

/-- RESET completes where every declared number has a slot. -/
theorem exec_reset {s : State}
    (h : ∀ e ∈ declaredEndpoints s.cfg, e.number.toNat < s.cfg.numEpSlots) :
    exec .reset s = .next s.afterReset := congrArg Flow.outcome (resetOp_ok h)

theorem Accepted.exec_reset {s : State} (h : Accepted s.cfg) : exec .reset s = .next s.afterReset :=
  Machine.exec_reset fun _ he => (h.number he).2

/-- A slot but 0 that no declared endpoint names is as before. -/
theorem State.afterReset_slot {s : State} {n : Fin 8} (hn : n ≠ 0)
    (h : ∀ e ∈ declaredEndpoints s.cfg, n.val ≠ e.number.toNat) :
    s.afterReset.eprAt n = s.eprAt n := by
  rw [State.afterReset_eprAt, State.resetEndpoints_slot h, State.eprAt_setEpr_of_ne _ _ _ _ hn]
  rfl

/-- SETUP and the toggles of every slot but 0 are as before. -/
theorem State.afterReset_flags {s : State} {n : Fin 8} (hn : n ≠ 0) :
    Epr.setupFlag (s.afterReset.eprAt n) = Epr.setupFlag (s.eprAt n) ∧
    Epr.dtogRx (s.afterReset.eprAt n) = Epr.dtogRx (s.eprAt n) ∧
    Epr.dtogTx (s.afterReset.eprAt n) = Epr.dtogTx (s.eprAt n) := by
  have h := State.resetEndpoints_flags (declaredEndpoints s.cfg)
    (({ s.writeIstr 0x0000#16 with cntr := cntrBaseline }).setEpr 0 0x3220#16) n
  rwa [State.eprAt_setEpr_of_ne _ _ _ _ hn] at h

/-- Settles O36: both operations are `Reset()`, whose state is `State.afterReset`. -/
theorem resetReinitialises : Obligations.ResetReinitialises := by
  intro s h
  refine ⟨s.afterReset, h.exec_reset, h.exec_reset, s.afterReset_cntr, s.afterReset_istr, rfl, rfl,
    State.afterReset_zero h, fun e he n hn => ?_, fun _ _ hr => State.afterReset_undeclared hr,
    fun _ hn hslot => State.afterReset_slot hn hslot, fun _ hn => State.afterReset_flags hn,
    s.afterReset_pending, s.afterReset_rest⟩
  have hhalf := State.afterReset_declared h he hn
  exact ⟨hhalf.ea, hhalf.type, hhalf.kind, hhalf.done, hhalf.stat⟩

/-! ### A second Reset (R324)

What the resets do to one slot overwrites some of its bits with fixed values and keeps the others. Doing so
twice is doing so once, even where two endpoints of the slot disagree on its type. -/

/-- The function gives a bit of the word a fixed value, or keeps it. -/
def Overwrites (f : Half → Half) : Prop :=
  ∀ i, (∃ b, ∀ w, (f w).getLsbD i = b) ∨ ∀ w, (f w).getLsbD i = w.getLsbD i

theorem Overwrites.refl : Overwrites fun w => w := fun _ => .inr fun _ => rfl

theorem Overwrites.comp {f g : Half → Half} (hf : Overwrites f) (hg : Overwrites g) :
    Overwrites fun w => g (f w) := by
  intro i
  rcases hg i with ⟨b, hfixed⟩ | hkept
  · exact .inl ⟨b, fun w => hfixed (f w)⟩
  · exact (hf i).imp (fun ⟨b, hb⟩ => ⟨b, fun w => (hkept (f w)).trans (hb w)⟩)
      fun h w => (hkept (f w)).trans (h w)

theorem Overwrites.idem {f : Half → Half} (h : Overwrites f) (w : Half) : f (f w) = f w := by
  refine BitVec.eq_of_getLsbD_eq fun i _ => ?_
  rcases h i with ⟨b, hfixed⟩ | hkept
  · rw [hfixed, hfixed]
  · exact hkept (f w)

theorem overwrites_withField {lo len : Nat} (v : BitVec len) (h : lo + len ≤ 16) :
    Overwrites fun w => withField w lo v := by
  intro i
  by_cases hi : lo ≤ i ∧ i < lo + len
  · exact .inl ⟨v.getLsbD (i - lo), fun w => by rw [getLsbD_withField _ _ _ _ h, if_pos hi]⟩
  · exact .inr fun w => by rw [getLsbD_withField _ _ _ _ h, if_neg hi]

theorem overwrites_endpointResetWord (e : Endpoint) : Overwrites (endpointResetWord e) := by
  have hslot : Overwrites fun w =>
      Epr.withEpKind (Epr.withEpType (Epr.withEa w e.number) (epTypeBits e.epType)) false :=
    ((overwrites_withField (lo := 0) e.number (by decide)).comp
      (overwrites_withField (lo := 9) (epTypeBits e.epType) (by decide))).comp
      (overwrites_withField (lo := 8) (BitVec.ofBool false) (by decide))
  unfold endpointResetWord
  cases e.dir with
  | dirIn =>
    exact (hslot.comp (overwrites_withField (lo := 7) (BitVec.ofBool false) (by decide))).comp
      (overwrites_withField (lo := 4) (Stat.bits .nak) (by decide))
  | dirOut =>
    exact (hslot.comp (overwrites_withField (lo := 15) (BitVec.ofBool false) (by decide))).comp
      (overwrites_withField (lo := 12) (Stat.bits .valid) (by decide))

/-- What the reset of an endpoint makes of the word of slot `n`. -/
def resetSlot (n : Fin 8) (w : Half) (e : Endpoint) : Half :=
  if n.val = e.number.toNat then endpointResetWord e w else w

theorem State.resetEndpoints_eprAt {es : List Endpoint} {s : State}
    (h : ∀ e ∈ es, e.number.toNat < s.cfg.numEpSlots) (n : Fin 8) :
    (State.resetEndpoints es s).eprAt n = es.foldl (resetSlot n) (s.eprAt n) := by
  induction es generalizing s with
  | nil => rfl
  | cons e es ih =>
    obtain ⟨i, hi, hval⟩ := slotOfNumber_eq (h e (List.mem_cons_self ..))
    have hslot : (s.modifyEpr i (endpointResetWord e)).eprAt n = resetSlot n (s.eprAt n) e := by
      rw [State.eprAt_modifyEpr, resetSlot, ← hval]
      by_cases hn : n = i
      · rw [if_pos hn, if_pos (congrArg Fin.val hn), hn]
      · rw [if_neg hn, if_neg fun hv => hn (Fin.ext hv)]
    simp only [State.resetEndpoints, hi]
    rw [ih (s := s.modifyEpr i _) fun f hf => h f (List.mem_cons_of_mem _ hf), hslot, List.foldl_cons]

theorem overwrites_resetSlot (n : Fin 8) (es : List Endpoint) :
    Overwrites fun w => es.foldl (resetSlot n) w := by
  induction es with
  | nil => exact .refl
  | cons e es ih =>
    refine Overwrites.comp (f := fun w => resetSlot n w e) ?_ ih
    by_cases hn : n.val = e.number.toNat
    · simp only [resetSlot, if_pos hn]
      exact overwrites_endpointResetWord e
    · simp only [resetSlot, if_neg hn]
      exact .refl

/-- The slots after a second `Reset()`: slot 0 starts from 0x3220 both times, another one is overwritten
twice with the same. -/
theorem State.afterReset_afterReset_eprAt {s : State}
    (h : ∀ e ∈ declaredEndpoints s.cfg, e.number.toNat < s.cfg.numEpSlots) (n : Fin 8) :
    s.afterReset.afterReset.eprAt n = s.afterReset.eprAt n := by
  have hword : ∀ u : State, u.cfg = s.cfg → u.afterReset.eprAt n =
      (declaredEndpoints s.cfg).foldl (resetSlot n) (if n = 0 then 0x3220#16 else u.eprAt n) := by
    intro u hu
    rw [State.afterReset_eprAt, hu, State.resetEndpoints_eprAt (by simpa [hu] using h),
      State.eprAt_setEpr]
    rfl
  rw [hword _ s.afterReset_cfg, hword s rfl]
  by_cases hn : n = 0
  · rw [if_pos hn, if_pos hn]
  · rw [if_neg hn, if_neg hn]
    exact (overwrites_resetSlot n _).idem _

/-- Settles O37: a second `Reset()` writes the registers as the first one did, and overwrites each slot with
what it holds. -/
theorem resetIsIdempotent : Obligations.ResetIsIdempotent := by
  intro s t ht
  obtain ⟨h, rfl⟩ := resetOp_next ht
  rw [exec_reset (by simpa using h)]
  congr 1
  have hslots : s.afterReset.afterReset.epr = s.afterReset.epr :=
    epr_ext (State.afterReset_afterReset_eprAt h)
  have hpending : s.afterReset.afterReset.pending = s.afterReset.pending := by
    simp only [State.afterReset_pending, State.afterReset_params]
    split <;> rfl
  apply State.ext_of <;> simp [hpending, hslots]

end Sys2Proof.Machine
end

section
/-! PROOFS. When the agents may move (45_device_controller.md R247, 46_bus_environment.md R269), the order
of Handler's tests (R245), a faulted block (60_exceptions.md R293), and the recovery by a bus reset
(70_reset_and_hazards.md R323, R324). -/

namespace Sys2Proof.Machine

open Sys2Proof

/-! ### When the agents may move (R247, R261, R269, R296) -/

theorem State.line_iff (s : State) : s.line = true ↔
    (Cntr.ctrm s.cntr = true ∧ Istr.ctr s.istrView = true) ∨
    (Cntr.resetm s.cntr = true ∧ Istr.resetFlag s.istrView = true) := by
  simp [State.line]

theorem State.handlerEnabled_iff (s : State) : s.handlerEnabled = true ↔
    s.enabled = true ∧ s.irqEn = true ∧ s.fault = none ∧ s.line = true := by
  simp [State.handlerEnabled, and_assoc]

theorem State.attached_iff (s : State) : s.attached = true ↔
    s.enabled = true ∧ s.pullupLine = true ∧ Cntr.pdwn s.cntr = false ∧ Cntr.fres s.cntr = false := by
  simp [State.attached, and_assoc]

/-- Settles O10: the two agents' rules, with the interrupt line read from the ISTR view. -/
theorem whenAgentsMayMove : Obligations.WhenAgentsMayMove := by
  intro s
  refine ⟨?_, fun _ => s.attached_iff⟩
  rw [← s.line_iff]
  exact s.handlerEnabled_iff

/-! ### The order of Handler's tests (R245) -/

/-- `Handler()` is its two tests, for the acknowledgement changes nothing. -/
theorem handlerOp_eq (s : State) : handlerOp s = Flow.andThen (handlerReset s) handlerComplete := by
  simp only [handlerOp, andThen_ackInterrupt]

theorem handlerComplete_outcome (s : State) :
    (handlerComplete s).outcome = if Istr.ctr s.istrView then exec .dispatch s else .next s := by
  rw [State.istrView_ctr, handlerComplete]
  split <;> rfl

theorem exec_handler_of_not_reset {s : State} (h : Istr.resetFlag s.istrView = false) :
    exec .handler s = if Istr.ctr s.istrView then exec .dispatch s else .next s := by
  rw [State.istrView_reset] at h
  rw [exec_handler, handlerOp_eq, handlerReset, if_neg (by simp [h]), Flow.andThen_ok,
    handlerComplete_outcome]

theorem Accepted.exec_handler_of_reset {s : State} (hacc : Accepted s.cfg)
    (h : Istr.resetFlag s.istrView = true) : exec .handler s =
      if Istr.ctr s.afterReset.istrView then exec .dispatch s.afterReset else .next s.afterReset := by
  rw [State.istrView_reset] at h
  rw [exec_handler, handlerOp_eq, handlerReset, if_pos h, resetOp_ok fun _ he => (hacc.number he).2,
    Flow.andThen_ok, handlerComplete_outcome]

/-- Settles O40, by the two flags. -/
theorem handlerOrder : Obligations.HandlerOrder := by
  intro s
  refine ⟨rfl, fun hr hc => ?_, fun hr hc => ?_,
    fun hacc hr => ⟨s.afterReset, hacc.exec_reset, hacc.exec_handler_of_reset hr⟩⟩
  · rw [exec_handler_of_not_reset hr, hc, if_neg Bool.false_ne_true]
  · rw [exec_handler_of_not_reset hr, hc, if_pos rfl]

/-! ### A faulted block (R293) -/

/-- What every step from a faulted state leaves: the registers that only the block writes, the fault, and
the draws of DISPATCH and of the handlers. DADDR the bus may clear. -/
structure FaultedFrame (s t : State) : Prop where
  pending : t.pending = s.pending
  cntr : t.cntr = s.cntr
  btable : t.btable = s.btable
  irqEn : t.irqEn = s.irqEn
  enabled : t.enabled = s.enabled
  fault : t.fault = s.fault
  handlerDraws : t.handlerDraws = s.handlerDraws
  epIdDraws : t.epIdDraws = s.epIdDraws
  daddr : t.daddr = s.daddr ∨ t.daddr = 0x0000#16

theorem FaultedFrame.withInputs (s : State) (xs : List Input) : FaultedFrame s (s.withInputs xs) :=
  ⟨rfl, rfl, rfl, rfl, rfl, rfl, rfl, rfl, .inl rfl⟩

/-- The schedule is outside the frame. -/
theorem FaultedFrame.of_withInputs {s t : State} {xs : List Input}
    (h : FaultedFrame (s.withInputs xs) t) : FaultedFrame s t :=
  ⟨h.pending, h.cntr, h.btable, h.irqEn, h.enabled, h.fault, h.handlerDraws, h.epIdDraws, h.daddr⟩

/-- A transaction keeps the fault that is recorded. -/
theorem BusFrame.faultedFrame {s t : State} (h : BusFrame s t) (hf : s.fault ≠ none) :
    FaultedFrame s t where
  pending := (congrArg State.pending h.rest :)
  cntr := (congrArg State.cntr h.rest :)
  btable := (congrArg State.btable h.rest :)
  irqEn := (congrArg State.irqEn h.rest :)
  enabled := (congrArg State.enabled h.rest :)
  fault := by
    obtain ⟨f, hs⟩ := Option.ne_none_iff_exists'.1 hf
    exact (h.fault f hs).trans hs.symm
  handlerDraws := (congrArg State.handlerDraws h.rest :)
  epIdDraws := (congrArg State.epIdDraws h.rest :)
  daddr := .inl (congrArg State.daddr h.rest :)

theorem busReset_faultedFrame {s : State} (h : s.attached = true) : FaultedFrame s (busReset s) := by
  rw [busReset, if_pos h]
  exact ⟨rfl, rfl, rfl, rfl, rfl, rfl, rfl, rfl, .inr rfl⟩

theorem BusInstr.faultedFrame {i : Instr} (hi : BusInstr i) {s t : State} (h : exec i s = .next t)
    (hf : s.fault ≠ none) : FaultedFrame s t := by
  obtain ⟨hframe, -⟩ | ⟨ha, rfl⟩ := bus_cases hi h
  · exact hframe.faultedFrame hf
  · exact busReset_faultedFrame ha

/-- Settles O53, by the two kinds of step from a faulted state: an input used up, or the bus. -/
theorem faultStopsTheBlock : Obligations.FaultStopsTheBlock := by
  intro s t hf h
  have hkind := step_of_fault hf h
  have hframe : FaultedFrame s t := by
    obtain rfl | ⟨bs, i, -, -, hi, hx⟩ := hkind
    · exact .withInputs s _
    · exact .of_withInputs (hi.faultedFrame hx hf)
  exact ⟨hkind, hframe.pending, hframe.cntr, hframe.btable, hframe.irqEn, hframe.enabled, hframe.fault,
    hframe.handlerDraws, hframe.epIdDraws, hframe.daddr⟩

/-! ### The recovery by a bus reset (R266, R323, R324) -/

/-- `Reset()` leaves no completion: not on slot 0, not on a declared half, and an undeclared half has none
under the invariant. -/
theorem State.afterReset_halfCompletion {s : State} (hacc : Accepted s.cfg) (hslots : SlotsRegistered s)
    (n : Fin 8) (d : Dir) : halfCompletion d (s.afterReset.eprAt n) = false := by
  have hval : (BitVec.ofNat 4 n.val).toNat = n.val := by
    rw [BitVec.toNat_ofNat]; exact Nat.mod_eq_of_lt (by omega)
  cases hr : registered s.cfg (BitVec.ofNat 4 n.val) d with
  | false =>
    rw [(State.afterReset_undeclared hr).1]
    exact (hslots n d hr).2
  | true =>
    obtain h0 | ⟨e, he, hnumber, rfl⟩ := (registered_iff _ _ _).1 hr
    · have hn : n = 0 := Fin.ext (by rw [← hval, h0]; rfl)
      rw [hn, State.afterReset_zero hacc]
      cases d <;> rfl
    · exact (State.afterReset_declared hacc he (by rw [hnumber, hval])).done

theorem Ready.afterReset_pendingSet {s : State} (h : Ready s) : s.afterReset.pendingSet = [] := by
  refine pendingSet_nil_iff.2 fun n _ => ?_
  have hdone := State.afterReset_halfCompletion h.accepted h.inv.slots n
  exact Bool.or_eq_false_iff.2 ⟨hdone .dirOut, hdone .dirIn⟩

/-- A ready block without a fault waits at address 0 after `Reset()`. -/
theorem Ready.waitingAt_afterReset {s : State} (h : Ready s) (hf : s.fault = none) :
    WaitingAt s.afterReset 0#7 := by
  have hslot := State.afterReset_zero h.accepted
  constructor
  case ready => exact h.afterReset
  case noFault => rw [State.afterReset_fault, hf]
  case noReset => rw [State.afterReset_istr]; decide
  case noEvent => exact h.afterReset_pendingSet
  case daddr => rw [State.afterReset_daddr]; decide
  all_goals
    rw [hslot]
    decide

/-- The Handler call that serves a bus reset is `Reset()` alone. -/
theorem Ready.step_reset {s : State} (h : Ready s) (hf : s.fault = none)
    (hr : Istr.resetFlag s.istr = true) {xs : List Input} (hx : s.inputs = .irq :: xs) :
    step s = .next (s.withInputs xs).afterReset := by
  have hnone : Istr.ctr (s.withInputs xs).afterReset.istrView = false := by
    rw [State.istrView_ctr, State.istrCtr, (h.withInputs xs).afterReset_pendingSet]
    rfl
  have hreset : Istr.resetFlag (s.withInputs xs).istrView = true := by
    rwa [State.istrView_reset, State.withInputs_istr]
  rw [step_input (i := .handler) h.accepted hx (h.handlerEnabled hf (.inr hr)) rfl,
    (h.withInputs xs).accepted.exec_handler_of_reset hreset, hnone, if_neg Bool.false_ne_true]

/-- What a bus reset leaves of a ready block (R266). -/
structure BusResetDone (s t : State) : Prop where
  ready : Ready t
  reset : Istr.resetFlag t.istr = true
  fault : t.fault = s.fault
  hist : t.hist = s.hist ++ [.busReset]
  inputs : t.inputs = s.inputs
  pma : t.pma = s.pma

theorem Ready.busReset_done {s : State} (h : Ready s) : BusResetDone s (busReset s) := by
  have hready : Ready (busReset s) :=
    ⟨(busReset_cfg s).symm ▸ h.accepted, busReset_inv h.inv, (busReset_stickyFrame s).enabled h.enabled⟩
  rw [busReset, if_pos h.attached] at hready ⊢
  exact ⟨hready, Istr.resetFlag_withReset _, rfl, rfl, rfl, rfl⟩

theorem Ready.step_busReset {s : State} (h : Ready s) {xs : List Input}
    (hx : s.inputs = .bus [0x00#8] :: xs) :
    ∃ t, step s = .next t ∧ BusResetDone (s.withInputs xs) t :=
  ⟨_, step_input h.accepted hx h.attached decode_bus_reset, (h.withInputs xs).busReset_done⟩

/-- Settles O58: the bus reset leaves the block ready with RESET set, and `Reset()` does the rest. -/
theorem busResetRecovers : Obligations.BusResetRecovers := by
  intro s rest h hf hx
  obtain ⟨u, hu, hdone⟩ := h.step_busReset hx
  have hfault : u.fault = none := hdone.fault.trans hf
  have hready : Ready (u.withInputs rest) := hdone.ready.withInputs rest
  refine ⟨_, ⟨u, hu, _, hdone.ready.step_reset hfault hdone.reset hdone.inputs, rfl⟩,
    hready.waitingAt_afterReset hfault, ?_, State.afterReset_inputs _, fun x => ?_,
    State.afterReset_zero hready.accepted⟩
  · rw [State.afterReset_hist]
    exact hdone.hist
  · refine State.readByte_congr ?_ x
    rw [State.afterReset_pma]
    exact hdone.pma

end Sys2Proof.Machine
end

section
/-! PROOFS. The bus agent (46_bus_environment.md R261 to R266): a token that nothing answers, an accepted
SETUP, an IN by STAT_TX, and a bus reset. -/

namespace Sys2Proof.Machine

open Sys2Proof

/-! ### A token that nothing answers (R261 to R263) -/

/-- A token for another device, or to a number that no slot answers, reaches no slot. -/
theorem tokenSlot_none {s : State} {a : BitVec 7} {ep : BitVec 4} {d : Dir}
    (h : s.forThisDevice a = false ∨ ∀ n : Fin 8, n.val < s.cfg.numEpSlots →
      Epr.ea (s.eprAt n) ≠ ep ∨ halfStat d (s.eprAt n) = .disabled) : s.tokenSlot a ep d = none := by
  rw [State.tokenSlot]
  obtain hother | hnone := h
  · rw [hother, if_neg Bool.false_ne_true]
  · rw [slotFor_none hnone, ite_self]

/-- A SETUP is accepted only by the slot that its token reaches. -/
theorem setupSlot_none_of_tokenSlot {s : State} {a : BitVec 7} {ep : BitVec 4}
    (h : s.tokenSlot a ep .dirOut = none) : s.setupSlot a ep = none := by
  refine Option.eq_none_iff_forall_ne_some.2 fun m hm => ?_
  obtain ⟨ha, hslot, -⟩ := setupSlot_some hm
  simp [tokenSlot_of_slotFor ha hslot] at h

/-- A SETUP is accepted only by a CONTROL slot. -/
theorem setupSlot_none_of_not_control {s : State} {a : BitVec 7} {ep : BitVec 4} {n : Fin 8}
    (hn : s.slotFor ep .dirOut = some n) (htype : Epr.epType (s.eprAt n) ≠ epTypeControl) :
    s.setupSlot a ep = none := by
  refine Option.eq_none_iff_forall_ne_some.2 fun m hm => ?_
  obtain ⟨-, hslot, hcontrol⟩ := setupSlot_some hm
  obtain rfl : m = n := Option.some.inj (hslot.symm.trans hn)
  exact htype hcontrol

section unanswered
variable {a : BitVec 7} {ep : BitVec 4} {s : State}

theorem busSetup_unanswered (h : s.setupSlot a ep = none) (data : List Byte) :
    busSetup a ep data s = .ok (s.observe (.setup a ep data .noResponse)) := by rw [busSetup, h]

theorem busOut_unanswered (h : s.tokenSlot a ep .dirOut = none) (data : List Byte) :
    busOut a ep data s = .ok (s.observe (.out a ep data .noResponse)) := by rw [busOut, h]

theorem busIn_unanswered (h : s.tokenSlot a ep .dirIn = none) :
    busIn a ep s = .ok (s.observe (.inToken a ep .noResponse)) := by rw [busIn, h]

end unanswered

/-- Settles O46: no slot takes the token, so only the observation is made. -/
theorem unansweredTokensOnlyObserve : Obligations.UnansweredTokensOnlyObserve := by
  intro a ep data s
  refine ⟨fun hl h => ?_, fun hl h => ?_, fun h => ?_⟩
  · have hnone : s.setupSlot a ep = none := by
      obtain hother | hslots | ⟨n, hn, htype⟩ := h
      · exact setupSlot_none_of_tokenSlot (tokenSlot_none (.inl hother))
      · exact setupSlot_none_of_tokenSlot (tokenSlot_none (.inr hslots))
      · exact setupSlot_none_of_not_control hn htype
    rw [exec_busSetup hl, busSetup_unanswered hnone]
    rfl
  · rw [exec_busOut hl, busOut_unanswered (tokenSlot_none h)]
    rfl
  · rw [exec_busIn, busIn_unanswered (tokenSlot_none h)]
    rfl

/-! ### A SETUP that a CONTROL slot answers (R263) -/

theorem setupSlot_of_slotFor {s : State} {a : BitVec 7} {ep : BitVec 4} {n : Fin 8}
    (ha : s.forThisDevice a = true) (hn : s.slotFor ep .dirOut = some n)
    (htype : Epr.epType (s.eprAt n) = epTypeControl) : s.setupSlot a ep = some n := by
  simp [State.setupSlot, ha, hn, htype]

/-- The packet is stored, where the buffer that the table names can be written. -/
theorem busSetup_stored {a : BitVec 7} {ep : BitVec 4} {data : List Byte} {s : State} {n : Fin 8}
    (hs : s.setupSlot a ep = some n) (hl : data.length = 8)
    (haddr : s.accessOk (s.bdt n.val + 4) 2 = true) (hcount : s.accessOk (s.bdt n.val + 6) 2 = true)
    (hbuffer : s.accessOk (s.readHalf (s.bdt n.val + 4)).toNat data.length = true) :
    busSetup a ep data s = .ok (s.receive n data setupWord (.setup a ep data .ack)) := by
  simp only [busSetup, hs]
  rw [addrRx_ok haddr, Flow.andThen_ok, memWrite_ok hbuffer, Flow.andThen_ok,
    setCountRx_ok (by simpa using hcount), Flow.andThen_ok, State.bdt_writeBuffer, State.receive, hl]

/-- Settles O47: the SETUP is a stored packet, and `receive_spec` tells what that leaves. -/
theorem busSetupIsAccepted : Obligations.BusSetupIsAccepted := by
  intro a ep data s n hl ha hslot htype haddr hcount hbuffer hapart
  have hspec := s.receive_spec n data setupWord (.setup a ep data .ack) (by rwa [hl])
  rw [hl] at hspec
  refine ⟨s.receive n data setupWord (.setup a ep data .ack), ?_, hspec⟩
  rw [exec_busSetup hl, busSetup_stored (setupSlot_of_slotFor ha hslot htype) hl haddr hcount (by rwa [hl])]
  rfl

/-! ### An IN that a slot answers (R265) -/

section status
variable {a : BitVec 7} {ep : BitVec 4} {s : State} {n : Fin 8} (hn : s.tokenSlot a ep .dirIn = some n)
include hn

theorem busIn_of_stall (h : Epr.statTx (s.eprAt n) = .stall) :
    busIn a ep s = .ok (s.observe (.inToken a ep .stall)) := by simp [busIn, hn, h]

theorem busIn_of_nak (h : Epr.statTx (s.eprAt n) = .nak) :
    busIn a ep s = .ok (s.observe (.inToken a ep .nak)) := by simp [busIn, hn, h]

theorem busIn_of_valid (h : Epr.statTx (s.eprAt n) = .valid) :
    busIn a ep s = busInValid a ep n s := by simp [busIn, hn, h]

end status

/-- The bytes that the table names are sent, where they can be read. -/
theorem busInValid_sent {a : BitVec 7} {ep : BitVec 4} {s : State} {n : Fin 8}
    (haddr : s.accessOk (s.bdt n.val) 2 = true) (hcount : s.accessOk (s.bdt n.val + 2) 2 = true)
    (hbuffer : s.accessOk (s.readHalf (s.bdt n.val)).toNat
      (field (s.readHalf (s.bdt n.val + 2)) 0 10).toNat = true) :
    busInValid a ep n s = .ok ((s.modifyEpr n inWord).observe (.inToken a ep (.data
      (s.readBytes (s.readHalf (s.bdt n.val)).toNat
        (field (s.readHalf (s.bdt n.val + 2)) 0 10).toNat)))) := by
  rw [busInValid, countTx_ok hcount, Flow.andThen_ok, addrTx_ok haddr, Flow.andThen_ok,
    memRead_ok hbuffer, Flow.andThen_ok]

/-- Settles O49, by the status of the transmit half; a VALID one changes the slot's word alone. -/
theorem busInByStatus : Obligations.BusInByStatus := by
  intro a ep s n ha hslot
  have hn := tokenSlot_of_slotFor ha hslot
  rw [exec_busIn]
  refine ⟨fun hst => ?_, fun hst => ?_, fun hst haddr hcount hbuffer => ?_⟩
  · rw [busIn_of_stall hn hst]
    rfl
  · rw [busIn_of_nak hn hst]
    rfl
  · rw [busIn_of_valid hn hst, busInValid_sent haddr hcount hbuffer]
    refine ⟨_, rfl, ?_, rfl, fun m hm => ?_, fun _ => rfl, rfl⟩
    · rw [State.observe_eprAt, State.eprAt_modifyEpr_same]
      rfl
    · rw [State.observe_eprAt, State.eprAt_modifyEpr, if_neg hm]

/-! ### A bus reset (R266, R269) -/

/-- RESET is bit 10. -/
theorem Istr.withReset_eq_or (w : Half) : Istr.withReset w = w ||| 0x0400#16 := by
  apply BitVec.eq_of_getLsbD_eq
  intro i hi
  rw [Istr.withReset, getLsbD_withField _ _ _ _ (by decide), BitVec.getLsbD_or]
  interval_cases i <;> simp

/-- Settles O50, by whether the device is attached. -/
theorem busResetClearsTheDevice : Obligations.BusResetClearsTheDevice := by
  intro s
  rw [exec_busReset, busReset]
  refine ⟨fun ha => ?_, fun ha => ?_⟩
  · rw [if_pos ha]
    exact ⟨_, rfl, Istr.withReset_eq_or _, rfl, eprAt_replicate s, rfl, fun _ => rfl, rfl⟩
  · rw [if_neg (by simp [ha])]

end Sys2Proof.Machine
end

section
/-! PROOFS. The configuration refusals (60_exceptions.md R298, R321): a refused configuration has no step,
and the condition of each check. -/

namespace Sys2Proof.Machine

open Sys2Proof

/-! ### A refused configuration has no step (R321) -/

theorem step_of_not_accepted {s : State} (h : ¬ Accepted s.cfg) :
    step s = .refused (.configRefused (configErrors s.cfg)) := by
  cases hc : configErrors s.cfg with
  | nil => exact absurd hc h
  | cons c cs => simp only [step, State.nextAction, hc]

/-! ### The failing codes (R298) -/

/-- The check that a code of R298 stands for. -/
def checkFails (cfg : StaticConfig) : ConfigError → Bool
  | .pmaOverflow => pmaOverflows cfg
  | .scratchOverflow => scratchOverflows cfg
  | .responseExceedsMps0 => responseExceedsMps0 cfg
  | .duplicateEndpoint => duplicateEndpoint cfg
  | .endpointNumber => badEndpointNumber cfg
  | .mpsRange => mpsOutOfRange cfg
  | .fieldRange => fieldOutOfRange cfg

theorem mem_configErrors (cfg : StaticConfig) (e : ConfigError) :
    e ∈ configErrors cfg ↔ checkFails cfg e = true := by
  cases e <;> simp [configErrors, mem_codeIf, checkFails]

/-! ### The condition of each check -/

theorem pmaOverflows_iff (cfg : StaticConfig) :
    pmaOverflows cfg = true ↔ cfg.pmaSize < (allocation cfg).endOff := decide_eq_true_iff

theorem scratchOverflows_iff (cfg : StaticConfig) :
    scratchOverflows cfg = true ↔ ∃ c ∈ cfg.configs, cfg.scratchCap < configTotal c := by
  simp [scratchOverflows]

theorem responseExceedsMps0_iff (cfg : StaticConfig) :
    responseExceedsMps0 cfg = true ↔ cfg.mps0.toNat < 18 ∨
      (∃ c ∈ cfg.configs, cfg.mps0.toNat < configTotal c) ∨
      (∃ b, reportSource cfg = some b ∧ cfg.mps0.toNat < b.length) := by
  cases h : reportSource cfg <;> simp [responseExceedsMps0, h, or_assoc]

theorem duplicateEndpoint_iff (cfg : StaticConfig) :
    duplicateEndpoint cfg = true ↔
      ∃ (j k : Nat) (e f : Endpoint), j < k ∧ (declaredEndpoints cfg)[j]? = some e ∧
        (declaredEndpoints cfg)[k]? = some f ∧
        e.number = f.number ∧ (e.dir = f.dir ∨ e.epType ≠ f.epType) := by
  simp only [duplicateEndpoint, anyClash_eq_true, endpointsClash_iff]

theorem badEndpointNumber_iff (cfg : StaticConfig) :
    badEndpointNumber cfg = true ↔
      ∃ e ∈ declaredEndpoints cfg, e.number = 0#4 ∨ cfg.numEpSlots ≤ e.number.toNat := by
  simp [badEndpointNumber, BitVec.toNat_eq]

theorem mps0Legal_iff (m : Nat) : mps0Legal m = true ↔ m ∈ [8, 16, 32, 64] := by
  simp [mps0Legal, or_assoc]

/-- A packet size is illegal where it is 0 or above the limit of its transfer type (R132). -/
theorem mpsLegal_eq_false (e : Endpoint) :
    mpsLegal e = false ↔ e.mps.toNat = 0 ∨
      (e.epType = .isochronous ∧ 1023 < e.mps.toNat) ∨
      (e.epType ≠ .isochronous ∧ 64 < e.mps.toNat) := by
  cases h : e.epType <;> simp [mpsLegal, h] <;> omega

theorem mpsOutOfRange_iff (cfg : StaticConfig) :
    mpsOutOfRange cfg = true ↔
      cfg.mps0.toNat ∉ [8, 16, 32, 64] ∨
      ∃ e ∈ declaredEndpoints cfg, e.mps.toNat = 0 ∨
        (e.epType = .isochronous ∧ 1023 < e.mps.toNat) ∨
        (e.epType ≠ .isochronous ∧ 64 < e.mps.toNat) := by
  simp only [mpsOutOfRange, Bool.or_eq_true, Bool.not_eq_true', List.any_eq_true, mpsLegal_eq_false,
    ← mps0Legal_iff, Bool.not_eq_true]

theorem fieldOutOfRange_iff (cfg : StaticConfig) :
    fieldOutOfRange cfg = true ↔ 255 < cfg.configs.length ∨ ∃ c ∈ cfg.configs,
      255 < c.interfaces.length ∨ ∃ i ∈ c.interfaces, 255 < i.endpoints.length := by
  simp [fieldOutOfRange]

/-! ### The obligation -/

/-- Settles O11: each code by the condition of its check. -/
theorem configurationRefusals : Obligations.ConfigurationRefusals := by
  refine ⟨fun _ => step_of_not_accepted, rfl, fun cfg => ?_⟩
  simp only [mem_configErrors]
  exact ⟨pmaOverflows_iff cfg, scratchOverflows_iff cfg, responseExceedsMps0_iff cfg,
    duplicateEndpoint_iff cfg, badEndpointNumber_iff cfg, mpsOutOfRange_iff cfg, fieldOutOfRange_iff cfg⟩

end Sys2Proof.Machine
end

section
/-! PROOFS. The state at power-on (10_state.md R46, 70_reset_and_hazards.md R320), and the order of the two
stages in one call of the endpoint-0 handler (R326). -/

namespace Sys2Proof.Machine

open Sys2Proof

/-! ### Power-on (R46, R320) -/

@[simp] theorem State.powerOn_eprAt (cfg : StaticConfig) (params : Params) (n : Fin 8) :
    (State.powerOn cfg params).eprAt n = 0x0000#16 :=
  eprAt_replicate (State.powerOn cfg params) n

theorem State.powerOn_pullupLine (cfg : StaticConfig) (params : Params) :
    (State.powerOn cfg params).pullupLine = !params.hasPullup := by
  cases h : params.hasPullup <;> simp [State.pullupLine, State.powerOn, h]

/-- A slot whose register is 0 is DISABLED both ways and reports no completion. -/
theorem halves_of_zero (d : Dir) :
    halfStat d 0x0000#16 = .disabled ∧ halfCompletion d 0x0000#16 = false := by
  cases d <;> decide

/-- The table and the powered block are claimed only after `Enable`; a register of 0 silences both halves
of its slot, and its EP_TYPE is BULK. -/
theorem State.powerOn_inv (cfg : StaticConfig) (params : Params) : Inv (State.powerOn cfg params) where
  memory := rfl
  base := rfl
  reserved := ⟨BitVec.zero_and, BitVec.zero_and⟩
  table := Bool.noConfusion
  powered := Bool.noConfusion
  slots := fun n d _ => by rw [State.powerOn_eprAt]; exact halves_of_zero d
  control := fun n h => by rw [State.powerOn_eprAt] at h; exact absurd h (by decide)

/-- Settles O5: the fields are those `State.powerOn` lists, and a byte that nothing has written is free. -/
theorem powerOnState : Obligations.PowerOnState := fun cfg params =>
  have hline := State.powerOn_pullupLine cfg params
  ⟨rfl, rfl, rfl, rfl, State.powerOn_eprAt cfg params, rfl, rfl, rfl, rfl, rfl,
    fun h => by rw [hline, h]; rfl, fun h => by rw [hline, h]; rfl, fun _ => rfl,
    State.powerOn_inv cfg params⟩

/-! ### The order of the stages (R173, R326) -/

theorem ep0Receive_of_not_ctrRx {s : State} (h : Epr.ctrRx (s.eprAt 0) = false) :
    ep0Receive s = .ok s := by
  rw [ep0Receive, if_neg (by simp [h])]

/-- The receive side is the event that SETUP selects. -/
theorem ep0Receive_outcome {s : State} (h : Epr.ctrRx (s.eprAt 0) = true) :
    (ep0Receive s).outcome = exec (if Epr.setupFlag (s.eprAt 0) then .evEp0Setup else .evEp0Out) s := by
  rw [ep0Receive, if_pos h]
  split <;> rfl

/-- After the receive side the transmit stage runs where CTR_TX was set: the receive side leaves that
flag. -/
theorem exec_evCtrEp0_of_receive {s u : State} (h : ep0Receive s = .ok u) (dirBit : BitVec 1) :
    exec (.evCtrEp0 dirBit) s = if Epr.ctrTx (s.eprAt 0) then exec .evEp0Tx u else .next u := by
  obtain ⟨-, -, hctrTx⟩ := (ep0Receive_receive s).ok u h
  have hcall : exec (.evCtrEp0 dirBit) s = (ep0Handler s).outcome := rfl
  rw [hcall, ep0Handler, h, Flow.andThen_ok, hctrTx]
  split <;> rfl

/-- Settles O26, by the receive side: idle, or an event that ends without a fault. -/
theorem ep0HandlerOrder : Obligations.Ep0HandlerOrder := by
  intro dirBit s
  refine ⟨fun hrx htx => ?_, fun hrx htx => ?_, fun u _ hrx hu hfault => ?_⟩
  · rw [exec_evCtrEp0_of_receive (ep0Receive_of_not_ctrRx hrx), if_neg (by simp [htx])]
  · rw [exec_evCtrEp0_of_receive (ep0Receive_of_not_ctrRx hrx), if_pos htx]
  · rw [← ep0Receive_outcome hrx] at hu
    exact exec_evCtrEp0_of_receive ((ep0Receive_leaves s).outcome_ok hu hfault) dirBit

end Sys2Proof.Machine
end
